-- ==== Sys2Proof/Word.lean ====
section
/-! DEFINITION. The word types of the block: a stream byte and the 64-bit change mask. Everything the
spec treats as a number (R9) is a `Nat` in the model. -/

namespace Sys2Proof

/-- One byte of the stream ROM (R60). -/
abbrev Byte := BitVec 8

/-- The change mask, bit `k` = chunk `k` (R26, R95). -/
abbrev MaskWord := BitVec 64

end Sys2Proof
end

