-- ==== Sys2Proof/Config.lean ====
section
/-! DEFINITION. The fixed constants of the format (R6), the deployed values of the instance parameters
(R7), and the free values: constants without a body, so that no proof can see what they are. -/

namespace Sys2Proof.Config

/-- `GRID`: chunks per axis (R6). -/
def grid : Nat := 8

/-- `MASK_BITS`: one mask bit per chunk (R6). -/
def maskBits : Nat := 64

/-- `GROUP_BITS`: value bits per group of the run code (R6). -/
def groupBits : Nat := 3

/-- `MAX_GROUPS`: the largest group count the offset table serves (R6). -/
def maxGroups : Nat := 6

/-- `OFFSET[0..5]`, by its six literals (R6, R139). -/
def offset : List Nat := [0, 8, 72, 584, 4680, 37448]

/-- `RUN_MAX`: the largest run length a RUN token can carry (R6). -/
def runMax : Nat := 299592

/-- `BORDER_THRESH`: the border step acts from this difference on (R6, R199). -/
def borderThresh : Nat := 10

/-- The source's value of the change detector's penalty (R248, R250); the detector takes it as a parameter
(U10). -/
def debouncePenalty : Nat := 5

/-- The source's value of the change detector's threshold, in percent of the chunk's pixels (R249, R250);
the detector takes it as a parameter (U10). -/
def changePercent : Nat := 8

/-- `DISP_W` of the deployed instance (R7). -/
def deployedW : Nat := 128

/-- `DISP_H` of the deployed instance (R7). -/
def deployedH : Nat := 64

/-- Default `ADDR_W` (R7, D4). -/
def defaultAddrW : Nat := 32

/-- FREE VALUE (log 3): the arbitrary but fixed bit of a framebuffer pixel nobody has written
(R67, D19), by the draw it belongs to and its display coordinates. -/
opaque freePixel : (draw x y : Nat) → Bool

/-- FREE VALUE (log 15): a bit of the packed framebuffer that holds no pixel, by the framebuffer's draw, its
byte and its place in it (R68 says nothing of it). -/
opaque freeFiller : (draw a bit : Nat) → Bool

/-- FREE VALUE (log 5): the value of `OK` after a RESET (R39, D27), by its draw. -/
opaque freeOk : (draw : Nat) → Bool

end Sys2Proof.Config
end

