-- ==== Sys2Proof/Syntax.lean ====
section
/-! DEFINITION. The instructions: one constructor per row of the opcode table. The stream's tokens play
the part of instructions (R90, R108); the two host operations are rows of the same table (R105). -/

namespace Sys2Proof

/-- An instruction: a stream token or a host operation. -/
inductive Instr where
  /-- `DIMS`: frame width and height, one byte each (R94, R156). -/
  | dims (w h : Byte)
  /-- `MASK`: the 64 mask bits (R95, R158). -/
  | mask (m : MaskWord)
  /-- `COLOR`: the starting colour, `true` = 1 = on (R96, R171). -/
  | color (c : Bool)
  /-- `RUN.G1` (R142). -/
  | runG1 (v : BitVec 3)
  /-- `RUN.G2` (R143). -/
  | runG2 (v : BitVec 6)
  /-- `RUN.G3` (R144). -/
  | runG3 (v : BitVec 9)
  /-- `RUN.G4` (R145). -/
  | runG4 (v : BitVec 12)
  /-- `RUN.G5` (R146). -/
  | runG5 (v : BitVec 15)
  /-- `RUN.G6` (R147). -/
  | runG6 (v : BitVec 18)
  /-- `RUN.RSV`: the reserved prefix of six one-bits (R100, R148). -/
  | runRsv
  /-- `PAD`: the `n` bits left at the end of the stream where no further MASK fits (R90, R103). -/
  | pad (n : Nat)
  /-- `RESET`, control `1x`; `start` is the wire's value, ignored (R105, R216). -/
  | reset (start : Bool)
  /-- `DECODE_NEXT_FRAME`, control `01` (R105, R219). -/
  | decodeNextFrame
  deriving DecidableEq, Repr

/-- The decoder state in which a token is expected: no bit of a token says which format it has, the
context chooses it (R92, R108). -/
inductive Context where
  /-- RESET in progress: the two dimension bytes. -/
  | dims
  /-- Step 1 of a later frame: the change mask. -/
  | mask
  /-- Step 3: the starting colour. -/
  | color
  /-- Step 3, or a pixel is due and `RUN` = 0: a run length. -/
  | run
  /-- The host's control sample `{rst, start}`. -/
  | ctrl
  deriving DecidableEq, Repr

/-- The context in which an instruction stands (the table's `context`, R92). -/
def Instr.context : Instr → Context
  | .dims _ _ => .dims
  | .mask _ => .mask
  | .color _ => .color
  | .runG1 _ => .run
  | .runG2 _ => .run
  | .runG3 _ => .run
  | .runG4 _ => .run
  | .runG5 _ => .run
  | .runG6 _ => .run
  | .runRsv => .run
  | .pad _ => .mask
  | .reset _ => .ctrl
  | .decodeNextFrame => .ctrl

/-- The instruction's length in bits, as the opcode table gives it (R90, R93). -/
def Instr.length : Instr → Nat
  | .dims _ _ => 16
  | .mask _ => 64
  | .color _ => 1
  | .runG1 _ => 4
  | .runG2 _ => 8
  | .runG3 _ => 12
  | .runG4 _ => 16
  | .runG5 _ => 20
  | .runG6 _ => 24
  | .runRsv => 6
  | .pad n => n
  | .reset _ => 2
  | .decodeNextFrame => 2

end Sys2Proof
end

