-- ==== Sys2Proof/WellFormed.lean ====
section
/-! DEFINITION. What the format calls a legal instruction: dimensions are 1..255 (R94, R101) and the
padding is 0 to 7 bits (R90, R103). Every other field's values are all legal (R102, R138). An
ill-formed instruction still has a meaning (RESET raises `BadDimensions`, a longer tail ends the
stream as well); this predicate only says what a stream's producer may write. -/

namespace Sys2Proof

/-- The instruction is one the format allows in a stream. -/
def Instr.wellFormed : Instr → Bool
  | .dims w h => w != 0 && h != 0
  | .pad n => n ≤ 7
  | .mask _ => true
  | .color _ => true
  | .runG1 _ => true
  | .runG2 _ => true
  | .runG3 _ => true
  | .runG4 _ => true
  | .runG5 _ => true
  | .runG6 _ => true
  | .runRsv => false
  | .reset _ => true
  | .decodeNextFrame => true

/-- `i` is well-formed. -/
abbrev WellFormed (i : Instr) : Prop := i.wellFormed = true

end Sys2Proof
end

