-- ==== Sys2Proof/Decode.lean ====
section
/-! DEFINITION. The decoder: from the bits at the cursor, in the context the machine is in (R92), to an
instruction and the bits after it, or a rejection by name. After it the encoder, written from the same
formats (R90), the run encoder (R239), and the reading of an opcode-table word. -/

namespace Sys2Proof

/-! ## Bit strings: first bit consumed on the left (R10, R70) -/

/-- The bits of a byte in the order the reader consumes them: bit 7 first (R70). -/
def byteBits (b : Byte) : List Bool :=
  [b.getLsbD 7, b.getLsbD 6, b.getLsbD 5, b.getLsbD 4, b.getLsbD 3, b.getLsbD 2, b.getLsbD 1, b.getLsbD 0]

/-- A byte sequence as one bit string (R70). -/
def bytesBits (bs : List Byte) : List Bool :=
  bs.flatMap byteBits

/-- The number a field holds: the first bit is the most significant (R70, R122). -/
def bitsToNat (bits : List Bool) : Nat :=
  bits.foldl (fun v b => 2 * v + b.toNat) 0

/-- `v` as a field of `n` bits, most significant first (R70). -/
def natToBits : (n v : Nat) → List Bool
  | 0, _ => []
  | n + 1, v => v.testBit n :: natToBits n v

/-! ## The run code -/

/-- `OFFSET[g-1]`, the offset of group `g` (R97, R139). -/
def groupOffset (g : Nat) : Nat :=
  Config.offset.getD (g - 1) 0

/-- The run length of a RUN token: `VALUE + OFFSET[g-1] + 1` (R97, R135). -/
def runLength (g v : Nat) : Nat :=
  v + groupOffset g + 1

/-- What reading a RUN prefix comes to (R136, R148). -/
inductive RunPrefix where
  /-- A zero-bit after `ones` one-bits; the bits after it. -/
  | stop (ones : Nat) (rest : List Bool)
  /-- The sixth one-bit was read; the bits after it. -/
  | reserved (rest : List Bool)
  /-- The stream ended after `ones` one-bits. -/
  | overrun (ones : Nat)
  deriving DecidableEq, Repr

/-- Count one-bits until a zero-bit is read; the sixth one-bit ends the count (R135, R136). -/
def readPrefix (ones : Nat) : List Bool → RunPrefix
  | [] => .overrun ones
  | false :: rest => .stop ones rest
  | true :: rest => if ones + 1 = Config.maxGroups then .reserved rest else readPrefix (ones + 1) rest

/-- The RUN token of group `g` (1 to 6) with value field `v`. -/
def runToken (g v : Nat) : Instr :=
  match g with
  | 1 => .runG1 (BitVec.ofNat 3 v)
  | 2 => .runG2 (BitVec.ofNat 6 v)
  | 3 => .runG3 (BitVec.ofNat 9 v)
  | 4 => .runG4 (BitVec.ofNat 12 v)
  | 5 => .runG5 (BitVec.ofNat 15 v)
  | _ => .runG6 (BitVec.ofNat 18 v)

/-! ## The decoder -/

/-- Why no instruction was read. -/
inductive DecodeError where
  /-- The stream ended inside the token, after `consumed` bits of it; in a RUN prefix or value field
  `ones` one-bits of the prefix had been counted (R264). -/
  | overrun (consumed ones : Nat)
  /-- The control sample `00`: no operation (R105). -/
  | noOperation
  deriving DecidableEq, Repr

/-- The decoder's answer: an instruction and the bits after it, or a rejection by name. -/
inductive Decoded where
  | ok (i : Instr) (rest : List Bool)
  | error (e : DecodeError)
  deriving DecidableEq, Repr

/-- A RUN token: unary prefix, then `3g` value bits (R97, R135). -/
def decodeRun (bits : List Bool) : Decoded :=
  match readPrefix 0 bits with
  | .overrun ones => .error (.overrun bits.length ones)
  | .reserved rest => .ok .runRsv rest
  | .stop ones rest =>
    let n := Config.groupBits * (ones + 1)
    if rest.length < n then .error (.overrun bits.length ones)
    else .ok (runToken (ones + 1) (bitsToNat (rest.take n))) (rest.drop n)

/-- The dimension bytes (R94). -/
def decodeDims (bits : List Bool) : Decoded :=
  if bits.length < 16 then .error (.overrun bits.length 0)
  else .ok (.dims (BitVec.ofNat 8 (bitsToNat (bits.take 8)))
    (BitVec.ofNat 8 (bitsToNat ((bits.drop 8).take 8)))) (bits.drop 16)

/-- The bounded read of the mask: with fewer than 64 bits left there is no token, only the stream's
tail (R95, R124, R103). -/
def decodeMask (bits : List Bool) : Decoded :=
  if bits.length < Config.maskBits then .ok (.pad bits.length) []
  else .ok (.mask (BitVec.ofNat 64 (bitsToNat (bits.take 64)))) (bits.drop 64)

/-- The starting colour (R96). -/
def decodeColor : List Bool → Decoded
  | [] => .error (.overrun 0 0)
  | c :: rest => .ok (.color c) rest

/-- The control sample `{rst, start}` (R105). -/
def decodeCtrl : List Bool → Decoded
  | true :: start :: rest => .ok (.reset start) rest
  | false :: true :: rest => .ok .decodeNextFrame rest
  | false :: false :: _ => .error .noOperation
  | [_] => .error (.overrun 1 0)
  | [] => .error (.overrun 0 0)

/-- The decoder, total on any bit string in any context (R92, R108). -/
def decode (c : Context) (bits : List Bool) : Decoded :=
  match c with
  | .dims => decodeDims bits
  | .mask => decodeMask bits
  | .color => decodeColor bits
  | .run => decodeRun bits
  | .ctrl => decodeCtrl bits

/-- The decoder on bytes, bit 7 of the first byte first (R70). -/
def decodeBytes (c : Context) (bytes : List Byte) : Decoded :=
  decode c (bytesBits bytes)

/-! ## The encoder -/

/-- A RUN token's bits: `g - 1` one-bits, a zero-bit, `3g` value bits (R90, R97). -/
def encodeRunBits (g v : Nat) : List Bool :=
  List.replicate (g - 1) true ++ false :: natToBits (Config.groupBits * g) v

/-- The bits of an instruction, first bit consumed on the left (R90, R105). -/
def encode : Instr → List Bool
  | .dims w h => natToBits 8 w.toNat ++ natToBits 8 h.toNat
  | .mask m => natToBits 64 m.toNat
  | .color c => [c]
  | .runG1 v => encodeRunBits 1 v.toNat
  | .runG2 v => encodeRunBits 2 v.toNat
  | .runG3 v => encodeRunBits 3 v.toNat
  | .runG4 v => encodeRunBits 4 v.toNat
  | .runG5 v => encodeRunBits 5 v.toNat
  | .runG6 v => encodeRunBits 6 v.toNat
  | .runRsv => List.replicate 6 true
  | .pad n => List.replicate n false
  | .reset start => [true, start]
  | .decodeNextFrame => [false, true]

/-- The group that carries the run length `n`: the least `g` with `n - 1 < OFFSET[g]`, with
`OFFSET[6] = RUN_MAX` for the comparison only (R239). -/
def runGroup (n : Nat) : Nat :=
  if n - 1 < 8 then 1
  else if n - 1 < 72 then 2
  else if n - 1 < 584 then 3
  else if n - 1 < 4680 then 4
  else if n - 1 < 37448 then 5
  else 6

/-- `ENCODE_RUN(n)`, for `1 ≤ n ≤ RUN_MAX` (R239). -/
def encodeRun (n : Nat) : Instr :=
  runToken (runGroup n) (n - 1 - groupOffset (runGroup n))

/-! ## Words of the opcode table -/

/-- The context and bits of an opcode-table word (log 14). The table numbers a row as one number of
the row's width whose most significant bit is the first bit consumed (R108); `nbits` is that width,
or that width in whole bytes. Since tokens are not self-identifying (R92), a width in whole bytes is
traced back to the row whose fixed bits the word shows. -/
def tableToken (nbits w : Nat) : Option (Context × List Bool) :=
  if nbits = 1 then some (.color, natToBits 1 w)
  else if nbits = 2 then some (.ctrl, natToBits 2 w)
  else if nbits = 4 then some (.run, natToBits 4 w)
  else if nbits = 6 then some (.run, natToBits 6 w)
  else if nbits = 8 then
    if w = 1 ∨ w = 2 ∨ w = 3 then some (.ctrl, natToBits 2 w)
    else if w < 8 then some (.run, natToBits 4 w)
    else if w = 0x3F then some (.run, natToBits 6 w)
    else some (.run, natToBits 8 w)
  else if nbits = 12 then some (.run, natToBits 12 w)
  else if nbits = 16 then
    if 0xC00 ≤ w ∧ w < 0xE00 then some (.run, natToBits 12 w)
    else if 0xE000 ≤ w ∧ w < 0xF000 then some (.run, natToBits 16 w)
    else some (.dims, natToBits 16 w)
  else if nbits = 20 then some (.run, natToBits 20 w)
  else if nbits = 24 then
    if w < 0x100000 then some (.run, natToBits 20 w) else some (.run, natToBits 24 w)
  else if nbits = 64 then some (.mask, natToBits 64 w)
  else none

/-- The instruction the decoder reads from an opcode-table word, if it reads exactly one. -/
def decodeTableWord (nbits w : Nat) : Option Instr :=
  match tableToken nbits w with
  | none => none
  | some (c, bits) =>
    match decode c bits with
    | .ok i [] => some i
    | .ok _ (_ :: _) => none
    | .error _ => none

end Sys2Proof
end

