-- ==== Sys2Proof/Machine/State.lean ====
section
/-! DEFINITION. The state of the machine, as plain data: the block's registers and outputs (R20), the two
memories (R60), the instance parameters (R7), and the model's own bookkeeping fields; why a step can
stop; and the state after reset (R39, log 1 and log 4). -/

namespace Sys2Proof.Machine

/-- `PHASE`: the controller's sequencing state (R32, R221). -/
inductive Phase where
  | idle
  | header
  | color
  | scan
  | sample
  | fillL
  | fillR
  deriving DecidableEq, Repr

/-- What `FAULT` can record: F1 to F5, each with the information the spec says the model records
(R34, R262). -/
inductive FaultRecord where
  /-- F1: `LEN < 2` at RESET; records `LEN`. -/
  | romTooShort (len : Nat)
  /-- F2: a dimension byte is 0; records the two bytes. -/
  | badDimensions (w h : Nat)
  /-- F3: the frame does not fit the display; records the two bytes. -/
  | frameExceedsDisplay (w h : Nat)
  /-- F4: an unchecked read beyond the ROM; records `P`. -/
  | streamOverrun (p : Nat)
  /-- F5: the sixth one-bit of a RUN prefix; records `P` after that bit. -/
  | reservedRunGroup (p : Nat)
  deriving DecidableEq, Repr

/-- What the host does next while the block is idle (R105, R225; log 7). -/
inductive HostInput where
  /-- One sample of the control wires. -/
  | control (rst start : Bool)
  /-- The host writes a framebuffer pixel between operations (D15). -/
  | writePixel (x y : Nat) (c : Bool)
  /-- The host installs a stream, to be followed by a RESET (R292). -/
  | loadStream (bytes : List Byte)
  deriving DecidableEq, Repr

/-- `FB_LAYOUT`: where a framebuffer pixel lies in the device's bytes (R7, R68, R227). -/
inductive FbLayout where
  /-- The default: row-major, most significant bit left (R68, D5). -/
  | rowMajor
  /-- Any other packing or remapping, written out: the byte and the bit of each pixel, by pixel number
  (log 11, log 15). -/
  | table (places : List (Nat × Nat))
  deriving DecidableEq, Repr

/-- Why a step stops the machine with a fault. -/
inductive Fault where
  /-- Raised by the RUN tokens and the internal steps of scan and border when `W`, `H`, `CW`, `CH` are
  not values RESET can have left (R8, R266): a pixel access could then leave the framebuffer. Safe: no
  run reaches such a state (log 9). -/
  | badGeometry
  /-- Raised by a host write to a pixel outside the framebuffer's address space (R60, R66). Safe. -/
  | pixelOutsideDisplay (x y : Nat)
  deriving DecidableEq, Repr

/-- Why a step has no meaning. -/
inductive Refusal where
  /-- An instruction without a meaning. No arm answers it. Safe. -/
  | notModelled (mnemonic : String)
  /-- F6: DECODE_NEXT_FRAME with no fault-free RESET since power-on, or with a fault recorded (R271).
  Safe. -/
  | notReady
  /-- F7: RESET or DECODE_NEXT_FRAME while an operation is in progress (R272). Safe. -/
  | reentry
  /-- DECODE_NEXT_FRAME after the host changed the stream without a RESET, which the spec places outside
  the model (R63, D26, U18). Safe. -/
  | streamChanged
  /-- A token in a state that does not expect it: a token has no meaning outside its context (R92).
  Decoding never produces it. Safe (log 10). -/
  | outOfContext
  /-- The host loads a stream with `LEN ≥ 2^ADDR_W`, outside the parameter's constraint (R7). Safe. -/
  | streamTooLong
  deriving DecidableEq, Repr

/-- The state of the machine. -/
structure State where
  /-- `DISP_W` (R7), never changed. -/
  dispW : Nat
  /-- `DISP_H` (R7), never changed. -/
  dispH : Nat
  /-- `ADDR_W` (R7), never changed. -/
  addrW : Nat
  /-- `FB_LAYOUT` (R7, R68), never changed; no rule depends on it. -/
  fbLayout : FbLayout
  /-- `ROM` (R61): the bytes below `LEN`, an unlisted one reads as 0 (log 2). -/
  rom : List Host.Cell
  /-- `LEN` (R7, D4). -/
  romLen : Nat
  /-- `FB` (R64): the pixels somebody has written, by pixel number (log 11). -/
  fb : List (Nat × Bool)
  /-- The cursor `P` (R21). -/
  cursor : Nat
  /-- `FIRST_FRAME` (R23). -/
  firstFrame : Bool
  /-- `W` (R24). -/
  w : Nat
  /-- `H` (R24). -/
  h : Nat
  /-- `CW` (R25). -/
  cw : Nat
  /-- `CH` (R25). -/
  ch : Nat
  /-- `MASK` (R26). -/
  mask : MaskWord
  /-- `COLOR` (R27). -/
  color : Bool
  /-- `RUN` (R28). -/
  run : Nat
  /-- `ONES` (R29). -/
  ones : Nat
  /-- `VALUE` (R29). -/
  value : Nat
  /-- `X` (R30). -/
  x : Nat
  /-- `Y` (R30). -/
  y : Nat
  /-- `EL1` (R31). -/
  el1 : Nat
  /-- `EL0` (R31). -/
  el0 : Nat
  /-- `ER1` (R31). -/
  er1 : Nat
  /-- `ER0` (R31). -/
  er0 : Nat
  /-- `PHASE` (R32). -/
  phase : Phase
  /-- `BUSY` (R33). -/
  busy : Bool
  /-- `DONE` (R33). -/
  done : Bool
  /-- `OK` (R33). -/
  ok : Bool
  /-- `FAULT` (R34). -/
  faultRec : Option FaultRecord
  /-- A RESET has completed without fault since power-on (R218, R271). -/
  ready : Bool
  /-- `ROM` and `LEN` are the ones RESET saw (R63, R297(e)). -/
  streamSeen : Bool
  /-- The model's own: in phase COLOR, the COLOR bit has been read and the first RUN is due (log 6). -/
  gotColor : Bool
  /-- The model's own: what the host does next (log 7). -/
  inputs : List HostInput
  /-- The model's own: the number of free values drawn (log 3, log 5). -/
  draws : Nat
  /-- The model's own: the draw of the never-written pixels' bits (log 3). -/
  fbDraw : Nat
  deriving DecidableEq, Repr

/-- The machine after reset: the constants of R39, the deployed display, no stream loaded. What R39
derives from the ROM or leaves unspecified has the value log 1 and log 4 name. -/
def State.reset : State where
  dispW := Config.deployedW
  dispH := Config.deployedH
  addrW := Config.defaultAddrW
  fbLayout := .rowMajor
  rom := []
  romLen := 0
  fb := []
  cursor := 16
  firstFrame := true
  w := 0
  h := 0
  cw := 0
  ch := 0
  mask := 0
  color := false
  run := 0
  ones := 0
  value := 0
  x := 0
  y := 0
  el1 := 0
  el0 := 0
  er1 := 0
  er0 := 0
  phase := .idle
  busy := false
  done := false
  ok := false
  faultRec := none
  ready := false
  streamSeen := false
  gotColor := false
  inputs := []
  draws := 0
  fbDraw := 0

end Sys2Proof.Machine
end

