-- ==== Sys2Proof/Machine/Memory.lean ====
section
/-! DEFINITION. Memory as a list of (address, value) pairs in one canonical form: addresses strictly
rising, no entry equal to what an unlisted address reads as. The same operations serve both spaces of
R60: in the ROM an unlisted byte reads as 0, in the framebuffer an unlisted pixel has no value yet. -/

namespace Sys2Proof.Machine

/-- What an unlisted ROM byte reads as (log 2). -/
def romUnlisted : Option Byte := some 0

/-- An unlisted framebuffer pixel has no value: nobody has written it (R64). -/
def fbUnlisted : Option Bool := none

/-- The value listed at an address. -/
def memRead {α : Type} : List (Nat × α) → Nat → Option α
  | [], _ => none
  | (b, v) :: m, a => if a = b then some v else memRead m a

/-- List `v` at `a`, in its place. -/
def memInsert {α : Type} (a : Nat) (v : α) : List (Nat × α) → List (Nat × α)
  | [] => [(a, v)]
  | (b, u) :: m =>
    if a < b then (a, v) :: (b, u) :: m
    else if a = b then (a, v) :: m
    else (b, u) :: memInsert a v m

/-- List nothing at `a`. -/
def memErase {α : Type} (a : Nat) : List (Nat × α) → List (Nat × α)
  | [] => []
  | (b, u) :: m => if a = b then m else (b, u) :: memErase a m

/-- Write `v` at `a`; writing what an unlisted address reads as removes the entry. -/
def memWrite {α : Type} [DecidableEq α] (unlisted : Option α) (m : List (Nat × α)) (a : Nat) (v : α) :
    List (Nat × α) :=
  if unlisted = some v then memErase a m else memInsert a v m

/-- Write `v`, which is not what an unlisted address reads as, at the `n` addresses from `lo` on. -/
def memFill {α : Type} (m : List (Nat × α)) (lo n : Nat) (v : α) : List (Nat × α) :=
  m.filter (fun e => e.1 < lo) ++ (List.range' lo n).map (fun a => (a, v)) ++
    m.filter (fun e => lo + n ≤ e.1)

/-- The memory that holds `bytes` from address `a` on and lists no 0. -/
def memOfBytes : (a : Nat) → List Byte → List Host.Cell
  | _, [] => []
  | a, b :: bs => if b = 0 then memOfBytes (a + 1) bs else (a, b) :: memOfBytes (a + 1) bs

/-- The addresses rise strictly, from `lo` on. -/
def memSorted {α : Type} : (lo : Nat) → List (Nat × α) → Bool
  | _, [] => true
  | lo, (a, _) :: m => decide (lo ≤ a) && memSorted (a + 1) m

/-- The canonical form: strictly rising addresses below `size`, and no entry that reads as an unlisted
address does. -/
def memOk {α : Type} [DecidableEq α] (unlisted : Option α) (size : Nat) (m : List (Nat × α)) : Bool :=
  memSorted 0 m && m.all (fun e => decide (e.1 < size) && decide (unlisted ≠ some e.2))

/-- Both memories of the state are canonical and inside their address spaces (R60). -/
def Memory.wf (s : State) : Bool :=
  memOk romUnlisted s.romLen s.rom && memOk fbUnlisted (s.dispW * s.dispH) s.fb

end Sys2Proof.Machine
end

