-- ==== Sys2Proof/Machine/Ops.lean ====
section
/-! DEFINITION. The named operations over the two memories and the cursor, the bit reader's
micro-operations (R121, R122, R124), DECODE_RUN as the spec's procedure (R135), and the one way a fault
is taken (R262) and cleared (R216). -/

namespace Sys2Proof.Machine

/-! ## The stream ROM and the bit reader -/

/-- `BYTE_POS` (R21). -/
def bytePos (s : State) : Nat := s.cursor / 8

/-- `BIT_POS` (R21). -/
def bitPos (s : State) : Nat := s.cursor % 8

/-- `RomRead(a)`: the byte, or nothing for `a ≥ LEN` (R61). -/
def romRead (s : State) (a : Nat) : Option Byte :=
  if a < s.romLen then some ((memRead s.rom a).getD (romUnlisted.getD 0)) else none

/-- Stream bit `p`: bit `7 - (p mod 8)` of `ROM[p / 8]` (R70). -/
def romBit (s : State) (p : Nat) : Option Bool :=
  (romRead s (p / 8)).map (fun b => b.getLsbD (7 - p % 8))

/-- `REM`: the number of unread stream bits (R123). -/
def remaining (s : State) : Nat := 8 * s.romLen - s.cursor

/-- The at most `n` stream bits that exist from bit `p` on. -/
def streamBits (s : State) : (p n : Nat) → List Bool
  | _, 0 => []
  | p, n + 1 =>
    match romBit s p with
    | none => []
    | some b => b :: streamBits s (p + 1) n

/-- RDBIT: one bit and the cursor past it, or nothing and the cursor where it was (R121, R264). -/
def rdBit (s : State) : Option Bool × State :=
  match romBit s s.cursor with
  | none => (none, s)
  | some b => (some b, { s with cursor := s.cursor + 1 })

/-- RDBITS(n), carrying the bits read so far in `v`; on an overrun the bits before it stay consumed
(R122). -/
def rdBits : (n v : Nat) → State → Option Nat × State
  | 0, v, s => (some v, s)
  | n + 1, v, s =>
    match rdBit s with
    | (none, t) => (none, t)
    | (some b, t) => rdBits n (2 * v + b.toNat) t

/-- RDBITS_BOUNDED(64): a failing read consumes nothing (R124, R125). -/
def rdBitsBounded (s : State) : Option MaskWord × State :=
  if remaining s < Config.maskBits then (none, s)
  else
    match rdBits Config.maskBits 0 s with
    | (none, t) => (none, t)
    | (some v, t) => (some (BitVec.ofNat 64 v), t)

/-! ## DECODE_RUN, the procedure of R135 -/

/-- The prefix loop of R135 from the state with `ONES` counted so far, at most `n` more bits: the fault
it raises, or `g`. -/
def readOnes : (n : Nat) → State → (FaultRecord ⊕ Nat) × State
  | 0, s => (.inr (s.ones + 1), s)
  | n + 1, s =>
    match rdBit s with
    | (none, t) => (.inl (.streamOverrun t.cursor), t)
    | (some false, t) => (.inr (t.ones + 1), t)
    | (some true, t) =>
      if t.ones + 1 = Config.maxGroups then
        (.inl (.reservedRunGroup t.cursor), { t with ones := t.ones + 1 })
      else readOnes n { t with ones := t.ones + 1 }

/-- DECODE_RUN: the run length, or the fault it raises, and the state it leaves: `ONES`, `VALUE` and the
cursor (R135). -/
def decodeRunProc (s : State) : (FaultRecord ⊕ Nat) × State :=
  match readOnes Config.maxGroups { s with ones := 0 } with
  | (.inl f, t) => (.inl f, t)
  | (.inr g, t) =>
    match rdBits (Config.groupBits * g) 0 t with
    | (none, u) => (.inl (.streamOverrun u.cursor), u)
    | (some v, u) => (.inr (runLength g v), { u with value := v })

/-! ## The framebuffer -/

/-- The pixel's number: column by column, the order of the scan (R13; log 11). -/
def pixelAddr (s : State) (x y : Nat) : Nat := x * s.dispH + y

/-- `FbRead(x, y)`: what was written last, or the pixel's arbitrary but fixed bit (R67). -/
def fbRead (s : State) (x y : Nat) : Bool :=
  (memRead s.fb (pixelAddr s x y)).getD (Config.freePixel s.fbDraw x y)

/-- `FbWrite(x, y, c)` (R66). -/
def fbWrite (s : State) (x y : Nat) (c : Bool) : State :=
  { s with fb := memWrite fbUnlisted s.fb (pixelAddr s x y) c }

/-- `FbWrite(x, y, c)` for every row `y` of the `n` columns from `x` on (R200, R202): these pixels are
consecutive in the scan order's numbering, and the order of the writes is not observable (R200). -/
def fbFillColumns (s : State) (x n : Nat) (c : Bool) : State :=
  { s with fb := memFill s.fb (x * s.dispH) (n * s.dispH) c }

/-! ## The packed framebuffer: the view that `FB_LAYOUT` gives (R68, R205, R227) -/

/-- Column-major order: columns left to right, rows top to bottom (R13, R174). -/
def scanOrder (w h : Nat) : List (Nat × Nat) :=
  (List.range w).flatMap (fun x => (List.range h).map (fun y => (x, y)))

/-- The byte and the bit that hold pixel `(x, y)`. In the default layout rows take `ceil(DISP_W / 8)` bytes,
with pixel `x` in bit `7 - (x mod 8)` of byte `floor(x / 8)` (R68, D5). -/
def pixelPlace (s : State) (x y : Nat) : Nat × Nat :=
  match s.fbLayout with
  | .rowMajor => (y * ((s.dispW + 7) / 8) + x / 8, 7 - x % 8)
  | .table places => places.getD (pixelAddr s x y) (0, 0)

/-- Bit `i` of byte `a`: the pixel that lies there; a bit that holds no pixel, such as those of a row's
last byte beyond `DISP_W`, is a free value (log 15). -/
def physBit (s : State) (a i : Nat) : Bool :=
  match (scanOrder s.dispW s.dispH).find? (fun p => pixelPlace s p.1 p.2 == (a, i)) with
  | some p => fbRead s p.1 p.2
  | none => Config.freeFiller s.fbDraw a i

/-- Byte `a` of the device's framebuffer (R68). -/
def physByte (s : State) (a : Nat) : Byte :=
  BitVec.ofNat 8 (bitsToNat ((List.range 8).map (fun j => physBit s a (7 - j))))

/-! ## Taking a fault, and clearing it -/

/-- F4 and F5 leave the framebuffer's content unspecified (R262, U17). -/
def losesFramebuffer : FaultRecord → Bool
  | .romTooShort _ => false
  | .badDimensions _ _ => false
  | .frameExceedsDisplay _ _ => false
  | .streamOverrun _ => true
  | .reservedRunGroup _ => true

/-- The framebuffer with every pixel an arbitrary but fixed bit of a new draw. -/
def forgetFramebuffer (s : State) : State :=
  { s with fb := [], draws := s.draws + 1, fbDraw := s.draws + 1 }

/-- Taking a fault (R11 `raise`, R262): the first fault is recorded (R34), the operation ends, and after
F4 or F5 the framebuffer is unspecified. The block is idle again, so that RESET can be applied
(R216; log 12). `OK` stays: after F1 to F3 the value the RESET left (log 5), after F4 and F5 the last
result (R33). -/
def takeFault (f : FaultRecord) (s : State) : State :=
  let t := if losesFramebuffer f then forgetFramebuffer s else s
  { t with
    faultRec := some (s.faultRec.getD f)
    busy := false
    phase := .idle
    gotColor := false }

/-- Only RESET clears the record, as its first action (R34, R216); the operation is then in progress. `OK`
is left unspecified by every RESET, also by one that raises a fault (D27): a free value (log 5). `DONE` is 0 from its start on, also where a
fault is raised (log 8). -/
def beginReset (s : State) : State :=
  { s with
    faultRec := none
    busy := true
    phase := .idle
    done := false
    ok := Config.freeOk (s.draws + 1)
    draws := s.draws + 1
    gotColor := false }

end Sys2Proof.Machine
end

