-- ==== Sys2Proof/Machine/Operands.lean ====
section
/-! DEFINITION. What the tokens' operands mean: chunk geometry (R8, R14), placement (R15), the change
predicate (R162), and when a token of each kind is expected (R92). -/

namespace Sys2Proof.Machine

/-- `ceil(a / 8)` (R9). -/
def ceilDiv8 (a : Nat) : Nat := (a + 7) / 8

/-- `OFF_X` (R8, D17). -/
def offX (s : State) : Nat := (s.dispW - s.w) / 2

/-- `OFF_Y` (R8, D17). -/
def offY (s : State) : Nat := (s.dispH - s.h) / 2

/-- The chunk of frame pixel `(x, y)`: `cx*8 + cy` (R14). -/
def chunkOf (s : State) (x y : Nat) : Nat := x / s.cw * Config.grid + y / s.ch

/-- `changed(x, y)` (R162). -/
def changed (s : State) (x y : Nat) : Bool := s.mask.getLsbD (chunkOf s x y)

/-- The frame fits the display and the chunk size is the one RESET computes (R8, R266): every pixel the
scan and the border step touch then exists (R65, R180). -/
def geometryOk (s : State) : Bool :=
  decide (s.w ≤ s.dispW) && decide (s.h ≤ s.dispH) && decide (s.cw = ceilDiv8 s.w) &&
    decide (s.ch = ceilDiv8 s.h)

/-- The band test: a new row-band whose chunk is unchanged (R175). -/
def bandSkipped (s : State) : Bool :=
  decide (s.y % s.ch = 0) && !changed s s.x s.y

/-- In the scan, a pixel is due and the run is exhausted (R178, R179). -/
def needsRun (s : State) : Bool :=
  s.phase == .scan && decide (s.x < s.w) && decide (s.y < s.h) && !bandSkipped s && s.run == 0

/-- The first RUN of the frame is due (R172). -/
def firstRunDue (s : State) : Bool :=
  s.phase == .color && s.gotColor

/-- A RUN token is expected (R92, R172, R178). -/
def expectsRun (s : State) : Bool :=
  s.busy && (firstRunDue s || needsRun s)

/-- RESET in progress: the dimensions are expected (R92, R156). -/
def expectsDims (s : State) : Bool := s.busy && s.phase == .idle

/-- Step 1 of a later frame: the mask is expected (R92, R158). -/
def expectsMask (s : State) : Bool := s.busy && s.phase == .header && !s.firstFrame

/-- Step 3: the starting colour is expected (R92, R171). -/
def expectsColor (s : State) : Bool := s.busy && s.phase == .color && !s.gotColor

/-- What happens before a RUN token is read: a later run inverts the colour first (R173, R178), the
first run does not (R172); the count starts at zero (R135). -/
def beginRun (s : State) : State :=
  { s with color := if s.phase = .scan then !s.color else s.color, ones := 0 }

/-- `RUN ← DECODE_RUN()` for the token of group `g` with value field `v` (R135, R172, R178): the
cursor passes `4g` bits (R93), `ONES` and `VALUE` hold what was read, and the first run starts the scan
at column 0, row 0 (R173). -/
def loadRun (g v : Nat) (s : State) : State :=
  let t := beginRun s
  { t with
    cursor := s.cursor + 4 * g
    ones := g - 1
    value := v
    run := runLength g v
    x := if s.phase = .scan then s.x else 0
    y := if s.phase = .scan then s.y else 0
    phase := .scan
    gotColor := false }

end Sys2Proof.Machine
end

