-- ==== Sys2Proof/Machine/Flags.lean ====
section
/-! DEFINITION. The status outputs `BUSY`, `DONE`, `OK`, the flag `FIRST_FRAME`, and the border step's two
decisions: threshold and majority. -/

namespace Sys2Proof.Machine

/-- Completion of a DECODE_NEXT_FRAME with result `r`: `OK ← r`, `BUSY ← 0`, `DONE` pulses, `PHASE ←
IDLE` (R219, R33). The working registers, which may hold any value between operations (U9), keep what was
last written: DESIGN CHOICE (log 18). -/
def finish (r : Bool) (s : State) : State :=
  { s with ok := r, busy := false, done := true, phase := .idle, gotColor := false }

/-- The start of DECODE_NEXT_FRAME: `BUSY ← 1` and PHASE HEADER, for steps 1 and 2 of every frame (R219,
R221). -/
def beginFrame (s : State) : State :=
  { s with busy := true, done := false, phase := .header, gotColor := false }

/-- Step 1 of the first frame: the implicit mask of all ones, with `FIRST_FRAME` cleared and no bit
consumed; its outcome is `Decode` (R157). -/
def loadFullMask (s : State) : State :=
  { s with mask := BitVec.allOnes 64, firstFrame := false, phase := .color }

/-- `abs(a - b)` on integers (R199). -/
def absDiff (a b : Nat) : Nat := if b ≤ a then a - b else b - a

/-- A margin is painted exactly when its edge's difference reaches the threshold (R199). -/
def thresholdMet (ones zeros : Nat) : Bool := decide (Config.borderThresh ≤ absDiff ones zeros)

/-- The majority colour of an edge (R201). -/
def majority (ones zeros : Nat) : Bool := decide (zeros < ones)

end Sys2Proof.Machine
end

