-- ==== Sys2Proof/Machine/Border.lean ====
section
/-! DEFINITION. The border step (R195 to R206): no token, three internal phases. -/

namespace Sys2Proof.Machine

/-- The set pixels in the frame's rows of display column `x` (R197). -/
def countOn (s : State) (x : Nat) : Nat :=
  (List.range s.h).countP (fun y => fbRead s x (offY s + y))

/-- The unset pixels in the frame's rows of display column `x` (R197). -/
def countOff (s : State) (x : Nat) : Nat :=
  (List.range s.h).countP (fun y => !fbRead s x (offY s + y))

/-- After the left side: the right fill if its threshold is met, else completion (R202, R219, R221). -/
def afterLeft (s : State) : State :=
  if thresholdMet s.er1 s.er0 then { s with phase := .fillR } else finish true s

/-- SAMPLE: the frame's own first and last column are counted; a fill whose threshold is not met is
skipped (R197, R198, R199, R221). -/
def sampleEdges (s : State) : State :=
  let t := { s with
    el1 := countOn s (offX s)
    el0 := countOff s (offX s)
    er1 := countOn s (offX s + s.w - 1)
    er0 := countOff s (offX s + s.w - 1) }
  if thresholdMet t.el1 t.el0 then { t with phase := .fillL } else afterLeft t

/-- FILL_L: every display row of the columns left of the frame (R200). -/
def fillLeft (s : State) : State :=
  afterLeft (fbFillColumns s 0 (offX s) (majority s.el1 s.el0))

/-- FILL_R: every display row of the columns right of the frame (R202). -/
def fillRight (s : State) : State :=
  finish true (fbFillColumns s (offX s + s.w) (s.dispW - (offX s + s.w)) (majority s.er1 s.er0))

end Sys2Proof.Machine
end

