-- ==== Sys2Proof/Machine/Expander.lean ====
section
/-! DEFINITION. The expander: the scan of R173 and the meaning of COLOR (R171). The scan stops where the
next token is needed and goes on from there when the token has been read. -/

namespace Sys2Proof.Machine

/-- One decoded pixel: `RUN ← RUN - 1`, `FbWrite(OFF_X + X, OFF_Y + Y, COLOR)`, `Y ← Y + 1` (R173,
R180). -/
def paintPixel (s : State) : State :=
  { fbWrite s (offX s + s.x) (offY s + s.y) s.color with run := s.run - 1, y := s.y + 1 }

/-- The loops of R173 from the position `X`, `Y`, at most `n` turns: next column, skipped band, or
pixel. They end in phase SAMPLE after the last column, or in phase SCAN where a pixel is due and
`RUN` = 0. The turn that leaves the last column sets `X` = `W` and `Y` = 0, where the spec fixes neither
once the scan has ended (R173, U9): DESIGN CHOICE (log 18). -/
def scan : (n : Nat) → State → State
  | 0, s => s
  | n + 1, s =>
    if s.w ≤ s.x then { s with phase := .sample }
    else if s.h ≤ s.y then scan n { s with x := s.x + 1, y := 0 }
    else if bandSkipped s then scan n { s with y := s.y + s.ch }
    else if s.run = 0 then s
    else scan n (paintPixel s)

/-- Turns enough for the loops to end: each column left takes at most `H` turns and one to leave it
(R186, R304). -/
def scanTurns (s : State) : Nat := (s.w - s.x) * (s.h + 1) + 1

/-- The scan, as far as the current run carries it. -/
def runScan (s : State) : State := scan (scanTurns s) s

/-- COLOR: `COLOR ← RDBIT()` (R171). -/
def execColor (c : Bool) (s : State) : Host.Outcome State Fault Refusal :=
  if expectsColor s then
    .next { s with color := c, cursor := s.cursor + 1, gotColor := true }
  else .refused .outOfContext

end Sys2Proof.Machine
end

