-- ==== Sys2Proof/Machine/Fetch.lean ====
section
/-! DEFINITION. Fetching: which token the busy block reads next and what happens when the ROM ends
inside it; the internal steps, which read none; what the idle block takes from the host; and laying an
opcode-table word where the next step fetches. -/

namespace Sys2Proof.Machine

/-- What a fetch comes to: an instruction and the state it runs in, or a step without an instruction. -/
inductive Fetched where
  | run (i : Instr) (s : State)
  | done (o : Host.Outcome State Fault Refusal)

/-! ## Busy: tokens and internal steps -/

/-- The token the busy block expects (R92); none where the next step reads no token. -/
def tokenContext (s : State) : Option Context :=
  match s.phase with
  | .idle => some .dims
  | .header => if s.firstFrame then none else some .mask
  | .color => if s.gotColor then some .run else some .color
  | .scan => if needsRun s then some .run else none
  | .sample => none
  | .fillL => none
  | .fillR => none

/-- The stream bits a token of a context is decoded from: as many as its longest form has, or what is
left of the ROM. DIMS stands at stream bit 0 (R62), every other token at the cursor (R22). -/
def tokenWindow (c : Context) (s : State) : List Bool :=
  match c with
  | .dims => streamBits s 0 16
  | .mask => streamBits s s.cursor 64
  | .color => streamBits s s.cursor 1
  | .run => streamBits s s.cursor 24
  | .ctrl => []

/-- The ROM ends inside a token: `RomTooShort` for DIMS (R263), `StreamOverrun` for COLOR and RUN with
the bits before the end consumed (R122, R264). -/
def overrunIn (c : Context) (consumed ones : Nat) (s : State) : State :=
  match c with
  | .dims => takeFault (.romTooShort s.romLen) s
  | .run =>
    takeFault (.streamOverrun (s.cursor + consumed))
      { beginRun s with cursor := s.cursor + consumed, ones := ones }
  | .color => takeFault (.streamOverrun (s.cursor + consumed)) { s with cursor := s.cursor + consumed }
  | .mask => takeFault (.streamOverrun (s.cursor + consumed)) { s with cursor := s.cursor + consumed }
  | .ctrl => s

/-- A busy step that reads no token: the first frame's implicit mask (R157), the scan going on, or a phase
of the border step (R221). -/
def internalStep (s : State) : Host.Outcome State Fault Refusal :=
  if s.phase = .header then .next (loadFullMask s)
  else if geometryOk s then
    match s.phase with
    | .scan => .next (runScan s)
    | .sample => .next (sampleEdges s)
    | .fillL => .next (fillLeft s)
    | .fillR => .next (fillRight s)
    | .idle => .refused .outOfContext
    | .header => .refused .outOfContext
    | .color => .refused .outOfContext
  else .fault .badGeometry

/-- The busy block's next step: the decoded token, the end of the ROM inside it, or an internal step. -/
def fetchToken (s : State) : Fetched :=
  match tokenContext s with
  | none => .done (internalStep s)
  | some c =>
    match decode c (tokenWindow c s) with
    | .ok i _ => .run i s
    | .error (.overrun consumed ones) => .done (.next (overrunIn c consumed ones s))
    | .error .noOperation => .done (.refused .outOfContext)

/-! ## Idle: the host -/

/-- The host writes a pixel between operations: an ordinary memory write (D15, R225). -/
def hostWrite (x y : Nat) (c : Bool) (s : State) : Host.Outcome State Fault Refusal :=
  if x < s.dispW ∧ y < s.dispH then .next (fbWrite s x y c)
  else .fault (.pixelOutsideDisplay x y)

/-- The host installs a stream, which RESET has then not seen (R292, R63). -/
def hostLoad (bytes : List Byte) (s : State) : Host.Outcome State Fault Refusal :=
  if bytes.length < 2 ^ s.addrW then
    .next { s with rom := memOfBytes 0 bytes, romLen := bytes.length, streamSeen := false }
  else .refused .streamTooLong

/-- The idle block takes the host's next input, and the `DONE` pulse is over (R105, R33; log 7, log 8).
With none, or with the sample `00`, it performs no operation. -/
def fetchInput (s : State) : Fetched :=
  match s.inputs with
  | [] => .done (.next { s with done := false })
  | .control rst start :: rest =>
    let t := { s with inputs := rest, done := false }
    match decode .ctrl [rst, start] with
    | .ok i _ => .run i t
    | .error _ => .done (.next t)
  | .writePixel x y c :: rest => .done (hostWrite x y c { s with inputs := rest, done := false })
  | .loadStream bytes :: rest => .done (hostLoad bytes { s with inputs := rest, done := false })

/-- The next fetch. -/
def fetch (s : State) : Fetched :=
  if s.busy then fetchToken s else fetchInput s

/-! ## Laying an opcode-table word where it is fetched next (log 14) -/

/-- Put one bit at stream bit `p`. -/
def putBit (s : State) (p : Nat) (b : Bool) : State :=
  let old := (memRead s.rom (p / 8)).getD (romUnlisted.getD 0)
  let one := (1#8) <<< (7 - p % 8)
  { s with
    rom := memWrite romUnlisted s.rom (p / 8) (if b then old ||| one else old &&& ~~~one)
    romLen := max s.romLen (p / 8 + 1) }

/-- Put a bit string from stream bit `p` on. -/
def putBits : List Bool → (p : Nat) → State → State
  | [], _, s => s
  | b :: bs, p, s => putBits bs (p + 1) (putBit s p b)

/-- The state in which the bits of a context are fetched next: a control sample as the host's next input
(for DECODE_NEXT_FRAME with the machine ready for it, R218), or the bits in the ROM and the controller
where that token is expected. -/
def placeToken (c : Context) (bits : List Bool) (s : State) : State :=
  match c with
  | .ctrl =>
    match bits with
    | [true, start] =>
      { s with busy := false, phase := .idle, inputs := .control true start :: s.inputs }
    | [false, true] =>
      { s with
        busy := false
        phase := .idle
        inputs := .control false true :: s.inputs
        ready := true
        streamSeen := true
        faultRec := none }
    | _ => s
  | .dims => { putBits bits 0 s with busy := true, phase := .idle }
  | .mask => { putBits bits s.cursor s with busy := true, phase := .header, firstFrame := false }
  | .color => { putBits bits s.cursor s with busy := true, phase := .color, gotColor := false }
  | .run => { putBits bits s.cursor s with busy := true, phase := .color, gotColor := true }

/-- An opcode-table word laid where it is fetched next. -/
def placeTableWord (s : State) (nbits w : Nat) : State :=
  match tableToken nbits w with
  | none => s
  | some (c, bits) => placeToken c bits s

end Sys2Proof.Machine
end

