-- ==== Sys2Proof/Machine/Header.lean ====
section
/-! DEFINITION. The header parser: the meanings of DIMS (R156), MASK (R158 to R161) and PAD (R103,
R159). -/

namespace Sys2Proof.Machine

/-- RESET's end, once no fault is raised: chunk size, cursor, `FIRST_FRAME`, outputs (R216, R39). -/
def completeReset (s : State) : State :=
  { s with
    cw := ceilDiv8 s.w
    ch := ceilDiv8 s.h
    cursor := 16
    firstFrame := true
    phase := .idle
    busy := false
    done := false
    ready := true
    streamSeen := true }

/-- DIMS: the dimension registers, F2, F3, and the rest of RESET (R156, R216). -/
def execDims (wb hb : Byte) (s : State) : Host.Outcome State Fault Refusal :=
  if expectsDims s then
    let t := { s with w := wb.toNat, h := hb.toNat }
    if t.w = 0 ∨ t.h = 0 then .next (takeFault (.badDimensions t.w t.h) t)
    else if t.dispW < t.w ∨ t.dispH < t.h then .next (takeFault (.frameExceedsDisplay t.w t.h) t)
    else .next (completeReset t)
  else .refused .outOfContext

/-- MASK: the mask register and the cursor; a zero mask completes the operation with `OK` = 1, another
goes on to the colour (R158, R160, R161). -/
def execMask (m : MaskWord) (s : State) : Host.Outcome State Fault Refusal :=
  if expectsMask s then
    let t := { s with mask := m, cursor := s.cursor + 64 }
    if m = 0 then .next (finish true t) else .next { t with phase := .color, gotColor := false }
  else .refused .outOfContext

/-- PAD: the stream's tail is never read as a token; where the mask is due and only the tail is left, the
bounded read fails, nothing is consumed and the operation completes with `OK` = 0 (R103, R159; log 13). -/
def execPad (_n : Nat) (s : State) : Host.Outcome State Fault Refusal :=
  if expectsMask s then .next (finish false s) else .refused .outOfContext

end Sys2Proof.Machine
end

