-- ==== Sys2Proof/Machine/RunTokens.lean ====
section
/-! DEFINITION. The meanings of the RUN tokens (R142 to R148), one over one shared operation. -/

namespace Sys2Proof.Machine

/-- A RUN token of group `g` with value field `v`: `RUN` is loaded and the scan goes on (R172, R173,
R178). -/
def execRunGroup (g v : Nat) (s : State) : Host.Outcome State Fault Refusal :=
  if expectsRun s then
    if geometryOk s then .next (runScan (loadRun g v s)) else .fault .badGeometry
  else .refused .outOfContext

/-- RUN.G1: run lengths 1..8 (R142). -/
def execRunG1 (v : BitVec 3) (s : State) : Host.Outcome State Fault Refusal :=
  execRunGroup 1 v.toNat s

/-- RUN.G2: run lengths 9..72 (R143). -/
def execRunG2 (v : BitVec 6) (s : State) : Host.Outcome State Fault Refusal :=
  execRunGroup 2 v.toNat s

/-- RUN.G3: run lengths 73..584 (R144). -/
def execRunG3 (v : BitVec 9) (s : State) : Host.Outcome State Fault Refusal :=
  execRunGroup 3 v.toNat s

/-- RUN.G4: run lengths 585..4680 (R145). -/
def execRunG4 (v : BitVec 12) (s : State) : Host.Outcome State Fault Refusal :=
  execRunGroup 4 v.toNat s

/-- RUN.G5: run lengths 4681..37448 (R146). -/
def execRunG5 (v : BitVec 15) (s : State) : Host.Outcome State Fault Refusal :=
  execRunGroup 5 v.toNat s

/-- RUN.G6: run lengths 37449..299592 (R147). -/
def execRunG6 (v : BitVec 18) (s : State) : Host.Outcome State Fault Refusal :=
  execRunGroup 6 v.toNat s

/-- RUN.RSV: the fault `ReservedRunGroup` is taken, with the cursor after the sixth one-bit and no run
length produced (R148). -/
def execRunRsv (s : State) : Host.Outcome State Fault Refusal :=
  if expectsRun s then
    .next (takeFault (.reservedRunGroup (s.cursor + 6))
      { beginRun s with cursor := s.cursor + 6, ones := 6 })
  else .refused .outOfContext

end Sys2Proof.Machine
end

