-- ==== Sys2Proof/Machine/Control.lean ====
section
/-! DEFINITION. The controller: the host operations RESET (R216) and DECODE_NEXT_FRAME (R219), each from
start to completion (R16), over the tokens' own meanings. -/

namespace Sys2Proof.Machine

/-- The meaning of a token; the host operations are no tokens. -/
def execToken (i : Instr) (s : State) : Host.Outcome State Fault Refusal :=
  match i with
  | .dims w h => execDims w h s
  | .mask m => execMask m s
  | .color c => execColor c s
  | .runG1 v => execRunG1 v s
  | .runG2 v => execRunG2 v s
  | .runG3 v => execRunG3 v s
  | .runG4 v => execRunG4 v s
  | .runG5 v => execRunG5 v s
  | .runG6 v => execRunG6 v s
  | .runRsv => execRunRsv s
  | .pad n => execPad n s
  | .reset _ => .refused .reentry
  | .decodeNextFrame => .refused .reentry

/-- One step of an operation in progress: the next token, or an internal step. -/
def busyStep (s : State) : Host.Outcome State Fault Refusal :=
  match fetchToken s with
  | .run i t => execToken i t
  | .done o => o

/-- Steps of the operation in progress until it has ended, at most `n`. -/
def runOperation : (n : Nat) → State → Host.Outcome State Fault Refusal
  | 0, s => .next s
  | n + 1, s =>
    if s.busy then
      match busyStep s with
      | .next t => runOperation n t
      | .fault f => .fault f
      | .refused r => .refused r
    else .next s

/-- Steps enough for any operation: implicit or read mask, colour, first run, one run for every further pixel, and the
three phases of the border step (R304). -/
def operationSteps (s : State) : Nat := s.w * s.h + 8

/-- RESET: the fault record is cleared, the dimension bytes are read, checked and loaded (R216).
Refused while an operation is in progress (R272). -/
def execReset (_start : Bool) (s : State) : Host.Outcome State Fault Refusal :=
  if s.busy then .refused .reentry else busyStep (beginReset s)

/-- DECODE_NEXT_FRAME: steps 1 to 6 of R219, from start to completion. Refused while an operation is in
progress (R272), before a fault-free RESET or after a fault (R271), and after a stream change (U18). Where
several of these hold, the first named here is answered; R268 gives no order: DESIGN CHOICE (log 19). -/
def execDecodeNextFrame (s : State) : Host.Outcome State Fault Refusal :=
  if s.busy then .refused .reentry
  else if !s.ready || s.faultRec.isSome then .refused .notReady
  else if !s.streamSeen then .refused .streamChanged
  else runOperation (operationSteps s) (beginFrame s)

end Sys2Proof.Machine
end

