-- ==== Sys2Proof/Machine/Dispatch.lean ====
section
/-! DEFINITION. One arm per instruction. -/

namespace Sys2Proof.Machine

def exec (i : Instr) (s : State) : Host.Outcome State Fault Refusal :=
  match i with
  | .dims w h => Sys2Proof.Machine.execDims w h s
  | .mask m => Sys2Proof.Machine.execMask m s
  | .color c => Sys2Proof.Machine.execColor c s
  | .runG1 v => Sys2Proof.Machine.execRunG1 v s
  | .runG2 v => Sys2Proof.Machine.execRunG2 v s
  | .runG3 v => Sys2Proof.Machine.execRunG3 v s
  | .runG4 v => Sys2Proof.Machine.execRunG4 v s
  | .runG5 v => Sys2Proof.Machine.execRunG5 v s
  | .runG6 v => Sys2Proof.Machine.execRunG6 v s
  | .runRsv => Sys2Proof.Machine.execRunRsv s
  | .pad n => Sys2Proof.Machine.execPad n s
  | .reset start => Sys2Proof.Machine.execReset start s
  | .decodeNextFrame => Sys2Proof.Machine.execDecodeNextFrame s

end Sys2Proof.Machine
end

