-- ==== Sys2Proof/Machine/Producer.lean ====
section
/-! DEFINITION. The stream's producer, the offline encoder outside the block (R5, R235), as functions: bit
writer (R236, R237), runs of a pixel sequence (R243, R244), and the change detector with its own state
(R245 to R250). The run encoder stands with the decoder (R239). Nothing here is a step of the machine
(log 16); the well-formed stream is defined from it (R253). -/

namespace Sys2Proof.Machine

/-! ## Frames -/

/-- A frame's pixels by column and row (R13). -/
abbrev Frame := Nat → Nat → Bool

/-- The chunk of pixel `p` in the grid of a `w` x `h` frame (R245). -/
def gridChunk (w h : Nat) (p : Nat × Nat) : Nat :=
  p.1 / ceilDiv8 w * Config.grid + p.2 / ceilDiv8 h

/-- The pixels of a `w` x `h` frame whose chunk's bit is set in `m` (R162, R244). -/
def maskedPixels (m : MaskWord) (w h : Nat) : List (Nat × Nat) :=
  (scanOrder w h).filter (fun p => m.getLsbD (gridChunk w h p))

/-! ## Emissions -/

/-- The lengths of the maximal runs of a pixel sequence that goes on from `n` pixels of colour `c`
(R107, R243). -/
def runsFrom (c : Bool) (n : Nat) : List Bool → List Nat
  | [] => [n]
  | b :: bs => if b = c then runsFrom c (n + 1) bs else n :: runsFrom b 1 bs

/-- COLOR and the RUN tokens of a pixel sequence (R107). -/
def pixelBits : List Bool → List Bool
  | [] => []
  | c :: cs => encode (.color c) ++ (runsFrom c 1 cs).flatMap (fun n => encode (encodeRun n))

/-- `FULL(frame)` (R107, R243). -/
def fullBits (w h : Nat) (f : Frame) : List Bool :=
  pixelBits ((scanOrder w h).map (fun p => f p.1 p.2))

/-- `PART(mask, frame)` (R107, R244). -/
def partBits (m : MaskWord) (w h : Nat) (f : Frame) : List Bool :=
  encode (.mask m) ++
    if m = 0 then [] else pixelBits ((maskedPixels m w h).map (fun p => f p.1 p.2))

/-- Bytes from bits, most significant bit first, the last byte filled up with zeros (R236, R237). -/
def packBits (bits : List Bool) : List Byte :=
  (List.range ((bits.length + 7) / 8)).map (fun i =>
    BitVec.ofNat 8 (bitsToNat ((List.range 8).map (fun j => bits.getD (8 * i + j) false))))

/-! ## The change detector -/

/-- The tuned constants, which the encoder takes as parameters (R250, U10). -/
structure Tuning where
  penalty : Nat
  percent : Nat
  deriving DecidableEq, Repr

/-- The source's values: 5 and 8 percent (R248, R249). -/
def sourceTuning : Tuning where
  penalty := Config.debouncePenalty
  percent := Config.changePercent

/-- The detector: its parameters, and its state between frames (R246): the accumulated error of each chunk,
and the committed pixels in scan order. -/
structure Detector where
  tuning : Tuning
  errors : List Nat
  committed : List Bool
  deriving DecidableEq, Repr

/-- The accumulated error of chunk `k`. -/
def chunkTotal (d : Detector) (k : Nat) : Nat := d.errors.getD k 0

/-- The committed bit of pixel `p` of a frame of height `h`. -/
def committedAt (d : Detector) (h : Nat) (p : Nat × Nat) : Bool := d.committed.getD (p.1 * h + p.2) false

/-- After the first frame: that frame committed, every counter 0 (R246). -/
def startDetector (c : Tuning) (w h : Nat) (f : Frame) : Detector where
  tuning := c
  errors := List.replicate Config.maskBits 0
  committed := (scanOrder w h).map (fun p => f p.1 p.2)

/-- The pixels inside chunk `k`, clipped to the frame (R245). Their number is `chunk_area`: that it is the
clipped and not the nominal one is R245's own derivation, and U12 leaves it to the encoder: DEDUCED
(log 16). -/
def chunkPixels (w h k : Nat) : List (Nat × Nat) :=
  (scanOrder w h).filter (fun p => gridChunk w h p == k)

/-- `chunk_error`: the pixels that differ from the committed snapshot (R247). -/
def chunkError (d : Detector) (w h : Nat) (f : Frame) (k : Nat) : Nat :=
  (chunkPixels w h k).countP (fun p => f p.1 p.2 != committedAt d h p)

/-- Every pixel of the chunk holds the same colour in the new frame (R248; that the new frame is meant, as
N29 reads it too, is DEDUCED: log 16). -/
def chunkUniform (w h : Nat) (f : Frame) (k : Nat) : Bool :=
  (chunkPixels w h k).all (fun p => f p.1 p.2) || (chunkPixels w h k).all (fun p => !f p.1 p.2)

/-- The accumulated error with this frame's error and, for a uniform chunk with some error, the penalty
(R247, R248). The penalty counts in the same frame's comparison: the list order suggests it, the source does
not say so (N29): DEDUCED (log 16). -/
def newTotal (d : Detector) (w h : Nat) (f : Frame) (k : Nat) : Nat :=
  let a := chunkTotal d k + chunkError d w h f k
  if chunkUniform w h f k && decide (0 < a) then a + d.tuning.penalty else a

/-- The trigger of R249. On whole numbers the integer quotient and the exact one give the same test, so
that nothing rests on which is meant (N19); the area is the clipped one (U12, log 16). -/
def triggered (d : Detector) (w h : Nat) (f : Frame) (k : Nat) : Bool :=
  decide ((chunkPixels w h k).length * d.tuning.percent / 100 < newTotal d w h f k)

/-- The frame's change mask, bit `k` for chunk `k` (R249). -/
def detectMask (d : Detector) (w h : Nat) (f : Frame) : MaskWord :=
  BitVec.ofNat 64
    (bitsToNat ((List.range Config.maskBits).map (fun i => triggered d w h f (Config.maskBits - 1 - i))))

/-- The detector after the frame: triggered chunks have their counter cleared and their pixels committed,
the others only accumulate (R247 to R249). -/
def detect (d : Detector) (w h : Nat) (f : Frame) : Detector where
  tuning := d.tuning
  errors := (List.range Config.maskBits).map
    (fun k => if triggered d w h f k then 0 else newTotal d w h f k)
  committed := (scanOrder w h).map
    (fun p => if triggered d w h f (gridChunk w h p) then f p.1 p.2 else committedAt d h p)

/-! ## The stream -/

/-- The masks the detector chooses for the frames after the first, in order. -/
def detectAll (d : Detector) (w h : Nat) : List Frame → List (MaskWord × Frame)
  | [] => []
  | f :: fs => (detectMask d w h f, f) :: detectAll (detect d w h f) w h fs

/-- The emissions of the frames after the first, each with its mask (R244). -/
def laterBits (w h : Nat) (later : List (MaskWord × Frame)) : List Bool :=
  later.flatMap (fun p => partBits p.1 w h p.2)

/-- The stream of a first frame and later frames with given masks (R242 to R244, R253). -/
def streamBytes (w h : Byte) (first : Frame) (later : List (MaskWord × Frame)) : List Byte :=
  packBits (encode (.dims w h) ++ fullBits w.toNat h.toNat first ++ laterBits w.toNat h.toNat later)

/-- The encoder: the stream of a video, or nothing for a video without frames (R235, R252). -/
def produce (c : Tuning) (w h : Byte) : List Frame → Option (List Byte)
  | [] => none
  | f :: fs =>
    some (streamBytes w h f (detectAll (startDetector c w.toNat h.toNat f) w.toNat h.toNat fs))

end Sys2Proof.Machine
end

