-- ==== Sys2Proof/Safety.lean ====
section
/-! DEFINITION. What counts as a safe run: the launch premises of R297, the invariants of the machine, and
the well-formed stream (R253) by the emissions of its producer. -/

namespace Sys2Proof

open Machine

/-! ## Launch premises -/

/-- DECODE_NEXT_FRAME may be asked for: R218, and the stream is the one RESET saw (R297). -/
def ReadyToDecode (s : State) : Prop :=
  s.busy = false ∧ s.ready = true ∧ s.faultRec = none ∧ s.streamSeen = true

/-! ## Invariants -/

/-- Without a recorded fault the frame fits the display and the chunk size is its eighth, rounded up
(R8, R266). -/
def GeometryInv (s : State) : Prop :=
  s.faultRec = none → geometryOk s = true

/-- Every register fits the width the spec gives it (R24, R25, R28 to R31); `W` and `H` also while a
fault is recorded. -/
structure WidthInv (s : State) : Prop where
  w : s.w ≤ 255
  h : s.h ≤ 255
  cw : s.cw ≤ 32
  ch : s.ch ≤ 32
  run : s.run ≤ Config.runMax
  ones : s.ones < 2 ^ 3
  value : s.value < 2 ^ 18
  x : s.x < 2 ^ 8
  y : s.y ≤ 286
  el1 : s.el1 ≤ 255
  el0 : s.el0 ≤ 255
  er1 : s.er1 ≤ 255
  er0 : s.er0 ≤ 255

/-- The cursor never passes the end of the stream RESET saw (R22). -/
def CursorInv (s : State) : Prop :=
  s.streamSeen = true → s.cursor ≤ 8 * s.romLen

/-- Between operations the controller is in IDLE, `DONE` is 0 while one is in progress, and the
colour-read mark stands in phase COLOR only (R32, R33, R221). -/
structure SequenceInv (s : State) : Prop where
  idle : s.busy = false → s.phase = .idle
  pulse : s.busy = true → s.done = false
  mark : s.gotColor = true → s.phase = .color

/-- Inside a band of the scan the chunk is a changed one: skipped bands are left whole (R175). -/
def BandInv (s : State) : Prop :=
  s.phase = .scan → s.x < s.w → s.y < s.h → s.y % s.ch ≠ 0 → changed s s.x s.y = true

/-- `FB_LAYOUT` is a layout: every display pixel lies in one of a byte's eight bits, and no two in the
same (R68). -/
structure LayoutOk (s : State) : Prop where
  bit : ∀ x y, x < s.dispW → y < s.dispH → (pixelPlace s x y).2 < 8
  apart : ∀ x y x' y', x < s.dispW → y < s.dispH → x' < s.dispW → y' < s.dispH →
    pixelPlace s x y = pixelPlace s x' y' → x = x' ∧ y = y'

/-! ## The pixels of a frame in scan order -/

/-- The decoded pixel sequence `S` of the frame in progress (R176). -/
def decodedPixels (s : State) : List (Nat × Nat) :=
  (scanOrder s.w s.h).filter (fun p => changed s p.1 p.2)

/-- The part of `S` from the scan's position `X`, `Y` on. -/
def duePixels (s : State) : List (Nat × Nat) :=
  (decodedPixels s).filter (fun p => decide (s.x < p.1) || (decide (p.1 = s.x) && decide (s.y ≤ p.2)))

/-- Write the frame pixels `ps` in colour `c`, one after another (R180). -/
def paintAll (s : State) (ps : List (Nat × Nat)) (c : Bool) : State :=
  ps.foldl (fun t p => fbWrite t (offX s + p.1) (offY s + p.2) c) s

/-! ## The well-formed stream -/

/-- No bit of the mask stands for a chunk without pixels (R249, R253). -/
def MaskOccupied (m : MaskWord) (w h : Nat) : Prop :=
  ∀ k, m.getLsbD k = true → k / Config.grid * ceilDiv8 w < w ∧ k % Config.grid * ceilDiv8 h < h

/-- The byte sequence is a well-formed stream for this display (R253). -/
def WellFormedStream (dispW dispH : Nat) (bytes : List Byte) : Prop :=
  ∃ (w h : Byte) (first : Frame) (later : List (MaskWord × Frame)),
    WellFormed (.dims w h) ∧ w.toNat ≤ dispW ∧ h.toNat ≤ dispH ∧
    (∀ p ∈ later, MaskOccupied p.1 w.toNat h.toNat) ∧
    bytes = streamBytes w h first later

end Sys2Proof
end

