-- ==== Sys2Proof/Certificates/Slice0/Obligations.lean ====
section
/-! DEFINITION. The statements for the provers. Each docstring names the rules of spec/ it formalises. -/

open Sys2Proof Sys2Proof.Machine

/-! ## Decoding, encoding and fetching -/

/-- A step runs the decoded instruction (R92, R105). Busy: the token decoded from the stream bits where it
stands, in the state as it is. Idle: the operation the control sample asks for, in the state with the
sample taken and the `DONE` pulse over (log 7, log 8). -/
def Obligations.StepRunsDecodedInstruction : Prop :=
  (∀ s c i rest, s.busy = true → tokenContext s = some c → decode c (tokenWindow c s) = .ok i rest →
    step s = exec i s) ∧
  (∀ s rst start q i rest, s.busy = false → s.inputs = .control rst start :: q →
    decode .ctrl [rst, start] = .ok i rest →
    step s = exec i { s with inputs := q, done := false })

/-- A busy block reads the token its own state expects, from the bits at the token's place: DIMS at stream
bit 0, every other at the cursor (R22, R62, R92; how the state says which is log 6). -/
def Obligations.BusyBlockReadsExpectedToken : Prop :=
  ∀ s i, s.busy = true →
    (∀ rest, s.phase = .idle → decode .dims (streamBits s 0 16) = .ok i rest → step s = exec i s) ∧
    (∀ rest, s.phase = .header → s.firstFrame = false → decode .mask (streamBits s s.cursor 64) = .ok i rest →
      step s = exec i s) ∧
    (∀ rest, s.phase = .color → s.gotColor = false →
      decode .color (streamBits s s.cursor 1) = .ok i rest → step s = exec i s) ∧
    (∀ rest, s.phase = .color → s.gotColor = true →
      decode .run (streamBits s s.cursor 24) = .ok i rest → step s = exec i s) ∧
    (∀ rest, s.phase = .scan → s.x < s.w → s.y < s.h → s.run = 0 →
      (s.y % s.ch = 0 → changed s s.x s.y = true) →
      decode .run (streamBits s s.cursor 24) = .ok i rest → step s = exec i s)

/-- Words written out from the tables of R90, R97 and the vectors of 95_test_vectors decode to what they
stand for. -/
def Obligations.SampleWordsDecode : Prop :=
  decodeBytes .dims [0x0F#8, 0x08#8] = .ok (.dims 15 8) [] ∧
  decode .run [false, true, false, true] = .ok (.runG1 5) [] ∧
  decode .run [true, false, false, false, false, true, true, true] = .ok (.runG2 7) [] ∧
  decodeBytes .run [0xC1#8, 0x7F#8] = .ok (.runG3 23) [true, true, true, true] ∧
  decodeBytes .run [0xE0#8, 0x0F#8] = .ok (.runG4 15) [] ∧
  decodeBytes .run [0xF8#8, 0x6B#8, 0xB8#8] = .ok (.runG6 27576) [] ∧
  decodeBytes .run [0xFE#8] = .ok .runRsv [true, false] ∧
  decodeBytes .mask [0, 0, 0, 0, 3, 3, 0, 0] = .ok (.mask 0x0000000003030000#64) []

/-- Decode and encode agree: every instruction, with every value of every operand, is read back from its
own bits and no bit after it is touched (R90, R97, R105). The clause for the stream's tail is the model's
reading (log 13): where the mask is due, fewer than 64 bits are answered as PAD of that length, also 8 to 63
of them, though R103 has the tail never read as a token. -/
def Obligations.DecodeEncodeAgree : Prop :=
  (∀ i rest, (∀ n, i ≠ .pad n) → decode i.context (encode i ++ rest) = .ok i rest) ∧
  (∀ n, n < 64 → decode .mask (encode (.pad n)) = .ok (.pad n) [])

/-- Where the decoder reads a token other than the tail, the token's encoding is exactly the bits read:
each bit pattern has one meaning (R97, R98). -/
def Obligations.DecodedBitsAreTheEncoding : Prop :=
  ∀ c bits i rest, decode c bits = .ok i rest → (∀ n, i ≠ .pad n) →
    bits = encode i ++ rest

/-- Round trip of the run code (R149). -/
def Obligations.RunLengthRoundTrip : Prop :=
  ∀ n rest, 1 ≤ n → n ≤ Config.runMax →
    ∃ g v, 1 ≤ g ∧ g ≤ 6 ∧ v < 2 ^ (3 * g) ∧ runLength g v = n ∧
      decode .run (encode (encodeRun n) ++ rest) = .ok (runToken g v) rest

/-- The run code is a bijection (R98): every RUN token carries a length in 1..RUN_MAX, and every such
length is carried by exactly one token. -/
def Obligations.RunCodeIsBijective : Prop :=
  (∀ g v, 1 ≤ g → g ≤ 6 → v < 2 ^ (3 * g) → 1 ≤ runLength g v ∧ runLength g v ≤ Config.runMax) ∧
  (∀ n, 1 ≤ n → n ≤ Config.runMax →
    ∃! p : Nat × Nat, 1 ≤ p.1 ∧ p.1 ≤ 6 ∧ p.2 < 2 ^ (3 * p.1) ∧ runLength p.1 p.2 = n)

/-- The decoder on the window of 24 bits does what the bit-serial procedure DECODE_RUN does: same run
length, `ONES`, `VALUE`, cursor, and the same fault at the same cursor (R135). -/
def Obligations.BitSerialRunDecoderAgrees : Prop :=
  ∀ s,
    (∀ g v rest, 1 ≤ g → g ≤ 6 → v < 2 ^ (3 * g) →
      decode .run (streamBits s s.cursor 24) = .ok (runToken g v) rest →
      decodeRunProc s =
        (.inr (runLength g v),
          { s with cursor := s.cursor + 4 * g, ones := g - 1, value := v })) ∧
    (∀ rest, decode .run (streamBits s s.cursor 24) = .ok .runRsv rest →
      decodeRunProc s =
        (.inl (.reservedRunGroup (s.cursor + 6)), { s with cursor := s.cursor + 6, ones := 6 })) ∧
    (∀ consumed ones,
      decode .run (streamBits s s.cursor 24) = .error (.overrun consumed ones) →
      decodeRunProc s =
        (.inl (.streamOverrun (s.cursor + consumed)),
          { s with cursor := s.cursor + consumed, ones := ones }))

/-! ## The bit reader and the memories -/

/-- RDBIT: the bit at `P` and the cursor one further, or the end of the ROM and the cursor where it was
(R121). -/
def Obligations.ReadBitAdvancesCursor : Prop :=
  ∀ s,
    (8 * s.romLen ≤ s.cursor → rdBit s = (none, s)) ∧
    (s.cursor < 8 * s.romLen → ∃ b, romRead s (bytePos s) = some b ∧
      rdBit s = (some (b.getLsbD (7 - bitPos s)), { s with cursor := s.cursor + 1 }))

/-- RDBITS(n): the first bit is the most significant; `n` bits are consumed, and where the ROM ends
earlier the bits before its end are (R122). -/
def Obligations.ReadFieldIsMsbFirst : Prop :=
  ∀ s n, s.cursor ≤ 8 * s.romLen →
    (s.cursor + n ≤ 8 * s.romLen →
      rdBits n 0 s = (some (bitsToNat (streamBits s s.cursor n)), { s with cursor := s.cursor + n })) ∧
    (8 * s.romLen < s.cursor + n → rdBits n 0 s = (none, { s with cursor := 8 * s.romLen }))

/-- Bit order: packing a bit string into bytes and loading it gives the same bits back at the same stream
positions, with zeros up to the end of the last byte and nothing after it (R70, R236, R237). -/
def Obligations.LoadedStreamKeepsBitOrder : Prop :=
  ∀ s t bits, hostLoad (packBits bits) s = .next t →
    t.romLen = (bits.length + 7) / 8 ∧
    (∀ p, p < bits.length → romBit t p = bits[p]?) ∧
    (∀ p, bits.length ≤ p → p < 8 * t.romLen → romBit t p = some false) ∧
    (∀ p, 8 * t.romLen ≤ p → romBit t p = none)

/-- FbWrite sets one pixel and changes no other (R66). -/
def Obligations.PixelWriteChangesOnePixel : Prop :=
  ∀ s x y c, x < s.dispW → y < s.dispH →
    fbRead (fbWrite s x y c) x y = c ∧
    ∀ x' y', x' < s.dispW → y' < s.dispH → ¬ (x' = x ∧ y' = y) →
      fbRead (fbWrite s x y c) x' y' = fbRead s x' y'

/-- A pixel write keeps the pixels that share its byte (R68, R205), in every layout of `FB_LAYOUT` that puts
no two pixels in one place; the default is one of them, with the places R68 gives. What the bits without a
pixel hold is not stated (log 15). -/
def Obligations.PackedWriteKeepsNeighbours : Prop :=
  (∀ s, s.fbLayout = .rowMajor → LayoutOk s ∧
    ∀ x y, pixelPlace s x y = (y * ((s.dispW + 7) / 8) + x / 8, 7 - x % 8)) ∧
  (∀ s x y c, LayoutOk s → x < s.dispW → y < s.dispH →
    ∀ x' y', x' < s.dispW → y' < s.dispH →
      (physByte (fbWrite s x y c) (pixelPlace s x' y').1).getLsbD (pixelPlace s x' y').2 =
        if x' = x ∧ y' = y then c
        else (physByte s (pixelPlace s x' y').1).getLsbD (pixelPlace s x' y').2)

/-- A host write between operations is an ordinary memory write (R225, D15): the pixel, and beside it only
the input taken and the `DONE` pulse over (log 8). That a write outside the display stops with
`pixelOutsideDisplay` is the model's choice (log 7). -/
def Obligations.HostPixelWriteCompletes : Prop :=
  ∀ s x y c q, s.busy = false → s.inputs = .writePixel x y c :: q →
    (x < s.dispW ∧ y < s.dispH →
      step s = .next { fbWrite s x y c with inputs := q, done := false }) ∧
    (¬ (x < s.dispW ∧ y < s.dispH) → step s = .fault (.pixelOutsideDisplay x y))

/-! ## RESET and DIMS -/

/-- What the state after reset holds: the values of R39 that do not come from a ROM. -/
def Obligations.ResetStateValues : Prop :=
  State.reset.cursor = 16 ∧ bytePos State.reset = 2 ∧ bitPos State.reset = 0 ∧
  State.reset.firstFrame = true ∧ State.reset.phase = .idle ∧ State.reset.busy = false ∧
  State.reset.done = false ∧ State.reset.faultRec = none

/-- After a RESET that raises no fault the registers hold the values of R39, and the framebuffer whatever
it held. -/
def Obligations.ResetLoadsDimensions : Prop :=
  ∀ s b (w h : Byte), s.busy = false → romRead s 0 = some w → romRead s 1 = some h →
    w ≠ 0 → h ≠ 0 → w.toNat ≤ s.dispW → h.toNat ≤ s.dispH →
    ∃ t, exec (.reset b) s = .next t ∧
      bytePos t = 2 ∧ bitPos t = 0 ∧ t.cursor = 16 ∧ t.firstFrame = true ∧
      t.w = w.toNat ∧ t.h = h.toNat ∧ t.cw = (w.toNat + 7) / 8 ∧ t.ch = (h.toNat + 7) / 8 ∧
      t.phase = .idle ∧ t.busy = false ∧ t.done = false ∧ t.faultRec = none ∧
      ∀ x y, fbRead t x y = fbRead s x y

/-- The frame of a RESET that raises no fault: every field it does not load is as before. `OK` and the draw
counter are not stated (free value, log 5); that the working registers stay rests on R40 and log 4;
`ready` and `streamSeen` are the model's records of R218 and R297, `gotColor` the mark of log 6. -/
def Obligations.ResetFrame : Prop :=
  ∀ s b (w h : Byte), s.busy = false → romRead s 0 = some w → romRead s 1 = some h →
    w ≠ 0 → h ≠ 0 → w.toNat ≤ s.dispW → h.toNat ≤ s.dispH →
    ∃ okv d, exec (.reset b) s = .next { s with
      w := w.toNat
      h := h.toNat
      cw := (w.toNat + 7) / 8
      ch := (h.toNat + 7) / 8
      cursor := 16
      firstFrame := true
      phase := .idle
      busy := false
      done := false
      faultRec := none
      gotColor := false
      ready := true
      streamSeen := true
      ok := okv
      draws := d }

/-- RESET raises F1, F2, F3 in that order of priority, records what the spec says (R263,
R265, R266); beside the record it changes `OK` (a free value: D27, log 5), `DONE`, PHASE, the mark of log 6
and, for F2 and F3, `W` and `H`. That the block is idle again and that F2 and F3 leave the bytes in `W` and
`H` is the model's choice of log 12, that `DONE` is then 0 the one of log 8 (R216 sets it only without a
fault), that the working registers stay the one of log 4. -/
def Obligations.ResetFaultsInOrder : Prop :=
  ∀ s b, s.busy = false → ∃ okv d,
    (s.romLen < 2 → exec (.reset b) s = .next { s with
      faultRec := some (.romTooShort s.romLen)
      phase := .idle
      done := false
      gotColor := false
      ok := okv
      draws := d }) ∧
    (∀ w h : Byte, romRead s 0 = some w → romRead s 1 = some h →
      ((w = 0 ∨ h = 0) → exec (.reset b) s = .next { s with
        w := w.toNat
        h := h.toNat
        faultRec := some (.badDimensions w.toNat h.toNat)
        phase := .idle
        done := false
        gotColor := false
        ok := okv
        draws := d }) ∧
      (w ≠ 0 → h ≠ 0 → s.dispW < w.toNat ∨ s.dispH < h.toNat → exec (.reset b) s = .next { s with
        w := w.toNat
        h := h.toNat
        faultRec := some (.frameExceedsDisplay w.toNat h.toNat)
        phase := .idle
        done := false
        gotColor := false
        ok := okv
        draws := d }))

/-- DIMS in a RESET in progress (R156, R216): both dimension registers, the chunk size, the cursor at
stream bit 16; no pixel and no stream byte changes. That BUSY = 1 with PHASE IDLE is a RESET in progress is
log 6; its first action has already left `OK` free (log 5); that the working registers stay is log 4. -/
def Obligations.DimsTokenCompletes : Prop :=
  ∀ s (w h : Byte), s.busy = true → s.phase = .idle →
    w ≠ 0 → h ≠ 0 → w.toNat ≤ s.dispW → h.toNat ≤ s.dispH →
    exec (.dims w h) s = .next { s with
      w := w.toNat
      h := h.toNat
      cw := (w.toNat + 7) / 8
      ch := (h.toNat + 7) / 8
      cursor := 16
      firstFrame := true
      phase := .idle
      busy := false
      done := false
      ready := true
      streamSeen := true }

/-- DIMS in a RESET in progress, with bytes it must not hold (R265, R266): F2 before F3, the operation ended
with the fault recorded; beside `W` and `H` no register, pixel or stream byte changes but the mark of log 6.
That the block is idle again, with the bytes in `W` and `H`, is log 12; that the working registers stay is
log 4; that BUSY = 1 with PHASE IDLE is a RESET in progress is log 6. -/
def Obligations.DimsTokenFaults : Prop :=
  ∀ s (w h : Byte), s.busy = true → s.phase = .idle → s.faultRec = none →
    ((w = 0 ∨ h = 0) → exec (.dims w h) s = .next { s with
      w := w.toNat
      h := h.toNat
      faultRec := some (.badDimensions w.toNat h.toNat)
      busy := false
      gotColor := false }) ∧
    (w ≠ 0 → h ≠ 0 → s.dispW < w.toNat ∨ s.dispH < h.toNat → exec (.dims w h) s = .next { s with
      w := w.toNat
      h := h.toNat
      faultRec := some (.frameExceedsDisplay w.toNat h.toNat)
      busy := false
      gotColor := false })

/-! ## The header parser -/

/-- MASK and PAD where the mask is due (HEADER of a later frame): a zero mask completes with `OK` = 1,
another goes on to the colour, the stream's tail completes with `OK` = 0 (log 13); nothing else changes
(R158 to R161) but the mark of log 6; that registers keep their values after a completion is log 18, that
`DONE` is then 1 is log 8. -/
def Obligations.HeaderTokensComplete : Prop :=
  ∀ s, s.busy = true → s.phase = .header → s.firstFrame = false →
    exec (.mask 0) s = .next { s with
      mask := 0
      cursor := s.cursor + 64
      ok := true
      busy := false
      done := true
      phase := .idle
      gotColor := false } ∧
    (∀ m, m ≠ 0 → exec (.mask m) s = .next { s with
      mask := m
      cursor := s.cursor + 64
      phase := .color
      gotColor := false }) ∧
    (∀ n, exec (.pad n) s = .next { s with
      ok := false
      busy := false
      done := true
      phase := .idle
      gotColor := false })

/-- The header step of a later frame follows the bounded read of 64 bits (R158): a failing read completes
with `OK` = 0 and the cursor kept, a zero mask with `OK` = 1, another goes on (R159 to R161). That MASK
outlasts the operation where it ends here is the model's choice (log 18). -/
def Obligations.HeaderStepFollowsBoundedRead : Prop :=
  ∀ s, s.busy = true → s.phase = .header → s.firstFrame = false →
    (rdBitsBounded s).2.cursor = (if 8 * s.romLen - s.cursor < 64 then s.cursor else s.cursor + 64) ∧
    ((rdBitsBounded s).1 = none ↔ 8 * s.romLen - s.cursor < 64) ∧
    ∃ t, step s = .next t ∧ t.cursor = (rdBitsBounded s).2.cursor ∧
      match (rdBitsBounded s).1 with
      | none => t.mask = s.mask ∧ t.busy = false ∧ t.ok = false
      | some v => t.mask = v ∧
          (v = 0 → t.busy = false ∧ t.ok = true) ∧ (v ≠ 0 → t.busy = true ∧ t.phase = .color)

/-- The mask's first bit on the wire is chunk 63, its last is chunk 0 (R95). -/
def Obligations.MaskBitsAreMsbFirst : Prop :=
  ∀ bits : List Bool, bits.length = 64 →
    ∃ m, decode .mask bits = .ok (.mask m) [] ∧ ∀ k, k < 64 → bits[63 - k]? = some (m.getLsbD k)

/-! ## Colour and runs -/

/-- COLOR (R171): the register, one bit of cursor, and nothing else but the mark that the first RUN is
due (log 6). At the end of the ROM `StreamOverrun` is recorded, nothing is consumed, and the operation ends
(log 12). -/
def Obligations.ColorTokenReadsOneBit : Prop :=
  ∀ s, s.busy = true → s.phase = .color → s.gotColor = false →
    (∀ c, exec (.color c) s = .next { s with color := c, cursor := s.cursor + 1, gotColor := true }) ∧
    (∀ c, romBit s s.cursor = some c → step s = exec (.color c) s) ∧
    (romBit s s.cursor = none → s.faultRec = none → ∃ t, step s = .next t ∧
      t.faultRec = some (.streamOverrun s.cursor) ∧ t.cursor = s.cursor ∧ t.busy = false)

/-- A RUN token of group `g`, pattern prefix then `v`, is expected in `s`: its instruction `i` loads `RUN`
with `n` and goes on with the scan. -/
def runTokenLoads (i : Instr) (g v n : Nat) (s : State) : Prop :=
  encode i = List.replicate (g - 1) true ++ false :: natToBits (3 * g) v ∧
  exec i s = .next (runScan { s with
    color := if s.phase = .scan then !s.color else s.color
    cursor := s.cursor + 4 * g
    ones := g - 1
    value := v
    run := n
    x := if s.phase = .scan then s.x else 0
    y := if s.phase = .scan then s.y else 0
    phase := .scan
    gotColor := false })

/-- The six RUN tokens where one is expected (first run, or `RUN` = 0 and a pixel due): the run lengths of
R142 to R147, `ONES` and `VALUE`, the cursor by the token's length, the colour inverted except before the
first run (R172, R178; the mark of the first run is log 6), then the scan (R173), whose
`X` and `Y` once it has ended are log 18. -/
def Obligations.RunTokensComplete : Prop :=
  ∀ s, s.busy = true → geometryOk s = true →
    (s.phase = .color ∧ s.gotColor = true) ∨
      (s.phase = .scan ∧ s.x < s.w ∧ s.y < s.h ∧ s.run = 0 ∧
        (s.y % s.ch = 0 → changed s s.x s.y = true)) →
    (∀ v : BitVec 3, runTokenLoads (.runG1 v) 1 v.toNat (v.toNat + 1) s) ∧
    (∀ v : BitVec 6, runTokenLoads (.runG2 v) 2 v.toNat (v.toNat + 9) s) ∧
    (∀ v : BitVec 9, runTokenLoads (.runG3 v) 3 v.toNat (v.toNat + 73) s) ∧
    (∀ v : BitVec 12, runTokenLoads (.runG4 v) 4 v.toNat (v.toNat + 585) s) ∧
    (∀ v : BitVec 15, runTokenLoads (.runG5 v) 5 v.toNat (v.toNat + 4681) s) ∧
    (∀ v : BitVec 18, runTokenLoads (.runG6 v) 6 v.toNat (v.toNat + 37449) s)

/-- The reserved prefix (R148): `ReservedRunGroup` with the cursor just after the sixth one-bit, no run
length produced, the operation ended; beside `ONES`, and the colour a later run inverts before it is read
(R178), only the framebuffer changes, whose pixels are then arbitrary (R262). That the
operation ends with the block idle and without `DONE` is the model's choice of log 12 (the mark is log 6),
that every other working register outlasts it the one of log 18. -/
def Obligations.ReservedPrefixRaisesFault : Prop :=
  ∀ s, s.busy = true → s.faultRec = none →
    (s.phase = .color ∧ s.gotColor = true) ∨
      (s.phase = .scan ∧ s.x < s.w ∧ s.y < s.h ∧ s.run = 0 ∧
        (s.y % s.ch = 0 → changed s s.x s.y = true)) →
    ∃ t d, exec .runRsv s = .next t ∧
      t = { s with
        faultRec := some (.reservedRunGroup (s.cursor + 6))
        cursor := s.cursor + 6
        color := if s.phase = .scan then !s.color else s.color
        ones := 6
        busy := false
        phase := .idle
        gotColor := false
        fb := t.fb
        draws := d
        fbDraw := d } ∧
      (∀ x y, fbRead t x y = Config.freePixel d x y) ∧
      (streamBits s s.cursor 6 = List.replicate 6 true → step s = .next t)

/-- The ROM ends inside a RUN token (R264): `StreamOverrun` at the end of the ROM, all bits before it
consumed, the reading of the end itself not; the operation ends (log 12), and `RUN`
outlasts it (log 18). -/
def Obligations.OverrunInRunStopsAtRomEnd : Prop :=
  ∀ s consumed ones, s.busy = true → s.faultRec = none → s.cursor ≤ 8 * s.romLen →
    (s.phase = .color ∧ s.gotColor = true) ∨
      (s.phase = .scan ∧ s.x < s.w ∧ s.y < s.h ∧ s.run = 0 ∧
        (s.y % s.ch = 0 → changed s s.x s.y = true)) →
    decode .run (streamBits s s.cursor 24) = .error (.overrun consumed ones) →
    ∃ t, step s = .next t ∧ t.cursor = 8 * s.romLen ∧
      t.faultRec = some (.streamOverrun (8 * s.romLen)) ∧ t.busy = false ∧ t.run = s.run

/-! ## The scan -/

/-- What the scan does with the current run (R176, R178, R179): it paints, in scan order, exactly the next
`RUN` pixels of the decoded sequence that are due, in the current colour; it then stands at the next due
pixel with `RUN` = 0, or, if the run covers all that are left, it is finished. -/
def Obligations.ScanPaintsDuePixels : Prop :=
  ∀ s, s.phase = .scan → geometryOk s = true → BandInv s →
    (runScan s).fb = (paintAll s ((duePixels s).take s.run) s.color).fb ∧
    ((duePixels s).length ≤ s.run →
      (runScan s).phase = .sample ∧ (runScan s).run = s.run - (duePixels s).length) ∧
    (s.run < (duePixels s).length →
      (runScan s).phase = .scan ∧ (runScan s).run = 0 ∧
      duePixels (runScan s) = (duePixels s).drop s.run ∧
      (duePixels s)[s.run]? = some ((runScan s).x, (runScan s).y))

/-- The frame of the RUN tokens: a next state differs from the one before only in `COLOR`, `RUN`, `ONES`,
`VALUE`, `X`, `Y`, the phase and the mark of log 6, in the cursor by the token's length, and in the window
pixels the run covers. -/
def Obligations.RunTokenFrame : Prop :=
  ∀ g v s t, execRunGroup g v s = .next t → BandInv s →
    t = { s with
      fb := t.fb
      color := t.color
      run := t.run
      ones := g - 1
      value := v
      x := t.x
      y := t.y
      phase := t.phase
      gotColor := false
      cursor := s.cursor + 4 * g } ∧
    ∀ x y, x < s.dispW → y < s.dispH →
      (∀ p ∈ (duePixels (loadRun g v s)).take (runLength g v),
        ¬ (x = offX s + p.1 ∧ y = offY s + p.2)) →
      fbRead t x y = fbRead s x y

/-! ## The border step -/

/-- Sampling (R197): the counts of set and unset pixels of the frame's own first and last column over the
frame's rows, adding up to `H`. The thresholds then decide what follows (R199, R221): FILL_L; else FILL_R;
and where neither is met completion with `OK` = 1 (R219). No pixel and no other register changes (the mark
of log 6 is left open; that the counts outlast the completion is log 18, that `DONE` is then 1
log 8). -/
def Obligations.SampleCountsEdges : Prop :=
  ∀ s, s.busy = true → s.phase = .sample → geometryOk s = true → ∃ t, step s = .next t ∧
    t.el1 = ((List.range s.h).filter (fun y => fbRead s (offX s) (offY s + y))).length ∧
    t.er1 = ((List.range s.h).filter (fun y => fbRead s (offX s + s.w - 1) (offY s + y))).length ∧
    t.el1 + t.el0 = s.h ∧ t.er1 + t.er0 = s.h ∧
    (10 ≤ |(t.el1 : Int) - t.el0| → t.phase = .fillL ∧ t.busy = true ∧ t.ok = s.ok ∧ t.done = s.done) ∧
    (|(t.el1 : Int) - t.el0| < 10 → 10 ≤ |(t.er1 : Int) - t.er0| →
      t.phase = .fillR ∧ t.busy = true ∧ t.ok = s.ok ∧ t.done = s.done) ∧
    (|(t.el1 : Int) - t.el0| < 10 → |(t.er1 : Int) - t.er0| < 10 →
      t.phase = .idle ∧ t.ok = true ∧ t.busy = false ∧ t.done = true) ∧
    t = { s with
      el1 := t.el1
      el0 := t.el0
      er1 := t.er1
      er0 := t.er0
      phase := t.phase
      ok := t.ok
      busy := t.busy
      done := t.done
      gotColor := t.gotColor }

/-- Left fill (R200, R207): every display row of the columns left of the frame, in the majority colour of
the left edge; no other pixel. The right side is then decided for itself (R203): FILL_R exactly when its
threshold is met (R199, R221), else completion with `OK` = 1 (R219). No other register changes (the mark of
log 6 is left open; that the working registers outlast a completion is log 18, that `DONE` is then 1 log 8). -/
def Obligations.LeftFillPaintsLeftMargin : Prop :=
  ∀ s, s.busy = true → s.phase = .fillL → geometryOk s = true → ∃ t, step s = .next t ∧
    (∀ x y, x < s.dispW → y < s.dispH →
      fbRead t x y = if x < offX s then decide (s.el0 < s.el1) else fbRead s x y) ∧
    (10 ≤ |(s.er1 : Int) - s.er0| → t.phase = .fillR ∧ t.busy = true ∧ t.ok = s.ok ∧ t.done = s.done) ∧
    (|(s.er1 : Int) - s.er0| < 10 → t.phase = .idle ∧ t.ok = true ∧ t.busy = false ∧ t.done = true) ∧
    t = { s with
      fb := t.fb
      phase := t.phase
      ok := t.ok
      busy := t.busy
      done := t.done
      gotColor := t.gotColor }

/-- Right fill (R202): every display row of the columns right of the frame, in the majority colour of the
right edge; no other pixel; the operation completes with `OK` = 1, and no other register changes (the mark
of log 6 is left open; that the working registers outlast the completion is log 18, that `DONE` is then 1
log 8). -/
def Obligations.RightFillPaintsRightMargin : Prop :=
  ∀ s, s.busy = true → s.phase = .fillR → geometryOk s = true → ∃ t, step s = .next t ∧
    (∀ x y, x < s.dispW → y < s.dispH →
      fbRead t x y = if offX s + s.w ≤ x then decide (s.er0 < s.er1) else fbRead s x y) ∧
    t = { s with
      fb := t.fb
      phase := .idle
      ok := true
      busy := false
      done := true
      gotColor := t.gotColor }

/-! ## DECODE_NEXT_FRAME -/

/-- End of stream (R159, R261, R270): with fewer than 64 unread bits a later frame's operation completes
with `OK` = 0, nothing else changes, and a repetition gives the same again. Beside `OK` and the pulse the
record names `PHASE`, which is IDLE between operations anyway, and leaves the mark of log 6 open. That `DONE`
is 1 in the state left is log 8. -/
def Obligations.EndOfStreamChangesNothing : Prop :=
  ∀ s, ReadyToDecode s → s.firstFrame = false → 8 * s.romLen - s.cursor < 64 →
    ∃ t, exec .decodeNextFrame s = .next t ∧
      t = { s with ok := false, done := true, phase := .idle, gotColor := t.gotColor } ∧
      exec .decodeNextFrame t = .next t

/-- Unchanged frame (R160): 64 zero bits complete the operation with `OK` = 1, the cursor just after the
mask, and the framebuffer and everything else as before (the mark of log 6 is left open). That the working
registers hold their last values after the operation is log 18, that `DONE` is 1 log 8. -/
def Obligations.ZeroMaskLeavesFrameUnchanged : Prop :=
  ∀ s, ReadyToDecode s → s.firstFrame = false →
    streamBits s s.cursor 64 = List.replicate 64 false →
    ∃ t, exec .decodeNextFrame s = .next t ∧ t = { s with
      mask := 0
      cursor := s.cursor + 64
      ok := true
      done := true
      phase := .idle
      gotColor := t.gotColor }

/-- The implicit first mask (R157): step 1 of the first frame sets all 64 mask bits and clears
`FIRST_FRAME`, consumes no stream bit and goes on to the colour; whatever the stream holds, the first
operation has used that mask (it still holds it: log 18), and it never reports the end of the stream. -/
def Obligations.FirstFrameUsesFullMask : Prop :=
  (∀ s, s.busy = true → s.phase = .header → s.firstFrame = true →
    step s = .next { s with mask := BitVec.allOnes 64, firstFrame := false, phase := .color }) ∧
  (∀ s t, s.firstFrame = true → exec .decodeNextFrame s = .next t →
    t.mask = BitVec.allOnes 64 ∧ t.firstFrame = false ∧
    (geometryOk s = true → t.faultRec = none → t.ok = true))

/-- Refusals (R271, R272): no operation while one is in progress, and no decode before a fault-free RESET
or after a fault. Where both apply the model names reentry: its choice, for R268 gives no order (log 19). -/
def Obligations.OperationsRefusedByName : Prop :=
  (∀ s b, s.busy = true → exec (.reset b) s = .refused .reentry) ∧
  (∀ s, s.busy = true → exec .decodeNextFrame s = .refused .reentry) ∧
  (∀ s, s.busy = false → s.ready = false ∨ s.faultRec ≠ none →
    exec .decodeNextFrame s = .refused .notReady)

/-- A stream the host changes after RESET is not decoded before another RESET (R63, R292; the refusal is
the model's choice, log 7): loading, then DECODE_NEXT_FRAME, is refused by name. -/
def Obligations.ChangedStreamNeedsReset : Prop :=
  ∀ s t bytes q, s.busy = false → s.ready = true → s.faultRec = none →
    s.inputs = .loadStream bytes :: .control false true :: q → step s = .next t →
    step t = .refused .streamChanged

/-- Every operation terminates (R304): asked for in a state that is ready, DECODE_NEXT_FRAME answers a
state in which no operation is in progress, with the phase IDLE, and `DONE` unless a fault is
recorded. That the block is idle after a fault is log 12, that `DONE` is 1 in the state left is log 8. -/
def Obligations.DecodeTerminatesIdle : Prop :=
  ∀ s, ReadyToDecode s → geometryOk s = true →
    ∃ t, exec .decodeNextFrame s = .next t ∧ t.busy = false ∧ t.phase = .idle ∧
      (t.faultRec = none → t.done = true)

/-- The result (R220): without a fault, `OK` = 0 exactly when no frame was consumed because none is
left. -/
def Obligations.ResultTellsEndOfStream : Prop :=
  ∀ s t, geometryOk s = true → exec .decodeNextFrame s = .next t → t.faultRec = none →
    (t.ok = false ↔ s.firstFrame = false ∧ 8 * s.romLen - s.cursor < 64)

/-- DECODE_NEXT_FRAME is the sequence of its tokens and internal steps (R219, R221): its result is what
single steps reach from the state in which the operation has begun (the states between are log 6). -/
def Obligations.DecodeIsItsSteps : Prop :=
  ∀ s t, exec .decodeNextFrame s = .next t →
    ∃ k, Host.Core.run core k (beginFrame s) = .next t

/-- What the operation never changes (R222, R217, R63): dimensions, chunk size, display, stream, the
host's inputs, and the records of RESET; the cursor never moves backwards (R22), and `FIRST_FRAME` is 0
after it, on the first frame and every later one (R23). -/
def Obligations.DecodeFrame : Prop :=
  ∀ s t, exec .decodeNextFrame s = .next t →
    t.w = s.w ∧ t.h = s.h ∧ t.cw = s.cw ∧ t.ch = s.ch ∧
    t.dispW = s.dispW ∧ t.dispH = s.dispH ∧ t.addrW = s.addrW ∧ t.fbLayout = s.fbLayout ∧
    t.rom = s.rom ∧ t.romLen = s.romLen ∧ t.inputs = s.inputs ∧ t.ready = s.ready ∧
    t.streamSeen = s.streamSeen ∧ s.cursor ≤ t.cursor ∧ t.firstFrame = false

/-- What a decode leaves untouched (R79): without a fault, every pixel that is neither a window pixel of a
chunk whose mask bit is set nor a margin pixel whose threshold is met reads as before. Mask and counts are
the ones the operation used, which the registers still hold (log 18). -/
def Obligations.DecodeKeepsOtherPixels : Prop :=
  ∀ s t, exec .decodeNextFrame s = .next t → t.faultRec = none →
    ∀ x y, x < s.dispW → y < s.dispH →
      ¬ (offX s ≤ x ∧ x < offX s + s.w ∧ offY s ≤ y ∧ y < offY s + s.h ∧
        changed t (x - offX s) (y - offY s) = true) →
      ¬ (x < offX s ∧ thresholdMet t.el1 t.el0 = true) →
      ¬ (offX s + s.w ≤ x ∧ thresholdMet t.er1 t.er0 = true) →
      fbRead t x y = fbRead s x y

/-- Round trip of a frame (R183): where the stream at the cursor holds the producer's emission of a frame
(its mask included, except for the first), one operation consumes exactly it and leaves in the window the
frame's pixels where the chunk's bit is set, and the old pixels elsewhere. -/
def Obligations.FrameRoundTrip : Prop :=
  ∀ (s : State) (m : MaskWord) (f : Frame),
    ReadyToDecode s → geometryOk s = true → WidthInv s →
    (s.firstFrame = true → m = BitVec.allOnes 64) →
    (m = 0 ∨ maskedPixels m s.w s.h ≠ []) →
    ∀ bits, bits = (if s.firstFrame then fullBits s.w s.h f else partBits m s.w s.h f) →
    streamBits s s.cursor bits.length = bits →
    ∃ t, exec .decodeNextFrame s = .next t ∧ t.ok = true ∧ t.faultRec = none ∧
      t.cursor = s.cursor + bits.length ∧
      ∀ x y, x < s.w → y < s.h →
        fbRead t (offX s + x) (offY s + y) =
          if m.getLsbD (x / s.cw * 8 + y / s.ch) then f x y
          else fbRead s (offX s + x) (offY s + y)

/-! ## The stream's producer (log 16) -/

/-- The change detector (R245, R247 to R249, R251): a chunk's new total is its counter plus the frame's
error, plus the penalty exactly for a uniform chunk whose total is then positive (that the penalty counts in
the same comparison is log 16, N29); its mask bit is set exactly when the total exceeds the threshold's
percentage of its pixels inside the frame (the clipped area: log 16, U12); its counter is then cleared and
its pixels committed; an unset chunk keeps total and committed pixels. Penalty and percentage are
parameters; the source's are 5 and 8. -/
def Obligations.DetectorCommitsTriggeredChunks : Prop :=
  sourceTuning = { penalty := 5, percent := 8 } ∧
  ∀ d w h f,
    (detect d w h f).tuning = d.tuning ∧
    (∀ k, k < 64 →
      newTotal d w h f k = chunkTotal d k + chunkError d w h f k +
        (if chunkUniform w h f k = true ∧ 0 < chunkTotal d k + chunkError d w h f k
          then d.tuning.penalty else 0) ∧
      ((detectMask d w h f).getLsbD k = true ↔
        d.tuning.percent * (chunkPixels w h k).length < 100 * newTotal d w h f k) ∧
      chunkTotal (detect d w h f) k =
        if (detectMask d w h f).getLsbD k then 0 else newTotal d w h f k) ∧
    (∀ x y, x < w → y < h →
      committedAt (detect d w h f) h (x, y) =
        if (detectMask d w h f).getLsbD (gridChunk w h (x, y)) then f x y else committedAt d h (x, y))

/-- What the producer writes is a well-formed stream for every display the frames fit on (R253, R249): in
particular its masks name no chunk without pixels. -/
def Obligations.ProducedStreamIsWellFormed : Prop :=
  ∀ c dispW dispH w h frames bytes, WellFormed (.dims w h) → w.toNat ≤ dispW → h.toNat ≤ dispH →
    produce c w h frames = some bytes → WellFormedStream dispW dispH bytes

/-- Encoder and decoder stay in step (R255): where the window holds the committed snapshot and the stream
at the cursor the producer's emission of the next frame, one operation makes the window the new
snapshot. -/
def Obligations.DecoderFollowsProducer : Prop :=
  ∀ (s : State) (d : Detector) (f : Frame),
    ReadyToDecode s → geometryOk s = true → WidthInv s → s.firstFrame = false →
    (∀ k, chunkPixels s.w s.h k = [] → chunkTotal d k = 0) →
    (∀ x y, x < s.w → y < s.h → fbRead s (offX s + x) (offY s + y) = committedAt d s.h (x, y)) →
    ∀ bits, bits = partBits (detectMask d s.w s.h f) s.w s.h f →
    streamBits s s.cursor bits.length = bits →
    ∃ t, exec .decodeNextFrame s = .next t ∧ t.faultRec = none ∧ t.cursor = s.cursor + bits.length ∧
      ∀ x y, x < s.w → y < s.h →
        fbRead t (offX s + x) (offY s + y) = committedAt (detect d s.w s.h f) s.h (x, y)

/-! ## The whole machine -/

/-- The control sample `00` is no operation (R105), and an idle block without an input does nothing: only
the input is taken and the `DONE` pulse is over (log 7, log 8). -/
def Obligations.NoRequestNoOperation : Prop :=
  (∀ s q, s.busy = false → s.inputs = .control false false :: q →
    step s = .next { s with inputs := q, done := false }) ∧
  (∀ s, s.busy = false → s.inputs = [] → step s = .next { s with done := false })

/-- The block never writes the stream space (R63): a step changes ROM or LEN only when it takes a stream
the host loads (log 7). The display parameters never change (R7). -/
def Obligations.OnlyHostChangesStream : Prop :=
  ∀ s t, step s = .next t →
    (t.dispW = s.dispW ∧ t.dispH = s.dispH ∧ t.addrW = s.addrW ∧ t.fbLayout = s.fbLayout) ∧
    ((t.rom = s.rom ∧ t.romLen = s.romLen) ∨
      (s.busy = false ∧ ∃ bytes q, s.inputs = .loadStream bytes :: q))

/-- The fault record (R34): once set it keeps the first fault, and only a RESET clears it. -/
def Obligations.FaultRecordIsSticky : Prop :=
  ∀ s t f, s.faultRec = some f → step s = .next t →
    t.faultRec = some f ∨ (s.busy = false ∧ ∃ b q, s.inputs = .control true b :: q)

/-- The dimension and chunk registers (R217): only a RESET, asked for or in progress (log 6), loads
them. -/
def Obligations.OnlyResetLoadsDimensions : Prop :=
  ∀ s t, step s = .next t →
    (t.w = s.w ∧ t.h = s.h ∧ t.cw = s.cw ∧ t.ch = s.ch) ∨
    (s.busy = true ∧ s.phase = .idle) ∨
    (s.busy = false ∧ ∃ b q, s.inputs = .control true b :: q)

/-- The cursor (R22): a step leaves it, moves it forwards, or, in a RESET (log 6), sets it to stream
bit 16. -/
def Obligations.CursorMovesForward : Prop :=
  ∀ s t, step s = .next t →
    s.cursor ≤ t.cursor ∨
    (t.cursor = 16 ∧ ((s.busy = true ∧ s.phase = .idle) ∨
      (s.busy = false ∧ ∃ b q, s.inputs = .control true b :: q)))

/-! ## Invariants -/

/-- The state after reset meets every invariant stated below; with the reset values of log 1 and log 4
where R39 gives none. -/
def Obligations.ResetMeetsInvariants : Prop :=
  Memory.wf State.reset = true ∧ GeometryInv State.reset ∧ WidthInv State.reset ∧
  CursorInv State.reset ∧ SequenceInv State.reset ∧ BandInv State.reset

/-- Every step keeps both memories in canonical form and inside their address spaces (R60, R66). -/
def Obligations.StepKeepsMemoryForm : Prop :=
  ∀ s t, Memory.wf s = true → step s = .next t → Memory.wf t = true

/-- Every step keeps: without a recorded fault the frame fits the display and the chunk size is the one of
R8 (R266). -/
def Obligations.StepKeepsGeometry : Prop :=
  ∀ s t, GeometryInv s → step s = .next t → GeometryInv t

/-- Every step keeps every register within the width the spec gives it (R24, R25, R28 to R31),
also between operations, where the working registers keep their last values (log 18). -/
def Obligations.StepKeepsRegisterWidths : Prop :=
  ∀ s t, WidthInv s → step s = .next t → WidthInv t

/-- Every step keeps the cursor inside the stream RESET saw (R22). -/
def Obligations.StepKeepsCursorInStream : Prop :=
  ∀ s t, CursorInv s → step s = .next t → CursorInv t

/-- Every step keeps the controller's sequencing: IDLE between operations, no pulse inside one, the mark
of log 6 in phase COLOR only (R32, R33, R221). That `DONE` is 0 while BUSY = 1 bounds the pulse, whose length
R33 leaves open: the model's choice (log 8). -/
def Obligations.StepKeepsSequencing : Prop :=
  ∀ s t, SequenceInv s → step s = .next t → SequenceInv t

/-- Every step keeps: inside a band of the scan the chunk is a changed one (R175). -/
def Obligations.StepKeepsBands : Prop :=
  ∀ s t, BandInv s → step s = .next t → BandInv t

/-! ## Independence -/

/-- No step depends on `FB_LAYOUT` (R68, R227): with another layout it answers the same next state with that
layout (what a layout is: log 15). -/
def Obligations.LayoutChangesNoStep : Prop :=
  ∀ s t l, step s = .next t → step { s with fbLayout := l } = .next { t with fbLayout := l }
end

