-- ==== Sys2Proof/Laws/State.lean ====
section
/-! SUPPORT. One lemma per field of State and per named update of it: the field's value after the update. -/

namespace Sys2Proof.Machine

/-! ## `fbWrite` -/

@[simp] theorem fbWrite_dispW (s : State) (x y : Nat) (c : Bool) : (fbWrite s x y c).dispW = s.dispW := rfl
@[simp] theorem fbWrite_dispH (s : State) (x y : Nat) (c : Bool) : (fbWrite s x y c).dispH = s.dispH := rfl
@[simp] theorem fbWrite_addrW (s : State) (x y : Nat) (c : Bool) : (fbWrite s x y c).addrW = s.addrW := rfl
@[simp] theorem fbWrite_fbLayout (s : State) (x y : Nat) (c : Bool) : (fbWrite s x y c).fbLayout = s.fbLayout := rfl
@[simp] theorem fbWrite_rom (s : State) (x y : Nat) (c : Bool) : (fbWrite s x y c).rom = s.rom := rfl
@[simp] theorem fbWrite_romLen (s : State) (x y : Nat) (c : Bool) : (fbWrite s x y c).romLen = s.romLen := rfl
@[simp] theorem fbWrite_fb (s : State) (x y : Nat) (c : Bool) : (fbWrite s x y c).fb = memWrite fbUnlisted s.fb (pixelAddr s x y) c := rfl
@[simp] theorem fbWrite_cursor (s : State) (x y : Nat) (c : Bool) : (fbWrite s x y c).cursor = s.cursor := rfl
@[simp] theorem fbWrite_firstFrame (s : State) (x y : Nat) (c : Bool) : (fbWrite s x y c).firstFrame = s.firstFrame := rfl
@[simp] theorem fbWrite_w (s : State) (x y : Nat) (c : Bool) : (fbWrite s x y c).w = s.w := rfl
@[simp] theorem fbWrite_h (s : State) (x y : Nat) (c : Bool) : (fbWrite s x y c).h = s.h := rfl
@[simp] theorem fbWrite_cw (s : State) (x y : Nat) (c : Bool) : (fbWrite s x y c).cw = s.cw := rfl
@[simp] theorem fbWrite_ch (s : State) (x y : Nat) (c : Bool) : (fbWrite s x y c).ch = s.ch := rfl
@[simp] theorem fbWrite_mask (s : State) (x y : Nat) (c : Bool) : (fbWrite s x y c).mask = s.mask := rfl
@[simp] theorem fbWrite_color (s : State) (x y : Nat) (c : Bool) : (fbWrite s x y c).color = s.color := rfl
@[simp] theorem fbWrite_run (s : State) (x y : Nat) (c : Bool) : (fbWrite s x y c).run = s.run := rfl
@[simp] theorem fbWrite_ones (s : State) (x y : Nat) (c : Bool) : (fbWrite s x y c).ones = s.ones := rfl
@[simp] theorem fbWrite_value (s : State) (x y : Nat) (c : Bool) : (fbWrite s x y c).value = s.value := rfl
@[simp] theorem fbWrite_x (s : State) (x y : Nat) (c : Bool) : (fbWrite s x y c).x = s.x := rfl
@[simp] theorem fbWrite_y (s : State) (x y : Nat) (c : Bool) : (fbWrite s x y c).y = s.y := rfl
@[simp] theorem fbWrite_el1 (s : State) (x y : Nat) (c : Bool) : (fbWrite s x y c).el1 = s.el1 := rfl
@[simp] theorem fbWrite_el0 (s : State) (x y : Nat) (c : Bool) : (fbWrite s x y c).el0 = s.el0 := rfl
@[simp] theorem fbWrite_er1 (s : State) (x y : Nat) (c : Bool) : (fbWrite s x y c).er1 = s.er1 := rfl
@[simp] theorem fbWrite_er0 (s : State) (x y : Nat) (c : Bool) : (fbWrite s x y c).er0 = s.er0 := rfl
@[simp] theorem fbWrite_phase (s : State) (x y : Nat) (c : Bool) : (fbWrite s x y c).phase = s.phase := rfl
@[simp] theorem fbWrite_busy (s : State) (x y : Nat) (c : Bool) : (fbWrite s x y c).busy = s.busy := rfl
@[simp] theorem fbWrite_done (s : State) (x y : Nat) (c : Bool) : (fbWrite s x y c).done = s.done := rfl
@[simp] theorem fbWrite_ok (s : State) (x y : Nat) (c : Bool) : (fbWrite s x y c).ok = s.ok := rfl
@[simp] theorem fbWrite_faultRec (s : State) (x y : Nat) (c : Bool) : (fbWrite s x y c).faultRec = s.faultRec := rfl
@[simp] theorem fbWrite_ready (s : State) (x y : Nat) (c : Bool) : (fbWrite s x y c).ready = s.ready := rfl
@[simp] theorem fbWrite_streamSeen (s : State) (x y : Nat) (c : Bool) : (fbWrite s x y c).streamSeen = s.streamSeen := rfl
@[simp] theorem fbWrite_gotColor (s : State) (x y : Nat) (c : Bool) : (fbWrite s x y c).gotColor = s.gotColor := rfl
@[simp] theorem fbWrite_inputs (s : State) (x y : Nat) (c : Bool) : (fbWrite s x y c).inputs = s.inputs := rfl
@[simp] theorem fbWrite_draws (s : State) (x y : Nat) (c : Bool) : (fbWrite s x y c).draws = s.draws := rfl
@[simp] theorem fbWrite_fbDraw (s : State) (x y : Nat) (c : Bool) : (fbWrite s x y c).fbDraw = s.fbDraw := rfl

/-! ## `fbFillColumns` -/

@[simp] theorem fbFillColumns_dispW (s : State) (x n : Nat) (c : Bool) : (fbFillColumns s x n c).dispW = s.dispW := rfl
@[simp] theorem fbFillColumns_dispH (s : State) (x n : Nat) (c : Bool) : (fbFillColumns s x n c).dispH = s.dispH := rfl
@[simp] theorem fbFillColumns_addrW (s : State) (x n : Nat) (c : Bool) : (fbFillColumns s x n c).addrW = s.addrW := rfl
@[simp] theorem fbFillColumns_fbLayout (s : State) (x n : Nat) (c : Bool) : (fbFillColumns s x n c).fbLayout = s.fbLayout := rfl
@[simp] theorem fbFillColumns_rom (s : State) (x n : Nat) (c : Bool) : (fbFillColumns s x n c).rom = s.rom := rfl
@[simp] theorem fbFillColumns_romLen (s : State) (x n : Nat) (c : Bool) : (fbFillColumns s x n c).romLen = s.romLen := rfl
@[simp] theorem fbFillColumns_fb (s : State) (x n : Nat) (c : Bool) : (fbFillColumns s x n c).fb = memFill s.fb (x * s.dispH) (n * s.dispH) c := rfl
@[simp] theorem fbFillColumns_cursor (s : State) (x n : Nat) (c : Bool) : (fbFillColumns s x n c).cursor = s.cursor := rfl
@[simp] theorem fbFillColumns_firstFrame (s : State) (x n : Nat) (c : Bool) : (fbFillColumns s x n c).firstFrame = s.firstFrame := rfl
@[simp] theorem fbFillColumns_w (s : State) (x n : Nat) (c : Bool) : (fbFillColumns s x n c).w = s.w := rfl
@[simp] theorem fbFillColumns_h (s : State) (x n : Nat) (c : Bool) : (fbFillColumns s x n c).h = s.h := rfl
@[simp] theorem fbFillColumns_cw (s : State) (x n : Nat) (c : Bool) : (fbFillColumns s x n c).cw = s.cw := rfl
@[simp] theorem fbFillColumns_ch (s : State) (x n : Nat) (c : Bool) : (fbFillColumns s x n c).ch = s.ch := rfl
@[simp] theorem fbFillColumns_mask (s : State) (x n : Nat) (c : Bool) : (fbFillColumns s x n c).mask = s.mask := rfl
@[simp] theorem fbFillColumns_color (s : State) (x n : Nat) (c : Bool) : (fbFillColumns s x n c).color = s.color := rfl
@[simp] theorem fbFillColumns_run (s : State) (x n : Nat) (c : Bool) : (fbFillColumns s x n c).run = s.run := rfl
@[simp] theorem fbFillColumns_ones (s : State) (x n : Nat) (c : Bool) : (fbFillColumns s x n c).ones = s.ones := rfl
@[simp] theorem fbFillColumns_value (s : State) (x n : Nat) (c : Bool) : (fbFillColumns s x n c).value = s.value := rfl
@[simp] theorem fbFillColumns_x (s : State) (x n : Nat) (c : Bool) : (fbFillColumns s x n c).x = s.x := rfl
@[simp] theorem fbFillColumns_y (s : State) (x n : Nat) (c : Bool) : (fbFillColumns s x n c).y = s.y := rfl
@[simp] theorem fbFillColumns_el1 (s : State) (x n : Nat) (c : Bool) : (fbFillColumns s x n c).el1 = s.el1 := rfl
@[simp] theorem fbFillColumns_el0 (s : State) (x n : Nat) (c : Bool) : (fbFillColumns s x n c).el0 = s.el0 := rfl
@[simp] theorem fbFillColumns_er1 (s : State) (x n : Nat) (c : Bool) : (fbFillColumns s x n c).er1 = s.er1 := rfl
@[simp] theorem fbFillColumns_er0 (s : State) (x n : Nat) (c : Bool) : (fbFillColumns s x n c).er0 = s.er0 := rfl
@[simp] theorem fbFillColumns_phase (s : State) (x n : Nat) (c : Bool) : (fbFillColumns s x n c).phase = s.phase := rfl
@[simp] theorem fbFillColumns_busy (s : State) (x n : Nat) (c : Bool) : (fbFillColumns s x n c).busy = s.busy := rfl
@[simp] theorem fbFillColumns_done (s : State) (x n : Nat) (c : Bool) : (fbFillColumns s x n c).done = s.done := rfl
@[simp] theorem fbFillColumns_ok (s : State) (x n : Nat) (c : Bool) : (fbFillColumns s x n c).ok = s.ok := rfl
@[simp] theorem fbFillColumns_faultRec (s : State) (x n : Nat) (c : Bool) : (fbFillColumns s x n c).faultRec = s.faultRec := rfl
@[simp] theorem fbFillColumns_ready (s : State) (x n : Nat) (c : Bool) : (fbFillColumns s x n c).ready = s.ready := rfl
@[simp] theorem fbFillColumns_streamSeen (s : State) (x n : Nat) (c : Bool) : (fbFillColumns s x n c).streamSeen = s.streamSeen := rfl
@[simp] theorem fbFillColumns_gotColor (s : State) (x n : Nat) (c : Bool) : (fbFillColumns s x n c).gotColor = s.gotColor := rfl
@[simp] theorem fbFillColumns_inputs (s : State) (x n : Nat) (c : Bool) : (fbFillColumns s x n c).inputs = s.inputs := rfl
@[simp] theorem fbFillColumns_draws (s : State) (x n : Nat) (c : Bool) : (fbFillColumns s x n c).draws = s.draws := rfl
@[simp] theorem fbFillColumns_fbDraw (s : State) (x n : Nat) (c : Bool) : (fbFillColumns s x n c).fbDraw = s.fbDraw := rfl

/-! ## `forgetFramebuffer` -/

@[simp] theorem forgetFramebuffer_dispW (s : State) : (forgetFramebuffer s).dispW = s.dispW := rfl
@[simp] theorem forgetFramebuffer_dispH (s : State) : (forgetFramebuffer s).dispH = s.dispH := rfl
@[simp] theorem forgetFramebuffer_addrW (s : State) : (forgetFramebuffer s).addrW = s.addrW := rfl
@[simp] theorem forgetFramebuffer_fbLayout (s : State) : (forgetFramebuffer s).fbLayout = s.fbLayout := rfl
@[simp] theorem forgetFramebuffer_rom (s : State) : (forgetFramebuffer s).rom = s.rom := rfl
@[simp] theorem forgetFramebuffer_romLen (s : State) : (forgetFramebuffer s).romLen = s.romLen := rfl
@[simp] theorem forgetFramebuffer_fb (s : State) : (forgetFramebuffer s).fb = [] := rfl
@[simp] theorem forgetFramebuffer_cursor (s : State) : (forgetFramebuffer s).cursor = s.cursor := rfl
@[simp] theorem forgetFramebuffer_firstFrame (s : State) : (forgetFramebuffer s).firstFrame = s.firstFrame := rfl
@[simp] theorem forgetFramebuffer_w (s : State) : (forgetFramebuffer s).w = s.w := rfl
@[simp] theorem forgetFramebuffer_h (s : State) : (forgetFramebuffer s).h = s.h := rfl
@[simp] theorem forgetFramebuffer_cw (s : State) : (forgetFramebuffer s).cw = s.cw := rfl
@[simp] theorem forgetFramebuffer_ch (s : State) : (forgetFramebuffer s).ch = s.ch := rfl
@[simp] theorem forgetFramebuffer_mask (s : State) : (forgetFramebuffer s).mask = s.mask := rfl
@[simp] theorem forgetFramebuffer_color (s : State) : (forgetFramebuffer s).color = s.color := rfl
@[simp] theorem forgetFramebuffer_run (s : State) : (forgetFramebuffer s).run = s.run := rfl
@[simp] theorem forgetFramebuffer_ones (s : State) : (forgetFramebuffer s).ones = s.ones := rfl
@[simp] theorem forgetFramebuffer_value (s : State) : (forgetFramebuffer s).value = s.value := rfl
@[simp] theorem forgetFramebuffer_x (s : State) : (forgetFramebuffer s).x = s.x := rfl
@[simp] theorem forgetFramebuffer_y (s : State) : (forgetFramebuffer s).y = s.y := rfl
@[simp] theorem forgetFramebuffer_el1 (s : State) : (forgetFramebuffer s).el1 = s.el1 := rfl
@[simp] theorem forgetFramebuffer_el0 (s : State) : (forgetFramebuffer s).el0 = s.el0 := rfl
@[simp] theorem forgetFramebuffer_er1 (s : State) : (forgetFramebuffer s).er1 = s.er1 := rfl
@[simp] theorem forgetFramebuffer_er0 (s : State) : (forgetFramebuffer s).er0 = s.er0 := rfl
@[simp] theorem forgetFramebuffer_phase (s : State) : (forgetFramebuffer s).phase = s.phase := rfl
@[simp] theorem forgetFramebuffer_busy (s : State) : (forgetFramebuffer s).busy = s.busy := rfl
@[simp] theorem forgetFramebuffer_done (s : State) : (forgetFramebuffer s).done = s.done := rfl
@[simp] theorem forgetFramebuffer_ok (s : State) : (forgetFramebuffer s).ok = s.ok := rfl
@[simp] theorem forgetFramebuffer_faultRec (s : State) : (forgetFramebuffer s).faultRec = s.faultRec := rfl
@[simp] theorem forgetFramebuffer_ready (s : State) : (forgetFramebuffer s).ready = s.ready := rfl
@[simp] theorem forgetFramebuffer_streamSeen (s : State) : (forgetFramebuffer s).streamSeen = s.streamSeen := rfl
@[simp] theorem forgetFramebuffer_gotColor (s : State) : (forgetFramebuffer s).gotColor = s.gotColor := rfl
@[simp] theorem forgetFramebuffer_inputs (s : State) : (forgetFramebuffer s).inputs = s.inputs := rfl
@[simp] theorem forgetFramebuffer_draws (s : State) : (forgetFramebuffer s).draws = s.draws + 1 := rfl
@[simp] theorem forgetFramebuffer_fbDraw (s : State) : (forgetFramebuffer s).fbDraw = s.draws + 1 := rfl

/-! ## `beginReset` -/

@[simp] theorem beginReset_dispW (s : State) : (beginReset s).dispW = s.dispW := rfl
@[simp] theorem beginReset_dispH (s : State) : (beginReset s).dispH = s.dispH := rfl
@[simp] theorem beginReset_addrW (s : State) : (beginReset s).addrW = s.addrW := rfl
@[simp] theorem beginReset_fbLayout (s : State) : (beginReset s).fbLayout = s.fbLayout := rfl
@[simp] theorem beginReset_rom (s : State) : (beginReset s).rom = s.rom := rfl
@[simp] theorem beginReset_romLen (s : State) : (beginReset s).romLen = s.romLen := rfl
@[simp] theorem beginReset_fb (s : State) : (beginReset s).fb = s.fb := rfl
@[simp] theorem beginReset_cursor (s : State) : (beginReset s).cursor = s.cursor := rfl
@[simp] theorem beginReset_firstFrame (s : State) : (beginReset s).firstFrame = s.firstFrame := rfl
@[simp] theorem beginReset_w (s : State) : (beginReset s).w = s.w := rfl
@[simp] theorem beginReset_h (s : State) : (beginReset s).h = s.h := rfl
@[simp] theorem beginReset_cw (s : State) : (beginReset s).cw = s.cw := rfl
@[simp] theorem beginReset_ch (s : State) : (beginReset s).ch = s.ch := rfl
@[simp] theorem beginReset_mask (s : State) : (beginReset s).mask = s.mask := rfl
@[simp] theorem beginReset_color (s : State) : (beginReset s).color = s.color := rfl
@[simp] theorem beginReset_run (s : State) : (beginReset s).run = s.run := rfl
@[simp] theorem beginReset_ones (s : State) : (beginReset s).ones = s.ones := rfl
@[simp] theorem beginReset_value (s : State) : (beginReset s).value = s.value := rfl
@[simp] theorem beginReset_x (s : State) : (beginReset s).x = s.x := rfl
@[simp] theorem beginReset_y (s : State) : (beginReset s).y = s.y := rfl
@[simp] theorem beginReset_el1 (s : State) : (beginReset s).el1 = s.el1 := rfl
@[simp] theorem beginReset_el0 (s : State) : (beginReset s).el0 = s.el0 := rfl
@[simp] theorem beginReset_er1 (s : State) : (beginReset s).er1 = s.er1 := rfl
@[simp] theorem beginReset_er0 (s : State) : (beginReset s).er0 = s.er0 := rfl
@[simp] theorem beginReset_phase (s : State) : (beginReset s).phase = .idle := rfl
@[simp] theorem beginReset_busy (s : State) : (beginReset s).busy = true := rfl
@[simp] theorem beginReset_done (s : State) : (beginReset s).done = false := rfl
@[simp] theorem beginReset_ok (s : State) : (beginReset s).ok = Config.freeOk (s.draws + 1) := rfl
@[simp] theorem beginReset_faultRec (s : State) : (beginReset s).faultRec = none := rfl
@[simp] theorem beginReset_ready (s : State) : (beginReset s).ready = s.ready := rfl
@[simp] theorem beginReset_streamSeen (s : State) : (beginReset s).streamSeen = s.streamSeen := rfl
@[simp] theorem beginReset_gotColor (s : State) : (beginReset s).gotColor = false := rfl
@[simp] theorem beginReset_inputs (s : State) : (beginReset s).inputs = s.inputs := rfl
@[simp] theorem beginReset_draws (s : State) : (beginReset s).draws = s.draws + 1 := rfl
@[simp] theorem beginReset_fbDraw (s : State) : (beginReset s).fbDraw = s.fbDraw := rfl

/-! ## `beginRun` -/

@[simp] theorem beginRun_dispW (s : State) : (beginRun s).dispW = s.dispW := rfl
@[simp] theorem beginRun_dispH (s : State) : (beginRun s).dispH = s.dispH := rfl
@[simp] theorem beginRun_addrW (s : State) : (beginRun s).addrW = s.addrW := rfl
@[simp] theorem beginRun_fbLayout (s : State) : (beginRun s).fbLayout = s.fbLayout := rfl
@[simp] theorem beginRun_rom (s : State) : (beginRun s).rom = s.rom := rfl
@[simp] theorem beginRun_romLen (s : State) : (beginRun s).romLen = s.romLen := rfl
@[simp] theorem beginRun_fb (s : State) : (beginRun s).fb = s.fb := rfl
@[simp] theorem beginRun_cursor (s : State) : (beginRun s).cursor = s.cursor := rfl
@[simp] theorem beginRun_firstFrame (s : State) : (beginRun s).firstFrame = s.firstFrame := rfl
@[simp] theorem beginRun_w (s : State) : (beginRun s).w = s.w := rfl
@[simp] theorem beginRun_h (s : State) : (beginRun s).h = s.h := rfl
@[simp] theorem beginRun_cw (s : State) : (beginRun s).cw = s.cw := rfl
@[simp] theorem beginRun_ch (s : State) : (beginRun s).ch = s.ch := rfl
@[simp] theorem beginRun_mask (s : State) : (beginRun s).mask = s.mask := rfl
@[simp] theorem beginRun_color (s : State) : (beginRun s).color = (if s.phase = .scan then !s.color else s.color) := rfl
@[simp] theorem beginRun_run (s : State) : (beginRun s).run = s.run := rfl
@[simp] theorem beginRun_ones (s : State) : (beginRun s).ones = 0 := rfl
@[simp] theorem beginRun_value (s : State) : (beginRun s).value = s.value := rfl
@[simp] theorem beginRun_x (s : State) : (beginRun s).x = s.x := rfl
@[simp] theorem beginRun_y (s : State) : (beginRun s).y = s.y := rfl
@[simp] theorem beginRun_el1 (s : State) : (beginRun s).el1 = s.el1 := rfl
@[simp] theorem beginRun_el0 (s : State) : (beginRun s).el0 = s.el0 := rfl
@[simp] theorem beginRun_er1 (s : State) : (beginRun s).er1 = s.er1 := rfl
@[simp] theorem beginRun_er0 (s : State) : (beginRun s).er0 = s.er0 := rfl
@[simp] theorem beginRun_phase (s : State) : (beginRun s).phase = s.phase := rfl
@[simp] theorem beginRun_busy (s : State) : (beginRun s).busy = s.busy := rfl
@[simp] theorem beginRun_done (s : State) : (beginRun s).done = s.done := rfl
@[simp] theorem beginRun_ok (s : State) : (beginRun s).ok = s.ok := rfl
@[simp] theorem beginRun_faultRec (s : State) : (beginRun s).faultRec = s.faultRec := rfl
@[simp] theorem beginRun_ready (s : State) : (beginRun s).ready = s.ready := rfl
@[simp] theorem beginRun_streamSeen (s : State) : (beginRun s).streamSeen = s.streamSeen := rfl
@[simp] theorem beginRun_gotColor (s : State) : (beginRun s).gotColor = s.gotColor := rfl
@[simp] theorem beginRun_inputs (s : State) : (beginRun s).inputs = s.inputs := rfl
@[simp] theorem beginRun_draws (s : State) : (beginRun s).draws = s.draws := rfl
@[simp] theorem beginRun_fbDraw (s : State) : (beginRun s).fbDraw = s.fbDraw := rfl

/-! ## `loadRun` -/

@[simp] theorem loadRun_dispW (s : State) (g v : Nat) : (loadRun g v s).dispW = s.dispW := rfl
@[simp] theorem loadRun_dispH (s : State) (g v : Nat) : (loadRun g v s).dispH = s.dispH := rfl
@[simp] theorem loadRun_addrW (s : State) (g v : Nat) : (loadRun g v s).addrW = s.addrW := rfl
@[simp] theorem loadRun_fbLayout (s : State) (g v : Nat) : (loadRun g v s).fbLayout = s.fbLayout := rfl
@[simp] theorem loadRun_rom (s : State) (g v : Nat) : (loadRun g v s).rom = s.rom := rfl
@[simp] theorem loadRun_romLen (s : State) (g v : Nat) : (loadRun g v s).romLen = s.romLen := rfl
@[simp] theorem loadRun_fb (s : State) (g v : Nat) : (loadRun g v s).fb = s.fb := rfl
@[simp] theorem loadRun_cursor (s : State) (g v : Nat) : (loadRun g v s).cursor = s.cursor + 4 * g := rfl
@[simp] theorem loadRun_firstFrame (s : State) (g v : Nat) : (loadRun g v s).firstFrame = s.firstFrame := rfl
@[simp] theorem loadRun_w (s : State) (g v : Nat) : (loadRun g v s).w = s.w := rfl
@[simp] theorem loadRun_h (s : State) (g v : Nat) : (loadRun g v s).h = s.h := rfl
@[simp] theorem loadRun_cw (s : State) (g v : Nat) : (loadRun g v s).cw = s.cw := rfl
@[simp] theorem loadRun_ch (s : State) (g v : Nat) : (loadRun g v s).ch = s.ch := rfl
@[simp] theorem loadRun_mask (s : State) (g v : Nat) : (loadRun g v s).mask = s.mask := rfl
@[simp] theorem loadRun_color (s : State) (g v : Nat) : (loadRun g v s).color = (if s.phase = .scan then !s.color else s.color) := rfl
@[simp] theorem loadRun_run (s : State) (g v : Nat) : (loadRun g v s).run = runLength g v := rfl
@[simp] theorem loadRun_ones (s : State) (g v : Nat) : (loadRun g v s).ones = g - 1 := rfl
@[simp] theorem loadRun_value (s : State) (g v : Nat) : (loadRun g v s).value = v := rfl
@[simp] theorem loadRun_x (s : State) (g v : Nat) : (loadRun g v s).x = (if s.phase = .scan then s.x else 0) := rfl
@[simp] theorem loadRun_y (s : State) (g v : Nat) : (loadRun g v s).y = (if s.phase = .scan then s.y else 0) := rfl
@[simp] theorem loadRun_el1 (s : State) (g v : Nat) : (loadRun g v s).el1 = s.el1 := rfl
@[simp] theorem loadRun_el0 (s : State) (g v : Nat) : (loadRun g v s).el0 = s.el0 := rfl
@[simp] theorem loadRun_er1 (s : State) (g v : Nat) : (loadRun g v s).er1 = s.er1 := rfl
@[simp] theorem loadRun_er0 (s : State) (g v : Nat) : (loadRun g v s).er0 = s.er0 := rfl
@[simp] theorem loadRun_phase (s : State) (g v : Nat) : (loadRun g v s).phase = .scan := rfl
@[simp] theorem loadRun_busy (s : State) (g v : Nat) : (loadRun g v s).busy = s.busy := rfl
@[simp] theorem loadRun_done (s : State) (g v : Nat) : (loadRun g v s).done = s.done := rfl
@[simp] theorem loadRun_ok (s : State) (g v : Nat) : (loadRun g v s).ok = s.ok := rfl
@[simp] theorem loadRun_faultRec (s : State) (g v : Nat) : (loadRun g v s).faultRec = s.faultRec := rfl
@[simp] theorem loadRun_ready (s : State) (g v : Nat) : (loadRun g v s).ready = s.ready := rfl
@[simp] theorem loadRun_streamSeen (s : State) (g v : Nat) : (loadRun g v s).streamSeen = s.streamSeen := rfl
@[simp] theorem loadRun_gotColor (s : State) (g v : Nat) : (loadRun g v s).gotColor = false := rfl
@[simp] theorem loadRun_inputs (s : State) (g v : Nat) : (loadRun g v s).inputs = s.inputs := rfl
@[simp] theorem loadRun_draws (s : State) (g v : Nat) : (loadRun g v s).draws = s.draws := rfl
@[simp] theorem loadRun_fbDraw (s : State) (g v : Nat) : (loadRun g v s).fbDraw = s.fbDraw := rfl

/-! ## `finish` -/

@[simp] theorem finish_dispW (s : State) (r : Bool) : (finish r s).dispW = s.dispW := rfl
@[simp] theorem finish_dispH (s : State) (r : Bool) : (finish r s).dispH = s.dispH := rfl
@[simp] theorem finish_addrW (s : State) (r : Bool) : (finish r s).addrW = s.addrW := rfl
@[simp] theorem finish_fbLayout (s : State) (r : Bool) : (finish r s).fbLayout = s.fbLayout := rfl
@[simp] theorem finish_rom (s : State) (r : Bool) : (finish r s).rom = s.rom := rfl
@[simp] theorem finish_romLen (s : State) (r : Bool) : (finish r s).romLen = s.romLen := rfl
@[simp] theorem finish_fb (s : State) (r : Bool) : (finish r s).fb = s.fb := rfl
@[simp] theorem finish_cursor (s : State) (r : Bool) : (finish r s).cursor = s.cursor := rfl
@[simp] theorem finish_firstFrame (s : State) (r : Bool) : (finish r s).firstFrame = s.firstFrame := rfl
@[simp] theorem finish_w (s : State) (r : Bool) : (finish r s).w = s.w := rfl
@[simp] theorem finish_h (s : State) (r : Bool) : (finish r s).h = s.h := rfl
@[simp] theorem finish_cw (s : State) (r : Bool) : (finish r s).cw = s.cw := rfl
@[simp] theorem finish_ch (s : State) (r : Bool) : (finish r s).ch = s.ch := rfl
@[simp] theorem finish_mask (s : State) (r : Bool) : (finish r s).mask = s.mask := rfl
@[simp] theorem finish_color (s : State) (r : Bool) : (finish r s).color = s.color := rfl
@[simp] theorem finish_run (s : State) (r : Bool) : (finish r s).run = s.run := rfl
@[simp] theorem finish_ones (s : State) (r : Bool) : (finish r s).ones = s.ones := rfl
@[simp] theorem finish_value (s : State) (r : Bool) : (finish r s).value = s.value := rfl
@[simp] theorem finish_x (s : State) (r : Bool) : (finish r s).x = s.x := rfl
@[simp] theorem finish_y (s : State) (r : Bool) : (finish r s).y = s.y := rfl
@[simp] theorem finish_el1 (s : State) (r : Bool) : (finish r s).el1 = s.el1 := rfl
@[simp] theorem finish_el0 (s : State) (r : Bool) : (finish r s).el0 = s.el0 := rfl
@[simp] theorem finish_er1 (s : State) (r : Bool) : (finish r s).er1 = s.er1 := rfl
@[simp] theorem finish_er0 (s : State) (r : Bool) : (finish r s).er0 = s.er0 := rfl
@[simp] theorem finish_phase (s : State) (r : Bool) : (finish r s).phase = .idle := rfl
@[simp] theorem finish_busy (s : State) (r : Bool) : (finish r s).busy = false := rfl
@[simp] theorem finish_done (s : State) (r : Bool) : (finish r s).done = true := rfl
@[simp] theorem finish_ok (s : State) (r : Bool) : (finish r s).ok = r := rfl
@[simp] theorem finish_faultRec (s : State) (r : Bool) : (finish r s).faultRec = s.faultRec := rfl
@[simp] theorem finish_ready (s : State) (r : Bool) : (finish r s).ready = s.ready := rfl
@[simp] theorem finish_streamSeen (s : State) (r : Bool) : (finish r s).streamSeen = s.streamSeen := rfl
@[simp] theorem finish_gotColor (s : State) (r : Bool) : (finish r s).gotColor = false := rfl
@[simp] theorem finish_inputs (s : State) (r : Bool) : (finish r s).inputs = s.inputs := rfl
@[simp] theorem finish_draws (s : State) (r : Bool) : (finish r s).draws = s.draws := rfl
@[simp] theorem finish_fbDraw (s : State) (r : Bool) : (finish r s).fbDraw = s.fbDraw := rfl

/-! ## `paintPixel` -/

@[simp] theorem paintPixel_dispW (s : State) : (paintPixel s).dispW = s.dispW := rfl
@[simp] theorem paintPixel_dispH (s : State) : (paintPixel s).dispH = s.dispH := rfl
@[simp] theorem paintPixel_addrW (s : State) : (paintPixel s).addrW = s.addrW := rfl
@[simp] theorem paintPixel_fbLayout (s : State) : (paintPixel s).fbLayout = s.fbLayout := rfl
@[simp] theorem paintPixel_rom (s : State) : (paintPixel s).rom = s.rom := rfl
@[simp] theorem paintPixel_romLen (s : State) : (paintPixel s).romLen = s.romLen := rfl
@[simp] theorem paintPixel_fb (s : State) : (paintPixel s).fb = (fbWrite s (offX s + s.x) (offY s + s.y) s.color).fb := rfl
@[simp] theorem paintPixel_cursor (s : State) : (paintPixel s).cursor = s.cursor := rfl
@[simp] theorem paintPixel_firstFrame (s : State) : (paintPixel s).firstFrame = s.firstFrame := rfl
@[simp] theorem paintPixel_w (s : State) : (paintPixel s).w = s.w := rfl
@[simp] theorem paintPixel_h (s : State) : (paintPixel s).h = s.h := rfl
@[simp] theorem paintPixel_cw (s : State) : (paintPixel s).cw = s.cw := rfl
@[simp] theorem paintPixel_ch (s : State) : (paintPixel s).ch = s.ch := rfl
@[simp] theorem paintPixel_mask (s : State) : (paintPixel s).mask = s.mask := rfl
@[simp] theorem paintPixel_color (s : State) : (paintPixel s).color = s.color := rfl
@[simp] theorem paintPixel_run (s : State) : (paintPixel s).run = s.run - 1 := rfl
@[simp] theorem paintPixel_ones (s : State) : (paintPixel s).ones = s.ones := rfl
@[simp] theorem paintPixel_value (s : State) : (paintPixel s).value = s.value := rfl
@[simp] theorem paintPixel_x (s : State) : (paintPixel s).x = s.x := rfl
@[simp] theorem paintPixel_y (s : State) : (paintPixel s).y = s.y + 1 := rfl
@[simp] theorem paintPixel_el1 (s : State) : (paintPixel s).el1 = s.el1 := rfl
@[simp] theorem paintPixel_el0 (s : State) : (paintPixel s).el0 = s.el0 := rfl
@[simp] theorem paintPixel_er1 (s : State) : (paintPixel s).er1 = s.er1 := rfl
@[simp] theorem paintPixel_er0 (s : State) : (paintPixel s).er0 = s.er0 := rfl
@[simp] theorem paintPixel_phase (s : State) : (paintPixel s).phase = s.phase := rfl
@[simp] theorem paintPixel_busy (s : State) : (paintPixel s).busy = s.busy := rfl
@[simp] theorem paintPixel_done (s : State) : (paintPixel s).done = s.done := rfl
@[simp] theorem paintPixel_ok (s : State) : (paintPixel s).ok = s.ok := rfl
@[simp] theorem paintPixel_faultRec (s : State) : (paintPixel s).faultRec = s.faultRec := rfl
@[simp] theorem paintPixel_ready (s : State) : (paintPixel s).ready = s.ready := rfl
@[simp] theorem paintPixel_streamSeen (s : State) : (paintPixel s).streamSeen = s.streamSeen := rfl
@[simp] theorem paintPixel_gotColor (s : State) : (paintPixel s).gotColor = s.gotColor := rfl
@[simp] theorem paintPixel_inputs (s : State) : (paintPixel s).inputs = s.inputs := rfl
@[simp] theorem paintPixel_draws (s : State) : (paintPixel s).draws = s.draws := rfl
@[simp] theorem paintPixel_fbDraw (s : State) : (paintPixel s).fbDraw = s.fbDraw := rfl

/-! ## `beginFrame` -/

@[simp] theorem beginFrame_dispW (s : State) : (beginFrame s).dispW = s.dispW := rfl
@[simp] theorem beginFrame_dispH (s : State) : (beginFrame s).dispH = s.dispH := rfl
@[simp] theorem beginFrame_addrW (s : State) : (beginFrame s).addrW = s.addrW := rfl
@[simp] theorem beginFrame_fbLayout (s : State) : (beginFrame s).fbLayout = s.fbLayout := rfl
@[simp] theorem beginFrame_rom (s : State) : (beginFrame s).rom = s.rom := rfl
@[simp] theorem beginFrame_romLen (s : State) : (beginFrame s).romLen = s.romLen := rfl
@[simp] theorem beginFrame_fb (s : State) : (beginFrame s).fb = s.fb := rfl
@[simp] theorem beginFrame_cursor (s : State) : (beginFrame s).cursor = s.cursor := rfl
@[simp] theorem beginFrame_firstFrame (s : State) : (beginFrame s).firstFrame = s.firstFrame := rfl
@[simp] theorem beginFrame_w (s : State) : (beginFrame s).w = s.w := rfl
@[simp] theorem beginFrame_h (s : State) : (beginFrame s).h = s.h := rfl
@[simp] theorem beginFrame_cw (s : State) : (beginFrame s).cw = s.cw := rfl
@[simp] theorem beginFrame_ch (s : State) : (beginFrame s).ch = s.ch := rfl
@[simp] theorem beginFrame_mask (s : State) : (beginFrame s).mask = s.mask := rfl
@[simp] theorem beginFrame_color (s : State) : (beginFrame s).color = s.color := rfl
@[simp] theorem beginFrame_run (s : State) : (beginFrame s).run = s.run := rfl
@[simp] theorem beginFrame_ones (s : State) : (beginFrame s).ones = s.ones := rfl
@[simp] theorem beginFrame_value (s : State) : (beginFrame s).value = s.value := rfl
@[simp] theorem beginFrame_x (s : State) : (beginFrame s).x = s.x := rfl
@[simp] theorem beginFrame_y (s : State) : (beginFrame s).y = s.y := rfl
@[simp] theorem beginFrame_el1 (s : State) : (beginFrame s).el1 = s.el1 := rfl
@[simp] theorem beginFrame_el0 (s : State) : (beginFrame s).el0 = s.el0 := rfl
@[simp] theorem beginFrame_er1 (s : State) : (beginFrame s).er1 = s.er1 := rfl
@[simp] theorem beginFrame_er0 (s : State) : (beginFrame s).er0 = s.er0 := rfl
@[simp] theorem beginFrame_phase (s : State) : (beginFrame s).phase = .header := rfl
@[simp] theorem beginFrame_busy (s : State) : (beginFrame s).busy = true := rfl
@[simp] theorem beginFrame_done (s : State) : (beginFrame s).done = false := rfl
@[simp] theorem beginFrame_ok (s : State) : (beginFrame s).ok = s.ok := rfl
@[simp] theorem beginFrame_faultRec (s : State) : (beginFrame s).faultRec = s.faultRec := rfl
@[simp] theorem beginFrame_ready (s : State) : (beginFrame s).ready = s.ready := rfl
@[simp] theorem beginFrame_streamSeen (s : State) : (beginFrame s).streamSeen = s.streamSeen := rfl
@[simp] theorem beginFrame_gotColor (s : State) : (beginFrame s).gotColor = false := rfl
@[simp] theorem beginFrame_inputs (s : State) : (beginFrame s).inputs = s.inputs := rfl
@[simp] theorem beginFrame_draws (s : State) : (beginFrame s).draws = s.draws := rfl
@[simp] theorem beginFrame_fbDraw (s : State) : (beginFrame s).fbDraw = s.fbDraw := rfl

/-! ## `loadFullMask` -/

@[simp] theorem loadFullMask_dispW (s : State) : (loadFullMask s).dispW = s.dispW := rfl
@[simp] theorem loadFullMask_dispH (s : State) : (loadFullMask s).dispH = s.dispH := rfl
@[simp] theorem loadFullMask_addrW (s : State) : (loadFullMask s).addrW = s.addrW := rfl
@[simp] theorem loadFullMask_fbLayout (s : State) : (loadFullMask s).fbLayout = s.fbLayout := rfl
@[simp] theorem loadFullMask_rom (s : State) : (loadFullMask s).rom = s.rom := rfl
@[simp] theorem loadFullMask_romLen (s : State) : (loadFullMask s).romLen = s.romLen := rfl
@[simp] theorem loadFullMask_fb (s : State) : (loadFullMask s).fb = s.fb := rfl
@[simp] theorem loadFullMask_cursor (s : State) : (loadFullMask s).cursor = s.cursor := rfl
@[simp] theorem loadFullMask_firstFrame (s : State) : (loadFullMask s).firstFrame = false := rfl
@[simp] theorem loadFullMask_w (s : State) : (loadFullMask s).w = s.w := rfl
@[simp] theorem loadFullMask_h (s : State) : (loadFullMask s).h = s.h := rfl
@[simp] theorem loadFullMask_cw (s : State) : (loadFullMask s).cw = s.cw := rfl
@[simp] theorem loadFullMask_ch (s : State) : (loadFullMask s).ch = s.ch := rfl
@[simp] theorem loadFullMask_mask (s : State) : (loadFullMask s).mask = BitVec.allOnes 64 := rfl
@[simp] theorem loadFullMask_color (s : State) : (loadFullMask s).color = s.color := rfl
@[simp] theorem loadFullMask_run (s : State) : (loadFullMask s).run = s.run := rfl
@[simp] theorem loadFullMask_ones (s : State) : (loadFullMask s).ones = s.ones := rfl
@[simp] theorem loadFullMask_value (s : State) : (loadFullMask s).value = s.value := rfl
@[simp] theorem loadFullMask_x (s : State) : (loadFullMask s).x = s.x := rfl
@[simp] theorem loadFullMask_y (s : State) : (loadFullMask s).y = s.y := rfl
@[simp] theorem loadFullMask_el1 (s : State) : (loadFullMask s).el1 = s.el1 := rfl
@[simp] theorem loadFullMask_el0 (s : State) : (loadFullMask s).el0 = s.el0 := rfl
@[simp] theorem loadFullMask_er1 (s : State) : (loadFullMask s).er1 = s.er1 := rfl
@[simp] theorem loadFullMask_er0 (s : State) : (loadFullMask s).er0 = s.er0 := rfl
@[simp] theorem loadFullMask_phase (s : State) : (loadFullMask s).phase = .color := rfl
@[simp] theorem loadFullMask_busy (s : State) : (loadFullMask s).busy = s.busy := rfl
@[simp] theorem loadFullMask_done (s : State) : (loadFullMask s).done = s.done := rfl
@[simp] theorem loadFullMask_ok (s : State) : (loadFullMask s).ok = s.ok := rfl
@[simp] theorem loadFullMask_faultRec (s : State) : (loadFullMask s).faultRec = s.faultRec := rfl
@[simp] theorem loadFullMask_ready (s : State) : (loadFullMask s).ready = s.ready := rfl
@[simp] theorem loadFullMask_streamSeen (s : State) : (loadFullMask s).streamSeen = s.streamSeen := rfl
@[simp] theorem loadFullMask_gotColor (s : State) : (loadFullMask s).gotColor = s.gotColor := rfl
@[simp] theorem loadFullMask_inputs (s : State) : (loadFullMask s).inputs = s.inputs := rfl
@[simp] theorem loadFullMask_draws (s : State) : (loadFullMask s).draws = s.draws := rfl
@[simp] theorem loadFullMask_fbDraw (s : State) : (loadFullMask s).fbDraw = s.fbDraw := rfl

/-! ## `completeReset` -/

@[simp] theorem completeReset_dispW (s : State) : (completeReset s).dispW = s.dispW := rfl
@[simp] theorem completeReset_dispH (s : State) : (completeReset s).dispH = s.dispH := rfl
@[simp] theorem completeReset_addrW (s : State) : (completeReset s).addrW = s.addrW := rfl
@[simp] theorem completeReset_fbLayout (s : State) : (completeReset s).fbLayout = s.fbLayout := rfl
@[simp] theorem completeReset_rom (s : State) : (completeReset s).rom = s.rom := rfl
@[simp] theorem completeReset_romLen (s : State) : (completeReset s).romLen = s.romLen := rfl
@[simp] theorem completeReset_fb (s : State) : (completeReset s).fb = s.fb := rfl
@[simp] theorem completeReset_cursor (s : State) : (completeReset s).cursor = 16 := rfl
@[simp] theorem completeReset_firstFrame (s : State) : (completeReset s).firstFrame = true := rfl
@[simp] theorem completeReset_w (s : State) : (completeReset s).w = s.w := rfl
@[simp] theorem completeReset_h (s : State) : (completeReset s).h = s.h := rfl
@[simp] theorem completeReset_cw (s : State) : (completeReset s).cw = ceilDiv8 s.w := rfl
@[simp] theorem completeReset_ch (s : State) : (completeReset s).ch = ceilDiv8 s.h := rfl
@[simp] theorem completeReset_mask (s : State) : (completeReset s).mask = s.mask := rfl
@[simp] theorem completeReset_color (s : State) : (completeReset s).color = s.color := rfl
@[simp] theorem completeReset_run (s : State) : (completeReset s).run = s.run := rfl
@[simp] theorem completeReset_ones (s : State) : (completeReset s).ones = s.ones := rfl
@[simp] theorem completeReset_value (s : State) : (completeReset s).value = s.value := rfl
@[simp] theorem completeReset_x (s : State) : (completeReset s).x = s.x := rfl
@[simp] theorem completeReset_y (s : State) : (completeReset s).y = s.y := rfl
@[simp] theorem completeReset_el1 (s : State) : (completeReset s).el1 = s.el1 := rfl
@[simp] theorem completeReset_el0 (s : State) : (completeReset s).el0 = s.el0 := rfl
@[simp] theorem completeReset_er1 (s : State) : (completeReset s).er1 = s.er1 := rfl
@[simp] theorem completeReset_er0 (s : State) : (completeReset s).er0 = s.er0 := rfl
@[simp] theorem completeReset_phase (s : State) : (completeReset s).phase = .idle := rfl
@[simp] theorem completeReset_busy (s : State) : (completeReset s).busy = false := rfl
@[simp] theorem completeReset_done (s : State) : (completeReset s).done = false := rfl
@[simp] theorem completeReset_ok (s : State) : (completeReset s).ok = s.ok := rfl
@[simp] theorem completeReset_faultRec (s : State) : (completeReset s).faultRec = s.faultRec := rfl
@[simp] theorem completeReset_ready (s : State) : (completeReset s).ready = true := rfl
@[simp] theorem completeReset_streamSeen (s : State) : (completeReset s).streamSeen = true := rfl
@[simp] theorem completeReset_gotColor (s : State) : (completeReset s).gotColor = s.gotColor := rfl
@[simp] theorem completeReset_inputs (s : State) : (completeReset s).inputs = s.inputs := rfl
@[simp] theorem completeReset_draws (s : State) : (completeReset s).draws = s.draws := rfl
@[simp] theorem completeReset_fbDraw (s : State) : (completeReset s).fbDraw = s.fbDraw := rfl

/-! ## `takeFault` -/

@[simp] theorem takeFault_dispW (f : FaultRecord) (s : State) : (takeFault f s).dispW = s.dispW := by cases f <;> rfl
@[simp] theorem takeFault_dispH (f : FaultRecord) (s : State) : (takeFault f s).dispH = s.dispH := by cases f <;> rfl
@[simp] theorem takeFault_addrW (f : FaultRecord) (s : State) : (takeFault f s).addrW = s.addrW := by cases f <;> rfl
@[simp] theorem takeFault_fbLayout (f : FaultRecord) (s : State) : (takeFault f s).fbLayout = s.fbLayout := by cases f <;> rfl
@[simp] theorem takeFault_rom (f : FaultRecord) (s : State) : (takeFault f s).rom = s.rom := by cases f <;> rfl
@[simp] theorem takeFault_romLen (f : FaultRecord) (s : State) : (takeFault f s).romLen = s.romLen := by cases f <;> rfl
@[simp] theorem takeFault_fb (f : FaultRecord) (s : State) : (takeFault f s).fb = (if losesFramebuffer f then forgetFramebuffer s else s).fb := by cases f <;> rfl
@[simp] theorem takeFault_cursor (f : FaultRecord) (s : State) : (takeFault f s).cursor = s.cursor := by cases f <;> rfl
@[simp] theorem takeFault_firstFrame (f : FaultRecord) (s : State) : (takeFault f s).firstFrame = s.firstFrame := by cases f <;> rfl
@[simp] theorem takeFault_w (f : FaultRecord) (s : State) : (takeFault f s).w = s.w := by cases f <;> rfl
@[simp] theorem takeFault_h (f : FaultRecord) (s : State) : (takeFault f s).h = s.h := by cases f <;> rfl
@[simp] theorem takeFault_cw (f : FaultRecord) (s : State) : (takeFault f s).cw = s.cw := by cases f <;> rfl
@[simp] theorem takeFault_ch (f : FaultRecord) (s : State) : (takeFault f s).ch = s.ch := by cases f <;> rfl
@[simp] theorem takeFault_mask (f : FaultRecord) (s : State) : (takeFault f s).mask = s.mask := by cases f <;> rfl
@[simp] theorem takeFault_color (f : FaultRecord) (s : State) : (takeFault f s).color = s.color := by cases f <;> rfl
@[simp] theorem takeFault_run (f : FaultRecord) (s : State) : (takeFault f s).run = s.run := by cases f <;> rfl
@[simp] theorem takeFault_ones (f : FaultRecord) (s : State) : (takeFault f s).ones = s.ones := by cases f <;> rfl
@[simp] theorem takeFault_value (f : FaultRecord) (s : State) : (takeFault f s).value = s.value := by cases f <;> rfl
@[simp] theorem takeFault_x (f : FaultRecord) (s : State) : (takeFault f s).x = s.x := by cases f <;> rfl
@[simp] theorem takeFault_y (f : FaultRecord) (s : State) : (takeFault f s).y = s.y := by cases f <;> rfl
@[simp] theorem takeFault_el1 (f : FaultRecord) (s : State) : (takeFault f s).el1 = s.el1 := by cases f <;> rfl
@[simp] theorem takeFault_el0 (f : FaultRecord) (s : State) : (takeFault f s).el0 = s.el0 := by cases f <;> rfl
@[simp] theorem takeFault_er1 (f : FaultRecord) (s : State) : (takeFault f s).er1 = s.er1 := by cases f <;> rfl
@[simp] theorem takeFault_er0 (f : FaultRecord) (s : State) : (takeFault f s).er0 = s.er0 := by cases f <;> rfl
@[simp] theorem takeFault_phase (f : FaultRecord) (s : State) : (takeFault f s).phase = .idle := by cases f <;> rfl
@[simp] theorem takeFault_busy (f : FaultRecord) (s : State) : (takeFault f s).busy = false := by cases f <;> rfl
@[simp] theorem takeFault_done (f : FaultRecord) (s : State) : (takeFault f s).done = s.done := by cases f <;> rfl
@[simp] theorem takeFault_ok (f : FaultRecord) (s : State) : (takeFault f s).ok = s.ok := by cases f <;> rfl
@[simp] theorem takeFault_faultRec (f : FaultRecord) (s : State) : (takeFault f s).faultRec = some (s.faultRec.getD f) := by cases f <;> rfl
@[simp] theorem takeFault_ready (f : FaultRecord) (s : State) : (takeFault f s).ready = s.ready := by cases f <;> rfl
@[simp] theorem takeFault_streamSeen (f : FaultRecord) (s : State) : (takeFault f s).streamSeen = s.streamSeen := by cases f <;> rfl
@[simp] theorem takeFault_gotColor (f : FaultRecord) (s : State) : (takeFault f s).gotColor = false := by cases f <;> rfl
@[simp] theorem takeFault_inputs (f : FaultRecord) (s : State) : (takeFault f s).inputs = s.inputs := by cases f <;> rfl
@[simp] theorem takeFault_draws (f : FaultRecord) (s : State) : (takeFault f s).draws = (if losesFramebuffer f then forgetFramebuffer s else s).draws := by cases f <;> rfl
@[simp] theorem takeFault_fbDraw (f : FaultRecord) (s : State) : (takeFault f s).fbDraw = (if losesFramebuffer f then forgetFramebuffer s else s).fbDraw := by cases f <;> rfl


end Sys2Proof.Machine
end

