-- ==== Sys2Proof/Laws/Memory.lean ====
section
/-! SUPPORT. The laws of the memory operations: what a read gives after a write, an erasure or a fill, and
that every operation keeps the canonical form. -/

namespace Sys2Proof.Machine

variable {α : Type}

/-! ## Reads after writes -/

theorem memRead_memInsert (m : List (Nat × α)) (a b : Nat) (v : α) :
    memRead (memInsert a v m) b = if b = a then some v else memRead m b := by
  induction m with
  | nil => simp [memInsert, memRead]
  | cons e m ih =>
    obtain ⟨c, u⟩ := e
    by_cases h1 : a < c
    · simp [memInsert, memRead, h1]
    · by_cases h2 : a = c
      · subst h2
        simp only [memInsert, memRead, lt_irrefl, if_false, if_true]
        split <;> rfl
      · simp only [memInsert, memRead, h1, h2, if_false, ih]
        by_cases hb : b = c
        · simp [hb, Ne.symm h2]
        · simp [hb]

theorem memRead_append (m n : List (Nat × α)) (a : Nat) :
    memRead (m ++ n) a = (memRead m a).or (memRead n a) := by
  induction m with
  | nil => simp [memRead]
  | cons e m ih =>
    obtain ⟨c, u⟩ := e
    by_cases h : a = c <;> simp [memRead, h, ih]

theorem memRead_filter (m : List (Nat × α)) (p : Nat → Bool) (a : Nat) :
    memRead (m.filter (fun e => p e.1)) a = if p a then memRead m a else none := by
  induction m with
  | nil => simp [memRead]
  | cons e m ih =>
    obtain ⟨c, u⟩ := e
    by_cases hc : p c = true
    · rw [List.filter_cons_of_pos (by simpa using hc)]
      by_cases h : a = c
      · subst h; simp [memRead, hc]
      · simp [memRead, h, ih]
    · rw [List.filter_cons_of_neg (by simpa using hc)]
      by_cases h : a = c
      · subst h; simp [ih, hc]
      · simp [memRead, h, ih]

theorem memRead_range' (lo n a : Nat) (v : α) :
    memRead ((List.range' lo n).map (fun b => (b, v))) a =
      if lo ≤ a ∧ a < lo + n then some v else none := by
  induction n generalizing lo with
  | zero => simp [memRead]
  | succ n ih =>
    rw [List.range'_succ, List.map_cons]
    by_cases h : a = lo
    · simp [memRead, h]
    · simp only [memRead, h, if_false, ih]
      refine if_congr ?_ rfl rfl
      omega

theorem memRead_memFill (m : List (Nat × α)) (lo n a : Nat) (v : α) :
    memRead (memFill m lo n v) a = if lo ≤ a ∧ a < lo + n then some v else memRead m a := by
  have h1 := memRead_filter m (fun b => decide (b < lo)) a
  have h2 := memRead_filter m (fun b => decide (lo + n ≤ b)) a
  simp only [memFill, memRead_append, memRead_range', h1, h2]
  by_cases hlo : a < lo
  · have hhi : ¬ (lo + n ≤ a) := by omega
    have hin : ¬ (lo ≤ a ∧ a < lo + n) := by omega
    simp [hlo, hhi, hin]
  · by_cases hhi : lo + n ≤ a
    · have hin : ¬ (lo ≤ a ∧ a < lo + n) := by omega
      simp [hlo, hhi, hin]
    · have hin : lo ≤ a ∧ a < lo + n := by omega
      simp [hlo, hin]

/-! ## The canonical form -/

theorem memSorted_mono {lo lo' : Nat} {m : List (Nat × α)} (h : lo' ≤ lo) (hm : memSorted lo m = true) :
    memSorted lo' m = true := by
  cases m with
  | nil => rfl
  | cons e m =>
    obtain ⟨a, v⟩ := e
    simp only [memSorted, Bool.and_eq_true, decide_eq_true_eq] at hm ⊢
    exact ⟨by omega, hm.2⟩

theorem memSorted_lb {lo : Nat} {m : List (Nat × α)} (hm : memSorted lo m = true) :
    ∀ e ∈ m, lo ≤ e.1 := by
  induction m generalizing lo with
  | nil => simp
  | cons e m ih =>
    obtain ⟨a, v⟩ := e
    simp only [memSorted, Bool.and_eq_true, decide_eq_true_eq] at hm
    intro e he
    rcases List.mem_cons.1 he with rfl | he
    · exact hm.1
    · have := ih hm.2 e he
      omega

theorem memRead_memErase {lo : Nat} {m : List (Nat × α)} (hm : memSorted lo m = true) (a b : Nat) :
    memRead (memErase a m) b = if b = a then none else memRead m b := by
  induction m generalizing lo with
  | nil => simp [memErase, memRead]
  | cons e m ih =>
    obtain ⟨c, u⟩ := e
    simp only [memSorted, Bool.and_eq_true, decide_eq_true_eq] at hm
    by_cases h : a = c
    · subst h
      simp only [memErase, if_true, memRead]
      by_cases hb : b = a
      · have : ∀ n : List (Nat × α), (∀ e ∈ n, a + 1 ≤ e.1) → memRead n a = none := by
          intro n
          induction n with
          | nil => intro _; rfl
          | cons e n ih' =>
            intro hn
            obtain ⟨d, w⟩ := e
            have := hn (d, w) (by simp)
            simp only [memRead]
            rw [if_neg (by simp only at this; omega)]
            exact ih' (fun e he => hn e (by simp [he]))
        simp only [hb, if_true]
        exact this m (memSorted_lb hm.2)
      · simp [hb]
    · simp only [memErase, h, if_false, memRead, ih hm.2]
      by_cases hb : b = c
      · simp [hb, Ne.symm h]
      · simp [hb]

theorem mem_memInsert {m : List (Nat × α)} {a : Nat} {v : α} {e : Nat × α}
    (he : e ∈ memInsert a v m) : e = (a, v) ∨ e ∈ m := by
  induction m with
  | nil => simpa [memInsert] using he
  | cons d m ih =>
    obtain ⟨c, u⟩ := d
    simp only [memInsert] at he
    split at he
    · simpa using he
    · split at he
      · rcases List.mem_cons.1 he with h | h
        · exact .inl h
        · exact .inr (by simp [h])
      · rcases List.mem_cons.1 he with h | h
        · exact .inr (by simp [h])
        · rcases ih h with h | h
          · exact .inl h
          · exact .inr (by simp [h])

theorem memSorted_memInsert {lo : Nat} {m : List (Nat × α)} (hm : memSorted lo m = true) {a : Nat} (v : α)
    (ha : lo ≤ a) : memSorted lo (memInsert a v m) = true := by
  induction m generalizing lo with
  | nil => simp [memInsert, memSorted, ha]
  | cons d m ih =>
    obtain ⟨c, u⟩ := d
    simp only [memSorted, Bool.and_eq_true, decide_eq_true_eq] at hm
    simp only [memInsert]
    split
    · rename_i h
      simp only [memSorted, Bool.and_eq_true, decide_eq_true_eq]
      exact ⟨ha, by omega, hm.2⟩
    · split
      · rename_i h
        subst h
        simp only [memSorted, Bool.and_eq_true, decide_eq_true_eq]
        exact hm
      · simp only [memSorted, Bool.and_eq_true, decide_eq_true_eq]
        exact ⟨hm.1, ih hm.2 (by omega)⟩

theorem mem_memErase {m : List (Nat × α)} {a : Nat} {e : Nat × α} (he : e ∈ memErase a m) : e ∈ m := by
  induction m with
  | nil => simp [memErase] at he
  | cons d m ih =>
    obtain ⟨c, u⟩ := d
    simp only [memErase] at he
    split at he
    · simp [he]
    · rcases List.mem_cons.1 he with h | h
      · simp [h]
      · simp [ih h]

theorem memSorted_memErase {lo : Nat} {m : List (Nat × α)} (hm : memSorted lo m = true) (a : Nat) :
    memSorted lo (memErase a m) = true := by
  induction m generalizing lo with
  | nil => rfl
  | cons d m ih =>
    obtain ⟨c, u⟩ := d
    simp only [memSorted, Bool.and_eq_true, decide_eq_true_eq] at hm
    simp only [memErase]
    split
    · exact memSorted_mono (by omega) hm.2
    · simp only [memSorted, Bool.and_eq_true, decide_eq_true_eq]
      exact ⟨hm.1, ih hm.2⟩

theorem memSorted_append {lo mid : Nat} {m n : List (Nat × α)} (hlo : lo ≤ mid)
    (hm : memSorted lo m = true) (hmid : ∀ e ∈ m, e.1 < mid) (hn : memSorted mid n = true) :
    memSorted lo (m ++ n) = true := by
  induction m generalizing lo with
  | nil => exact memSorted_mono hlo hn
  | cons d m ih =>
    obtain ⟨c, u⟩ := d
    simp only [memSorted, Bool.and_eq_true, decide_eq_true_eq, List.cons_append] at hm ⊢
    have hc : c < mid := hmid (c, u) (by simp)
    exact ⟨hm.1, ih (by omega) hm.2 (fun e he => hmid e (by simp [he]))⟩

theorem memSorted_filter {lo : Nat} {m : List (Nat × α)} (hm : memSorted lo m = true)
    (p : Nat × α → Bool) : memSorted lo (m.filter p) = true := by
  induction m generalizing lo with
  | nil => rfl
  | cons d m ih =>
    obtain ⟨c, u⟩ := d
    simp only [memSorted, Bool.and_eq_true, decide_eq_true_eq] at hm
    by_cases h : p (c, u) = true
    · rw [List.filter_cons_of_pos h]
      simp only [memSorted, Bool.and_eq_true, decide_eq_true_eq]
      exact ⟨hm.1, ih hm.2⟩
    · rw [List.filter_cons_of_neg h]
      exact memSorted_mono (by omega) (ih hm.2)

theorem memSorted_range' (lo n : Nat) (v : α) :
    memSorted lo ((List.range' lo n).map (fun b => (b, v))) = true := by
  induction n generalizing lo with
  | zero => rfl
  | succ n ih =>
    rw [List.range'_succ, List.map_cons]
    simp only [memSorted, Bool.and_eq_true, decide_eq_true_eq]
    exact ⟨le_refl lo, ih (lo + 1)⟩

theorem memSorted_of_lb {lo mid : Nat} {m : List (Nat × α)} (hm : memSorted lo m = true)
    (h : ∀ e ∈ m, mid ≤ e.1) : memSorted mid m = true := by
  cases m with
  | nil => rfl
  | cons d m =>
    obtain ⟨c, u⟩ := d
    simp only [memSorted, Bool.and_eq_true, decide_eq_true_eq] at hm ⊢
    exact ⟨h (c, u) (by simp), hm.2⟩

variable [DecidableEq α] {unlisted : Option α} {size : Nat} {m : List (Nat × α)}

theorem memOk_iff : memOk unlisted size m = true ↔
    memSorted 0 m = true ∧ ∀ e ∈ m, e.1 < size ∧ unlisted ≠ some e.2 := by
  simp [memOk]

theorem memOk_memInsert (hm : memOk unlisted size m = true) {a : Nat} {v : α} (ha : a < size)
    (hv : unlisted ≠ some v) : memOk unlisted size (memInsert a v m) = true := by
  rw [memOk_iff] at hm ⊢
  refine ⟨memSorted_memInsert hm.1 v (Nat.zero_le a), fun e he => ?_⟩
  rcases mem_memInsert he with rfl | he
  · exact ⟨ha, hv⟩
  · exact hm.2 e he

theorem memOk_memErase (hm : memOk unlisted size m = true) (a : Nat) :
    memOk unlisted size (memErase a m) = true := by
  rw [memOk_iff] at hm ⊢
  exact ⟨memSorted_memErase hm.1 a, fun e he => hm.2 e (mem_memErase he)⟩

/-- A write keeps the canonical form. -/
theorem memOk_memWrite (hm : memOk unlisted size m = true) {a : Nat} (v : α) (ha : a < size) :
    memOk unlisted size (memWrite unlisted m a v) = true := by
  unfold memWrite
  split
  · exact memOk_memErase hm a
  · rename_i h
    exact memOk_memInsert hm ha h

/-- A fill keeps the canonical form. -/
theorem memOk_memFill (hm : memOk unlisted size m = true) {lo n : Nat} {v : α} (hn : lo + n ≤ size)
    (hv : unlisted ≠ some v) : memOk unlisted size (memFill m lo n v) = true := by
  rw [memOk_iff] at hm ⊢
  constructor
  · have hhi : memSorted (lo + n) (m.filter (fun e => decide (lo + n ≤ e.1))) = true :=
      memSorted_of_lb (memSorted_filter hm.1 _) (by
        intro e he
        simpa using (List.mem_filter.1 he).2)
    have hlo : memSorted 0 (m.filter (fun e => decide (e.1 < lo))) = true := memSorted_filter hm.1 _
    have hmid := memSorted_range' lo n v
    have h1 := memSorted_append (Nat.zero_le lo) hlo
      (fun e he => by simpa using (List.mem_filter.1 he).2) hmid
    refine memSorted_append (Nat.zero_le _) h1 ?_ hhi
    intro e he
    rcases List.mem_append.1 he with he | he
    · have := (List.mem_filter.1 he).2
      simp only [decide_eq_true_eq] at this
      omega
    · obtain ⟨b, hb, rfl⟩ := List.mem_map.1 he
      have := (List.mem_range'_1.1 hb).2
      simpa using this
  · intro e he
    simp only [memFill, List.mem_append, List.mem_filter, List.mem_map] at he
    rcases he with (he | ⟨b, hb, rfl⟩) | he
    · exact hm.2 e he.1
    · exact ⟨by have := (List.mem_range'_1.1 hb).2; simp only; omega, hv⟩
    · exact hm.2 e he.1

theorem mem_memOfBytes {bs : List Byte} {lo : Nat} {e : Host.Cell} (he : e ∈ memOfBytes lo bs) :
    lo ≤ e.1 ∧ e.1 < lo + bs.length ∧ e.2 ≠ 0 := by
  induction bs generalizing lo with
  | nil => simp [memOfBytes] at he
  | cons b bs ih =>
    simp only [memOfBytes] at he
    split at he
    · have := ih he
      simp only [List.length_cons]
      exact ⟨by omega, by omega, this.2.2⟩
    · rename_i hb
      rcases List.mem_cons.1 he with rfl | he
      · simp only [List.length_cons]
        exact ⟨by omega, by omega, hb⟩
      · have := ih he
        simp only [List.length_cons]
        exact ⟨by omega, by omega, this.2.2⟩

theorem memSorted_memOfBytes (lo : Nat) (bs : List Byte) : memSorted lo (memOfBytes lo bs) = true := by
  induction bs generalizing lo with
  | nil => rfl
  | cons b bs ih =>
    simp only [memOfBytes]
    split
    · exact memSorted_mono (by omega) (ih (lo + 1))
    · simp only [memSorted, Bool.and_eq_true, decide_eq_true_eq]
      exact ⟨le_refl lo, ih (lo + 1)⟩

/-- A loaded stream is canonical. -/
theorem memOk_memOfBytes (bs : List Byte) : memOk romUnlisted bs.length (memOfBytes 0 bs) = true := by
  rw [memOk_iff]
  refine ⟨memSorted_memOfBytes 0 bs, fun e he => ?_⟩
  have h := mem_memOfBytes he
  refine ⟨by omega, fun h0 => h.2.2 ?_⟩
  simp only [romUnlisted, Option.some.injEq] at h0
  exact h0.symm

/-- What a loaded stream reads as, byte by byte. -/
theorem memRead_memOfBytes (bs : List Byte) (lo i : Nat) :
    (memRead (memOfBytes lo bs) (lo + i)).getD 0 = bs.getD i 0 := by
  have none_below : ∀ (bs : List Byte) (lo a : Nat), a < lo → memRead (memOfBytes lo bs) a = none := by
    intro bs
    induction bs with
    | nil => intro lo a _; rfl
    | cons b bs ih =>
      intro lo a h
      simp only [memOfBytes]
      split
      · exact ih (lo + 1) a (by omega)
      · simp only [memRead]
        rw [if_neg (by omega)]
        exact ih (lo + 1) a (by omega)
  induction bs generalizing lo i with
  | nil => simp [memOfBytes, memRead]
  | cons b bs ih =>
    cases i with
    | zero =>
      simp only [memOfBytes]
      split
      · rename_i hb
        rw [none_below bs (lo + 1) (lo + 0) (by omega)]
        simp [hb]
      · simp [memRead]
    | succ i =>
      have h := ih (lo + 1) i
      have e : lo + 1 + i = lo + (i + 1) := by omega
      rw [e] at h
      simp only [memOfBytes]
      split
      · simpa using h
      · simp only [memRead]
        rw [if_neg (by omega)]
        simpa using h

/-- The memory of the state after reset is canonical. -/
theorem reset_memory_wf : Memory.wf State.reset = true := by decide

end Sys2Proof.Machine
end

