-- ==== Sys2Proof/Laws/Ops.lean ====
section
/-! SUPPORT. The laws of the named operations: framebuffer reads after writes and fills, the canonical form
under each of them, and what the bit reader's window holds. -/

namespace Sys2Proof.Machine

/-! ## Pixel numbers -/

theorem pixelAddr_inj {s : State} {x y x' y' : Nat} (hy : y < s.dispH) (hy' : y' < s.dispH) :
    pixelAddr s x y = pixelAddr s x' y' ↔ x = x' ∧ y = y' := by
  unfold pixelAddr
  constructor
  · intro h
    have h1 : (x * s.dispH + y) % s.dispH = (x' * s.dispH + y') % s.dispH := by rw [h]
    rw [Nat.mul_comm x, Nat.mul_comm x', Nat.mul_add_mod, Nat.mul_add_mod, Nat.mod_eq_of_lt hy,
      Nat.mod_eq_of_lt hy'] at h1
    subst h1
    have hpos : 0 < s.dispH := by omega
    exact ⟨Nat.eq_of_mul_eq_mul_right hpos (by omega), rfl⟩
  · rintro ⟨rfl, rfl⟩
    rfl

theorem pixelAddr_lt {s : State} {x y : Nat} (hx : x < s.dispW) (hy : y < s.dispH) :
    pixelAddr s x y < s.dispW * s.dispH := by
  unfold pixelAddr
  calc x * s.dispH + y < x * s.dispH + s.dispH := by omega
    _ = (x + 1) * s.dispH := by rw [Nat.add_mul, Nat.one_mul]
    _ ≤ s.dispW * s.dispH := Nat.mul_le_mul_right _ hx

theorem column_le_pixelAddr {s : State} {x x' y : Nat} (hy : y < s.dispH) :
    x * s.dispH ≤ pixelAddr s x' y ↔ x ≤ x' := by
  unfold pixelAddr
  constructor
  · intro h
    by_contra hlt
    have : (x' + 1) * s.dispH ≤ x * s.dispH := Nat.mul_le_mul_right _ (by omega)
    rw [Nat.add_mul, Nat.one_mul] at this
    omega
  · intro h
    have := Nat.mul_le_mul_right s.dispH h
    omega

/-! ## Reads after writes -/

/-- The pixel written reads as the colour written (R66, R67). -/
theorem fbRead_fbWrite_self (s : State) (x y : Nat) (c : Bool) : fbRead (fbWrite s x y c) x y = c := by
  unfold fbRead
  have h : pixelAddr (fbWrite s x y c) x y = pixelAddr s x y := rfl
  rw [h, fbWrite_fb, memWrite]
  simp [fbUnlisted, memRead_memInsert]

/-- Every other pixel reads as before (R66). -/
theorem fbRead_fbWrite_other (s : State) {x y x' y' : Nat} (c : Bool) (hy : y < s.dispH)
    (hy' : y' < s.dispH) (h : ¬ (x' = x ∧ y' = y)) :
    fbRead (fbWrite s x y c) x' y' = fbRead s x' y' := by
  unfold fbRead
  have h1 : pixelAddr (fbWrite s x y c) x' y' = pixelAddr s x' y' := rfl
  have h2 : pixelAddr s x' y' ≠ pixelAddr s x y := by
    rw [Ne, pixelAddr_inj hy' hy]
    exact h
  rw [h1, fbWrite_fb, memWrite, fbWrite_fbDraw]
  simp [fbUnlisted, memRead_memInsert, h2]

/-- A fill of columns: their pixels read as the colour, all others as before (R200, R202). -/
theorem fbRead_fbFillColumns (s : State) (x n : Nat) (c : Bool) {x' y' : Nat} (hy' : y' < s.dispH) :
    fbRead (fbFillColumns s x n c) x' y' =
      if x ≤ x' ∧ x' < x + n then c else fbRead s x' y' := by
  unfold fbRead
  have h1 : pixelAddr (fbFillColumns s x n c) x' y' = pixelAddr s x' y' := rfl
  have h2 : x * s.dispH + n * s.dispH = (x + n) * s.dispH := (Nat.add_mul x n s.dispH).symm
  have h3 : pixelAddr s x' y' < (x + n) * s.dispH ↔ x' < x + n := by
    rw [← not_le, column_le_pixelAddr hy', not_le]
  rw [h1, fbFillColumns_fb, fbFillColumns_fbDraw, memRead_memFill, h2]
  simp only [column_le_pixelAddr hy', h3]
  split <;> rfl

/-- A read depends on the framebuffer, its draw and the display's height alone. -/
theorem fbRead_congr {s t : State} (hfb : t.fb = s.fb) (hd : t.fbDraw = s.fbDraw)
    (hh : t.dispH = s.dispH) (x y : Nat) : fbRead t x y = fbRead s x y := by
  unfold fbRead pixelAddr
  rw [hfb, hd, hh]

/-- The scan order lists exactly the pixels of the frame (R13, R174). -/
theorem mem_scanOrder {w h : Nat} {p : Nat × Nat} : p ∈ scanOrder w h ↔ p.1 < w ∧ p.2 < h := by
  obtain ⟨x, y⟩ := p
  simp [scanOrder]

/-- A bit of the packed view that holds a pixel reads as some pixel that lies there (R68). -/
theorem physBit_of_place {s : State} {x y a i : Nat} (hx : x < s.dispW) (hy : y < s.dispH)
    (h : pixelPlace s x y = (a, i)) :
    ∃ x' y', x' < s.dispW ∧ y' < s.dispH ∧ pixelPlace s x' y' = (a, i) ∧ physBit s a i = fbRead s x' y' := by
  cases hf : (scanOrder s.dispW s.dispH).find? (fun p => pixelPlace s p.1 p.2 == (a, i)) with
  | none =>
    have := List.find?_eq_none.1 hf (x, y) (mem_scanOrder.2 ⟨hx, hy⟩)
    simp [h] at this
  | some p =>
    have hm := mem_scanOrder.1 (List.mem_of_find?_eq_some hf)
    have hp := List.find?_some hf
    exact ⟨p.1, p.2, hm.1, hm.2, by simpa using hp, by simp [physBit, hf]⟩

/-! ## The canonical form of both memories -/

theorem wf_iff {s : State} : Memory.wf s = true ↔
    memOk romUnlisted s.romLen s.rom = true ∧ memOk fbUnlisted (s.dispW * s.dispH) s.fb = true := by
  simp [Memory.wf]

/-- The form depends on the memories and the display size alone. -/
theorem wf_congr {s t : State} (hr : t.rom = s.rom) (hl : t.romLen = s.romLen) (hf : t.fb = s.fb)
    (hw : t.dispW = s.dispW) (hh : t.dispH = s.dispH) (hs : Memory.wf s = true) :
    Memory.wf t = true := by
  rw [wf_iff] at hs ⊢
  rw [hr, hl, hf, hw, hh]
  exact hs

theorem fbWrite_wf {s : State} {x y : Nat} (c : Bool) (hs : Memory.wf s = true) (hx : x < s.dispW)
    (hy : y < s.dispH) : Memory.wf (fbWrite s x y c) = true := by
  rw [wf_iff] at hs ⊢
  exact ⟨hs.1, memOk_memWrite hs.2 c (pixelAddr_lt hx hy)⟩

theorem fbFillColumns_wf {s : State} {x n : Nat} (c : Bool) (hs : Memory.wf s = true)
    (hn : x + n ≤ s.dispW) : Memory.wf (fbFillColumns s x n c) = true := by
  rw [wf_iff] at hs ⊢
  refine ⟨hs.1, memOk_memFill hs.2 ?_ (by simp [fbUnlisted])⟩
  rw [← Nat.add_mul]
  exact Nat.mul_le_mul_right _ hn

theorem forgetFramebuffer_wf {s : State} (hs : Memory.wf s = true) :
    Memory.wf (forgetFramebuffer s) = true := by
  rw [wf_iff] at hs ⊢
  exact ⟨hs.1, by simp [forgetFramebuffer, memOk, memSorted]⟩

theorem takeFault_wf (f : FaultRecord) {s : State} (hs : Memory.wf s = true) :
    Memory.wf (takeFault f s) = true := by
  have h : Memory.wf (if losesFramebuffer f then forgetFramebuffer s else s) = true := by
    split
    · exact forgetFramebuffer_wf hs
    · exact hs
  exact h

/-! ## Taking a fault -/

/-- After F4 or F5 every pixel is the arbitrary bit of one new draw (R262). -/
theorem takeFault_framebuffer {f : FaultRecord} (hf : losesFramebuffer f = true) (s : State) (x y : Nat) :
    fbRead (takeFault f s) x y = Config.freePixel (s.draws + 1) x y := by
  unfold fbRead
  simp [hf, forgetFramebuffer, memRead]

/-! ## The bit reader -/

theorem romBit_isSome {s : State} {p : Nat} : (romBit s p).isSome = true ↔ p < 8 * s.romLen := by
  unfold romBit romRead
  split
  · simp; omega
  · simp; omega

theorem romBit_eq_none {s : State} {p : Nat} : romBit s p = none ↔ 8 * s.romLen ≤ p := by
  rw [← Option.not_isSome_iff_eq_none, romBit_isSome, not_lt]

/-- A window holds as many bits as asked for, or as are left. -/
theorem streamBits_length (s : State) (p n : Nat) :
    (streamBits s p n).length = min n (8 * s.romLen - p) := by
  induction n generalizing p with
  | zero => simp [streamBits]
  | succ n ih =>
    unfold streamBits
    cases h : romBit s p with
    | none =>
      have := romBit_eq_none.1 h
      simp only [List.length_nil]
      omega
    | some b =>
      have : p < 8 * s.romLen := romBit_isSome.1 (by simp [h])
      simp only [List.length_cons, ih]
      omega

/-- The window's bits are the stream's bits in order (R70). -/
theorem streamBits_getElem? (s : State) (p n i : Nat) (hi : i < n) :
    (streamBits s p n)[i]? = romBit s (p + i) := by
  induction n generalizing p i with
  | zero => omega
  | succ n ih =>
    unfold streamBits
    cases h : romBit s p with
    | none =>
      have h1 := romBit_eq_none.1 h
      have h2 : romBit s (p + i) = none := romBit_eq_none.2 (by omega)
      simp [h2]
    | some b =>
      cases i with
      | zero => simp [h]
      | succ i =>
        have := ih (p + 1) i (by omega)
        rw [show p + 1 + i = p + (i + 1) by omega] at this
        simpa using this

end Sys2Proof.Machine
end

