-- ==== Sys2Proof/Laws/Scan.lean ====
section
/-! SUPPORT. The scan (R173): the one induction over its turns, what it leaves unchanged, and that it keeps
the canonical form. -/

namespace Sys2Proof.Machine

/-- What every kind of turn keeps, the scan keeps. -/
theorem scan_induction {P : State → Prop}
    (hnext : ∀ s, P s → s.x < s.w → s.h ≤ s.y → P { s with x := s.x + 1, y := 0 })
    (hskip : ∀ s, P s → s.x < s.w → s.y < s.h → bandSkipped s = true → P { s with y := s.y + s.ch })
    (hpaint : ∀ s, P s → s.x < s.w → s.y < s.h → bandSkipped s = false → s.run ≠ 0 → P (paintPixel s))
    (hend : ∀ s, P s → s.w ≤ s.x → P { s with phase := .sample })
    (n : Nat) (s : State) (hs : P s) : P (scan n s) := by
  induction n generalizing s with
  | zero => exact hs
  | succ n ih =>
    unfold scan
    split
    · exact hend s hs ‹_›
    · split
      · exact ih _ (hnext s hs (by omega) ‹_›)
      · split
        · exact ih _ (hskip s hs (by omega) (by omega) ‹_›)
        · split
          · exact hs
          · exact ih _ (hpaint s hs (by omega) (by omega) (by simp_all) ‹_›)

/-- Everything the scan leaves unchanged. -/
structure ScanFrame (s t : State) : Prop where
  dispW : t.dispW = s.dispW
  dispH : t.dispH = s.dispH
  addrW : t.addrW = s.addrW
  fbLayout : t.fbLayout = s.fbLayout
  rom : t.rom = s.rom
  romLen : t.romLen = s.romLen
  cursor : t.cursor = s.cursor
  firstFrame : t.firstFrame = s.firstFrame
  w : t.w = s.w
  h : t.h = s.h
  cw : t.cw = s.cw
  ch : t.ch = s.ch
  mask : t.mask = s.mask
  color : t.color = s.color
  ones : t.ones = s.ones
  value : t.value = s.value
  el1 : t.el1 = s.el1
  el0 : t.el0 = s.el0
  er1 : t.er1 = s.er1
  er0 : t.er0 = s.er0
  busy : t.busy = s.busy
  done : t.done = s.done
  ok : t.ok = s.ok
  faultRec : t.faultRec = s.faultRec
  ready : t.ready = s.ready
  streamSeen : t.streamSeen = s.streamSeen
  gotColor : t.gotColor = s.gotColor
  inputs : t.inputs = s.inputs
  draws : t.draws = s.draws
  fbDraw : t.fbDraw = s.fbDraw

theorem scan_frame (n : Nat) (s : State) : ScanFrame s (scan n s) := by
  refine scan_induction (P := fun t => ScanFrame s t) ?_ ?_ ?_ ?_ n s ?_
  · exact fun t h _ _ => { h with }
  · exact fun t h _ _ _ => { h with }
  · exact fun t h _ _ _ _ => { h with }
  · exact fun t h _ => { h with }
  · constructor <;> rfl

@[simp] theorem scan_dispW (n : Nat) (s : State) : (scan n s).dispW = s.dispW := (scan_frame n s).dispW
@[simp] theorem scan_dispH (n : Nat) (s : State) : (scan n s).dispH = s.dispH := (scan_frame n s).dispH
@[simp] theorem scan_addrW (n : Nat) (s : State) : (scan n s).addrW = s.addrW := (scan_frame n s).addrW
@[simp] theorem scan_fbLayout (n : Nat) (s : State) : (scan n s).fbLayout = s.fbLayout := (scan_frame n s).fbLayout
@[simp] theorem scan_rom (n : Nat) (s : State) : (scan n s).rom = s.rom := (scan_frame n s).rom
@[simp] theorem scan_romLen (n : Nat) (s : State) : (scan n s).romLen = s.romLen := (scan_frame n s).romLen
@[simp] theorem scan_cursor (n : Nat) (s : State) : (scan n s).cursor = s.cursor := (scan_frame n s).cursor
@[simp] theorem scan_firstFrame (n : Nat) (s : State) : (scan n s).firstFrame = s.firstFrame := (scan_frame n s).firstFrame
@[simp] theorem scan_w (n : Nat) (s : State) : (scan n s).w = s.w := (scan_frame n s).w
@[simp] theorem scan_h (n : Nat) (s : State) : (scan n s).h = s.h := (scan_frame n s).h
@[simp] theorem scan_cw (n : Nat) (s : State) : (scan n s).cw = s.cw := (scan_frame n s).cw
@[simp] theorem scan_ch (n : Nat) (s : State) : (scan n s).ch = s.ch := (scan_frame n s).ch
@[simp] theorem scan_mask (n : Nat) (s : State) : (scan n s).mask = s.mask := (scan_frame n s).mask
@[simp] theorem scan_color (n : Nat) (s : State) : (scan n s).color = s.color := (scan_frame n s).color
@[simp] theorem scan_ones (n : Nat) (s : State) : (scan n s).ones = s.ones := (scan_frame n s).ones
@[simp] theorem scan_value (n : Nat) (s : State) : (scan n s).value = s.value := (scan_frame n s).value
@[simp] theorem scan_el1 (n : Nat) (s : State) : (scan n s).el1 = s.el1 := (scan_frame n s).el1
@[simp] theorem scan_el0 (n : Nat) (s : State) : (scan n s).el0 = s.el0 := (scan_frame n s).el0
@[simp] theorem scan_er1 (n : Nat) (s : State) : (scan n s).er1 = s.er1 := (scan_frame n s).er1
@[simp] theorem scan_er0 (n : Nat) (s : State) : (scan n s).er0 = s.er0 := (scan_frame n s).er0
@[simp] theorem scan_busy (n : Nat) (s : State) : (scan n s).busy = s.busy := (scan_frame n s).busy
@[simp] theorem scan_done (n : Nat) (s : State) : (scan n s).done = s.done := (scan_frame n s).done
@[simp] theorem scan_ok (n : Nat) (s : State) : (scan n s).ok = s.ok := (scan_frame n s).ok
@[simp] theorem scan_faultRec (n : Nat) (s : State) : (scan n s).faultRec = s.faultRec := (scan_frame n s).faultRec
@[simp] theorem scan_ready (n : Nat) (s : State) : (scan n s).ready = s.ready := (scan_frame n s).ready
@[simp] theorem scan_streamSeen (n : Nat) (s : State) : (scan n s).streamSeen = s.streamSeen := (scan_frame n s).streamSeen
@[simp] theorem scan_gotColor (n : Nat) (s : State) : (scan n s).gotColor = s.gotColor := (scan_frame n s).gotColor
@[simp] theorem scan_inputs (n : Nat) (s : State) : (scan n s).inputs = s.inputs := (scan_frame n s).inputs
@[simp] theorem scan_draws (n : Nat) (s : State) : (scan n s).draws = s.draws := (scan_frame n s).draws
@[simp] theorem scan_fbDraw (n : Nat) (s : State) : (scan n s).fbDraw = s.fbDraw := (scan_frame n s).fbDraw

@[simp] theorem runScan_dispW (s : State) : (runScan s).dispW = s.dispW := scan_dispW _ s
@[simp] theorem runScan_dispH (s : State) : (runScan s).dispH = s.dispH := scan_dispH _ s
@[simp] theorem runScan_addrW (s : State) : (runScan s).addrW = s.addrW := scan_addrW _ s
@[simp] theorem runScan_fbLayout (s : State) : (runScan s).fbLayout = s.fbLayout := scan_fbLayout _ s
@[simp] theorem runScan_rom (s : State) : (runScan s).rom = s.rom := scan_rom _ s
@[simp] theorem runScan_romLen (s : State) : (runScan s).romLen = s.romLen := scan_romLen _ s
@[simp] theorem runScan_cursor (s : State) : (runScan s).cursor = s.cursor := scan_cursor _ s
@[simp] theorem runScan_firstFrame (s : State) : (runScan s).firstFrame = s.firstFrame := scan_firstFrame _ s
@[simp] theorem runScan_w (s : State) : (runScan s).w = s.w := scan_w _ s
@[simp] theorem runScan_h (s : State) : (runScan s).h = s.h := scan_h _ s
@[simp] theorem runScan_cw (s : State) : (runScan s).cw = s.cw := scan_cw _ s
@[simp] theorem runScan_ch (s : State) : (runScan s).ch = s.ch := scan_ch _ s
@[simp] theorem runScan_mask (s : State) : (runScan s).mask = s.mask := scan_mask _ s
@[simp] theorem runScan_color (s : State) : (runScan s).color = s.color := scan_color _ s
@[simp] theorem runScan_ones (s : State) : (runScan s).ones = s.ones := scan_ones _ s
@[simp] theorem runScan_value (s : State) : (runScan s).value = s.value := scan_value _ s
@[simp] theorem runScan_el1 (s : State) : (runScan s).el1 = s.el1 := scan_el1 _ s
@[simp] theorem runScan_el0 (s : State) : (runScan s).el0 = s.el0 := scan_el0 _ s
@[simp] theorem runScan_er1 (s : State) : (runScan s).er1 = s.er1 := scan_er1 _ s
@[simp] theorem runScan_er0 (s : State) : (runScan s).er0 = s.er0 := scan_er0 _ s
@[simp] theorem runScan_busy (s : State) : (runScan s).busy = s.busy := scan_busy _ s
@[simp] theorem runScan_done (s : State) : (runScan s).done = s.done := scan_done _ s
@[simp] theorem runScan_ok (s : State) : (runScan s).ok = s.ok := scan_ok _ s
@[simp] theorem runScan_faultRec (s : State) : (runScan s).faultRec = s.faultRec := scan_faultRec _ s
@[simp] theorem runScan_ready (s : State) : (runScan s).ready = s.ready := scan_ready _ s
@[simp] theorem runScan_streamSeen (s : State) : (runScan s).streamSeen = s.streamSeen := scan_streamSeen _ s
@[simp] theorem runScan_gotColor (s : State) : (runScan s).gotColor = s.gotColor := scan_gotColor _ s
@[simp] theorem runScan_inputs (s : State) : (runScan s).inputs = s.inputs := scan_inputs _ s
@[simp] theorem runScan_draws (s : State) : (runScan s).draws = s.draws := scan_draws _ s
@[simp] theorem runScan_fbDraw (s : State) : (runScan s).fbDraw = s.fbDraw := scan_fbDraw _ s

theorem geometryOk_iff {s : State} : geometryOk s = true ↔
    s.w ≤ s.dispW ∧ s.h ≤ s.dispH ∧ s.cw = ceilDiv8 s.w ∧ s.ch = ceilDiv8 s.h := by
  simp [geometryOk, and_assoc]

/-- The geometry depends on the dimension and chunk registers and the display alone. -/
theorem geometryOk_congr {s t : State} (h1 : t.w = s.w) (h2 : t.h = s.h) (h3 : t.cw = s.cw)
    (h4 : t.ch = s.ch) (h5 : t.dispW = s.dispW) (h6 : t.dispH = s.dispH) :
    geometryOk t = geometryOk s := by
  unfold geometryOk
  rw [h1, h2, h3, h4, h5, h6]

/-- A frame column's display column exists (R180). -/
theorem offX_add_lt {s : State} (h : s.w ≤ s.dispW) {x : Nat} (hx : x < s.w) :
    offX s + x < s.dispW := by
  unfold offX
  omega

/-- A frame row's display row exists (R180). -/
theorem offY_add_lt {s : State} (h : s.h ≤ s.dispH) {y : Nat} (hy : y < s.h) :
    offY s + y < s.dispH := by
  unfold offY
  omega

/-- The scan keeps the canonical form. -/
theorem scan_wf {s : State} (hg : geometryOk s = true) (hs : Memory.wf s = true) (n : Nat) :
    Memory.wf (scan n s) = true := by
  have key : Memory.wf (scan n s) = true ∧ geometryOk (scan n s) = true := by
    refine scan_induction (P := fun t => Memory.wf t = true ∧ geometryOk t = true)
      ?_ ?_ ?_ ?_ n s ⟨hs, hg⟩
    · exact fun t h _ _ => h
    · exact fun t h _ _ _ => h
    · intro t h hx hy _ _
      have hg' := geometryOk_iff.1 h.2
      refine ⟨?_, h.2⟩
      exact wf_congr (s := fbWrite t (offX t + t.x) (offY t + t.y) t.color) rfl rfl rfl rfl rfl
        (fbWrite_wf _ h.1 (offX_add_lt hg'.1 hx) (offY_add_lt hg'.2.1 hy))
    · exact fun t h _ => h
  exact key.1

end Sys2Proof.Machine
end

