-- ==== Sys2Proof/Laws/Cases.lean ====
section
/-! SUPPORT. Once for each meaning and each shared operation of the controller, everything it can do when
it answers a next state; and the induction over an operation's steps. -/

namespace Sys2Proof.Machine

/-! ## The tokens -/

theorem execDims_next {w h : Byte} {s t : State} (e : execDims w h s = .next t) :
    expectsDims s = true ∧
    ((w.toNat = 0 ∨ h.toNat = 0) ∧
        t = takeFault (.badDimensions w.toNat h.toNat) { s with w := w.toNat, h := h.toNat } ∨
      ¬ (w.toNat = 0 ∨ h.toNat = 0) ∧ (s.dispW < w.toNat ∨ s.dispH < h.toNat) ∧
        t = takeFault (.frameExceedsDisplay w.toNat h.toNat) { s with w := w.toNat, h := h.toNat } ∨
      ¬ (w.toNat = 0 ∨ h.toNat = 0) ∧ ¬ (s.dispW < w.toNat ∨ s.dispH < h.toNat) ∧
        t = completeReset { s with w := w.toNat, h := h.toNat }) := by
  unfold execDims at e
  split at e
  · rename_i hx
    refine ⟨hx, ?_⟩
    dsimp only at e
    split at e
    · rename_i h0
      cases e
      exact .inl ⟨h0, rfl⟩
    · rename_i h0
      split at e
      · rename_i h1
        cases e
        exact .inr (.inl ⟨h0, h1, rfl⟩)
      · rename_i h1
        cases e
        exact .inr (.inr ⟨h0, h1, rfl⟩)
  · cases e

theorem execMask_next {m : MaskWord} {s t : State} (e : execMask m s = .next t) :
    expectsMask s = true ∧
    (m = 0 ∧ t = finish true { s with mask := m, cursor := s.cursor + 64 } ∨
      m ≠ 0 ∧
        t = { s with mask := m, cursor := s.cursor + 64, phase := .color, gotColor := false }) := by
  unfold execMask at e
  split at e
  · rename_i hx
    refine ⟨hx, ?_⟩
    dsimp only at e
    split at e
    · rename_i h0
      cases e
      exact .inl ⟨h0, rfl⟩
    · rename_i h0
      cases e
      exact .inr ⟨h0, rfl⟩
  · cases e

theorem execPad_next {n : Nat} {s t : State} (e : execPad n s = .next t) :
    expectsMask s = true ∧ t = finish false s := by
  unfold execPad at e
  split at e
  · cases e
    exact ⟨‹_›, rfl⟩
  · cases e

theorem execColor_next {c : Bool} {s t : State} (e : execColor c s = .next t) :
    expectsColor s = true ∧ t = { s with color := c, cursor := s.cursor + 1, gotColor := true } := by
  unfold execColor at e
  split at e
  · cases e
    exact ⟨‹_›, rfl⟩
  · cases e

theorem execRunGroup_next {g v : Nat} {s t : State} (e : execRunGroup g v s = .next t) :
    expectsRun s = true ∧ geometryOk s = true ∧ t = runScan (loadRun g v s) := by
  unfold execRunGroup at e
  split at e
  · split at e
    · cases e
      exact ⟨‹_›, ‹_›, rfl⟩
    · cases e
  · cases e

theorem execRunRsv_next {s t : State} (e : execRunRsv s = .next t) :
    expectsRun s = true ∧
    t = takeFault (.reservedRunGroup (s.cursor + 6))
      { beginRun s with cursor := s.cursor + 6, ones := 6 } := by
  unfold execRunRsv at e
  split at e
  · cases e
    exact ⟨‹_›, rfl⟩
  · cases e

/-- A RUN token's value field fits its group (R97). -/
def RunField (i : Instr) (g v : Nat) : Prop :=
  match i with
  | .runG1 u => g = 1 ∧ v = u.toNat
  | .runG2 u => g = 2 ∧ v = u.toNat
  | .runG3 u => g = 3 ∧ v = u.toNat
  | .runG4 u => g = 4 ∧ v = u.toNat
  | .runG5 u => g = 5 ∧ v = u.toNat
  | .runG6 u => g = 6 ∧ v = u.toNat
  | _ => False

theorem RunField.bounds {i : Instr} {g v : Nat} (h : RunField i g v) :
    1 ≤ g ∧ g ≤ 6 ∧ v < 2 ^ (3 * g) := by
  cases i <;> simp only [RunField] at h <;> obtain ⟨rfl, rfl⟩ := h <;>
    refine ⟨by decide, by decide, ?_⟩ <;> exact BitVec.isLt _

/-- A run length is between 1 and `RUN_MAX` (R141). -/
theorem runLength_bounds {g v : Nat} (h1 : 1 ≤ g) (h6 : g ≤ 6) (hv : v < 2 ^ (3 * g)) :
    1 ≤ runLength g v ∧ runLength g v ≤ Config.runMax := by
  have hg : g = 1 ∨ g = 2 ∨ g = 3 ∨ g = 4 ∨ g = 5 ∨ g = 6 := by omega
  rcases hg with rfl | rfl | rfl | rfl | rfl | rfl <;>
    simp [runLength, groupOffset, Config.offset, Config.runMax] at hv ⊢ <;> omega

/-- What a token can do when it answers a next state. -/
theorem execToken_next {i : Instr} {s t : State} (e : execToken i s = .next t) :
    (∃ w h, i = .dims w h ∧ execDims w h s = .next t) ∨
    (∃ m, i = .mask m ∧ execMask m s = .next t) ∨
    (∃ n, i = .pad n ∧ execPad n s = .next t) ∨
    (∃ c, i = .color c ∧ execColor c s = .next t) ∨
    (∃ g v, RunField i g v ∧ execRunGroup g v s = .next t) ∨
    (i = .runRsv ∧ execRunRsv s = .next t) := by
  cases i with
  | dims w h => exact .inl ⟨w, h, rfl, e⟩
  | mask m => exact .inr (.inl ⟨m, rfl, e⟩)
  | pad n => exact .inr (.inr (.inl ⟨n, rfl, e⟩))
  | color c => exact .inr (.inr (.inr (.inl ⟨c, rfl, e⟩)))
  | runG1 v => exact .inr (.inr (.inr (.inr (.inl ⟨1, v.toNat, ⟨rfl, rfl⟩, e⟩))))
  | runG2 v => exact .inr (.inr (.inr (.inr (.inl ⟨2, v.toNat, ⟨rfl, rfl⟩, e⟩))))
  | runG3 v => exact .inr (.inr (.inr (.inr (.inl ⟨3, v.toNat, ⟨rfl, rfl⟩, e⟩))))
  | runG4 v => exact .inr (.inr (.inr (.inr (.inl ⟨4, v.toNat, ⟨rfl, rfl⟩, e⟩))))
  | runG5 v => exact .inr (.inr (.inr (.inr (.inl ⟨5, v.toNat, ⟨rfl, rfl⟩, e⟩))))
  | runG6 v => exact .inr (.inr (.inr (.inr (.inl ⟨6, v.toNat, ⟨rfl, rfl⟩, e⟩))))
  | runRsv => exact .inr (.inr (.inr (.inr (.inr ⟨rfl, e⟩))))
  | reset b => cases e
  | decodeNextFrame => cases e

/-- A token's meaning is the same inside an operation and as an instruction. -/
theorem execToken_eq_exec {i : Instr} (hi : i.context ≠ .ctrl) (s : State) : execToken i s = exec i s := by
  cases i <;> first | rfl | exact absurd rfl hi

/-! ## Decoding, by context -/

/-- The decoder answers an instruction of the context it was asked in. -/
theorem decode_context {c : Context} {bits rest : List Bool} {i : Instr}
    (h : decode c bits = .ok i rest) : i.context = c := by
  cases c with
  | dims =>
    simp only [decode, decodeDims] at h
    split at h
    · cases h
    · cases h; rfl
  | mask =>
    simp only [decode, decodeMask] at h
    split at h <;> cases h <;> rfl
  | color =>
    cases bits with
    | nil => cases h
    | cons b bs => cases h; rfl
  | run =>
    simp only [decode, decodeRun] at h
    split at h
    · cases h
    · cases h; rfl
    · split at h
      · cases h
      · cases h
        unfold runToken
        split <;> rfl
  | ctrl =>
    match bits, h with
    | true :: b :: bs, h => cases h; rfl
    | false :: true :: bs, h => cases h; rfl
    | false :: false :: bs, h => cases h
    | [b], h => cases b <;> cases h
    | [], h => cases h

/-- Only the control sample `00` is no operation. -/
theorem decode_noOperation {c : Context} {bits : List Bool} (h : decode c bits = .error .noOperation) :
    c = .ctrl := by
  cases c with
  | dims => simp only [decode, decodeDims] at h; split at h <;> cases h
  | mask => simp only [decode, decodeMask] at h; split at h <;> cases h
  | color => cases bits <;> cases h
  | run =>
    simp only [decode, decodeRun] at h
    split at h
    · cases h
    · cases h
    · split at h <;> cases h
  | ctrl => rfl

theorem tokenContext_ne_ctrl {s : State} : tokenContext s ≠ some .ctrl := by
  unfold tokenContext
  split
  · simp
  · split <;> simp
  · split <;> simp
  · split <;> simp
  · simp
  · simp
  · simp

/-! ## Fetching -/

theorem fetchToken_run {s t : State} {i : Instr} (h : fetchToken s = .run i t) :
    t = s ∧ ∃ c rest, tokenContext s = some c ∧ decode c (tokenWindow c s) = .ok i rest := by
  unfold fetchToken at h
  split at h
  · cases h
  · rename_i c hc
    split at h
    · rename_i j rest hd
      cases h
      exact ⟨rfl, c, rest, hc, hd⟩
    · cases h
    · cases h

/-- A busy step is one step of the operation in progress. -/
theorem step_busy {s : State} (h : s.busy = true) : step s = busyStep s := by
  unfold step busyStep fetch
  rw [if_pos h]
  cases hf : fetchToken s with
  | done o => rfl
  | run i t =>
    obtain ⟨_, c, rest, hc, hd⟩ := fetchToken_run hf
    have hi : i.context ≠ .ctrl := by
      rw [decode_context hd]
      intro hcc
      exact tokenContext_ne_ctrl (hcc ▸ hc)
    exact (execToken_eq_exec hi t).symm

theorem internalStep_next {s t : State} (e : internalStep s = .next t) :
    (s.phase = .header ∧ t = loadFullMask s) ∨
    geometryOk s = true ∧
    (s.phase = .scan ∧ t = runScan s ∨ s.phase = .sample ∧ t = sampleEdges s ∨
      s.phase = .fillL ∧ t = fillLeft s ∨ s.phase = .fillR ∧ t = fillRight s) := by
  unfold internalStep at e
  split at e
  · cases e
    exact .inl ⟨‹_›, rfl⟩
  · split at e
    · rename_i hg
      refine .inr ⟨hg, ?_⟩
      cases hp : s.phase <;> rw [hp] at e <;> cases e <;> simp
    · cases e

/-- What a step of an operation can do when it answers a next state. -/
theorem busyStep_next {s t : State} (e : busyStep s = .next t) :
    (∃ i c rest, tokenContext s = some c ∧ decode c (tokenWindow c s) = .ok i rest ∧
      execToken i s = .next t) ∨
    (∃ c consumed ones, tokenContext s = some c ∧
      decode c (tokenWindow c s) = .error (.overrun consumed ones) ∧ t = overrunIn c consumed ones s) ∨
    (tokenContext s = none ∧ internalStep s = .next t) := by
  unfold busyStep at e
  cases hf : fetchToken s with
  | run i u =>
    obtain ⟨rfl, c, rest, hc, hd⟩ := fetchToken_run hf
    rw [hf] at e
    exact .inl ⟨i, c, rest, hc, hd, e⟩
  | done o =>
    rw [hf] at e
    dsimp only at e
    subst e
    unfold fetchToken at hf
    split at hf
    · rename_i hc
      injection hf with hf
      exact .inr (.inr ⟨hc, hf⟩)
    · rename_i c hc
      split at hf
      · cases hf
      · rename_i consumed ones hd
        cases hf
        exact .inr (.inl ⟨c, consumed, ones, hc, hd, rfl⟩)
      · cases hf

/-- What every busy step keeps, an operation keeps. -/
theorem runOperation_induction {P : State → Prop}
    (hstep : ∀ s t, s.busy = true → P s → busyStep s = .next t → P t)
    (n : Nat) {s t : State} (hs : P s) (e : runOperation n s = .next t) : P t := by
  induction n generalizing s with
  | zero => cases e; exact hs
  | succ n ih =>
    unfold runOperation at e
    split at e
    · rename_i hb
      split at e
      · rename_i u hu
        exact ih (hstep s u hb hs hu) e
      · cases e
      · cases e
    · cases e
      exact hs

theorem execReset_next {b : Bool} {s t : State} (e : execReset b s = .next t) :
    s.busy = false ∧ busyStep (beginReset s) = .next t := by
  unfold execReset at e
  split at e
  · cases e
  · exact ⟨by simp_all, e⟩

theorem execDecodeNextFrame_next {s t : State} (e : execDecodeNextFrame s = .next t) :
    s.busy = false ∧ s.ready = true ∧ s.faultRec = none ∧ s.streamSeen = true ∧
    runOperation (operationSteps s) (beginFrame s) = .next t := by
  unfold execDecodeNextFrame at e
  split at e
  · cases e
  · split at e
    · cases e
    · split at e
      · cases e
      · refine ⟨by simp_all, by simp_all, ?_, by simp_all, e⟩
        rename_i h _
        cases hf : s.faultRec with
        | none => rfl
        | some f => simp [hf] at h

/-- What an idle step can do when it answers a next state. -/
theorem step_idle_next {s t : State} (hb : s.busy = false) (e : step s = .next t) :
    (s.inputs = [] ∧ t = { s with done := false }) ∨
    (∃ b q, s.inputs = .control true b :: q ∧
      execReset b { s with inputs := q, done := false } = .next t) ∨
    (∃ q, s.inputs = .control false true :: q ∧
      execDecodeNextFrame { s with inputs := q, done := false } = .next t) ∨
    (∃ q, s.inputs = .control false false :: q ∧ t = { s with inputs := q, done := false }) ∨
    (∃ x y c q, s.inputs = .writePixel x y c :: q ∧
      hostWrite x y c { s with inputs := q, done := false } = .next t) ∨
    (∃ bytes q, s.inputs = .loadStream bytes :: q ∧
      hostLoad bytes { s with inputs := q, done := false } = .next t) := by
  unfold step fetch at e
  rw [if_neg (by simp [hb])] at e
  unfold fetchInput at e
  cases hi : s.inputs with
  | nil =>
    rw [hi] at e
    cases e
    exact .inl ⟨rfl, rfl⟩
  | cons a q =>
    rw [hi] at e
    cases a with
    | control r st =>
      cases r with
      | true => exact .inr (.inl ⟨st, q, rfl, e⟩)
      | false =>
        cases st with
        | true => exact .inr (.inr (.inl ⟨q, rfl, e⟩))
        | false =>
          cases e
          exact .inr (.inr (.inr (.inl ⟨q, rfl, rfl⟩)))
    | writePixel x y c => exact .inr (.inr (.inr (.inr (.inl ⟨x, y, c, q, rfl, e⟩))))
    | loadStream bytes => exact .inr (.inr (.inr (.inr (.inr ⟨bytes, q, rfl, e⟩))))

theorem hostWrite_next {x y : Nat} {c : Bool} {s t : State} (e : hostWrite x y c s = .next t) :
    x < s.dispW ∧ y < s.dispH ∧ t = fbWrite s x y c := by
  unfold hostWrite at e
  split at e
  · rename_i h
    cases e
    exact ⟨h.1, h.2, rfl⟩
  · cases e

theorem hostLoad_next {bytes : List Byte} {s t : State} (e : hostLoad bytes s = .next t) :
    bytes.length < 2 ^ s.addrW ∧
    t = { s with rom := memOfBytes 0 bytes, romLen := bytes.length, streamSeen := false } := by
  unfold hostLoad at e
  split at e
  · cases e
    exact ⟨‹_›, rfl⟩
  · cases e

end Sys2Proof.Machine
end

