-- ==== Sys2Proof/Laws/PerInstr.lean ====
section
/-! SUPPORT. Statements made per instruction. `EncodeLength`: the encoder emits exactly as many bits as the
opcode table gives the row (R90, R93). -/

namespace Sys2Proof.Laws

theorem natToBits_length (n v : Nat) : (natToBits n v).length = n := by
  induction n with
  | zero => rfl
  | succ n ih => simp [natToBits, ih]

theorem encodeRunBits_length {g v : Nat} (hg : 1 ≤ g) : (encodeRunBits g v).length = 4 * g := by
  simp only [encodeRunBits, List.length_append, List.length_replicate, List.length_cons,
    natToBits_length, Config.groupBits]
  omega

namespace EncodeLength

/-- The encoding of `i` has the length the table gives it. -/
def Statement (i : Instr) : Prop := (encode i).length = i.length

theorem dims (w h : Byte) : Statement (.dims w h) := by
  simp [Statement, encode, natToBits_length, Instr.length]

theorem mask (m : MaskWord) : Statement (.mask m) := natToBits_length 64 _

theorem color (c : Bool) : Statement (.color c) := rfl

theorem runG1 (v : BitVec 3) : Statement (.runG1 v) := encodeRunBits_length (by decide)

theorem runG2 (v : BitVec 6) : Statement (.runG2 v) := encodeRunBits_length (by decide)

theorem runG3 (v : BitVec 9) : Statement (.runG3 v) := encodeRunBits_length (by decide)

theorem runG4 (v : BitVec 12) : Statement (.runG4 v) := encodeRunBits_length (by decide)

theorem runG5 (v : BitVec 15) : Statement (.runG5 v) := encodeRunBits_length (by decide)

theorem runG6 (v : BitVec 18) : Statement (.runG6 v) := encodeRunBits_length (by decide)

theorem runRsv : Statement .runRsv := rfl

theorem pad (n : Nat) : Statement (.pad n) := List.length_replicate

theorem reset (start : Bool) : Statement (.reset start) := rfl

theorem decodeNextFrame : Statement .decodeNextFrame := rfl

end EncodeLength

end Sys2Proof.Laws
end

