-- ==== Sys2Proof/Tests/Slice0.lean ====
section
/-! SUPPORT. The model's own tests. Every expected value is from the spec's tables and test vectors
(95_test_vectors, named in each comment) or worked out by hand from a rule; and for every statement with
hypotheses a witness that meets them. -/

namespace Sys2Proof.Tests

open Sys2Proof Sys2Proof.Machine

-- One theorem at a time: each waits for the kernel, and all at once would hold a thread each.
set_option Elab.async false

/-! ## Helpers -/

/-- The outcome is a next state with the property. -/
def holds (o : Host.Outcome State Fault Refusal) (p : State → Bool) : Bool :=
  match o with
  | .next t => p t
  | .fault _ => false
  | .refused _ => false

/-- The outcome is this refusal. -/
def isRefused (o : Host.Outcome State Fault Refusal) (r : Refusal) : Bool :=
  match o with
  | .refused q => q == r
  | .next _ => false
  | .fault _ => false

/-- The outcome is this fault. -/
def isFault (o : Host.Outcome State Fault Refusal) (f : Fault) : Bool :=
  match o with
  | .fault g => g == f
  | .next _ => false
  | .refused _ => false

theorem exists_of_holds {o : Host.Outcome State Fault Refusal} {p : State → Bool}
    (h : holds o p = true) : ∃ t, o = .next t ∧ p t = true := by
  cases o with
  | next t => exact ⟨t, rfl, h⟩
  | fault _ => cases h
  | refused _ => cases h

/-- A display with a stream loaded. -/
def loaded (dw dh : Nat) (bytes : List Byte) : State :=
  { State.reset with dispW := dw, dispH := dh, rom := memOfBytes 0 bytes, romLen := bytes.length }

/-- The same after RESET, whose values R39 gives (written out, not computed by the model). -/
def started (dw dh w h cw ch : Nat) (bytes : List Byte) : State :=
  { loaded dw dh bytes with w := w, h := h, cw := cw, ch := ch, ready := true, streamSeen := true }

/-- Program T1 (95 section 3): 2 x 2 frame on a 6 x 4 display. -/
def t1Bytes : List Byte := [0x02, 0x02, 0x00, 0x80, 0, 0, 0, 0, 0, 0, 0x08, 0, 0]

def t1 : State := started 6 4 2 2 1 1 t1Bytes

/-- T1 after its first operation, as 95 gives it: P = 29, four pixels. -/
def t1After : State :=
  { t1 with
    firstFrame := false
    cursor := 29
    fb := [(9, false), (10, true), (13, true), (14, false)] }

/-- T1 in its first operation at a phase, with the full mask. -/
def t1Busy (p : Phase) : State :=
  { t1 with busy := true, phase := p, firstFrame := false, mask := BitVec.allOnes 64 }

/-- T1's first run due (cursor after the colour bit). -/
def t1FirstRun : State := { t1Busy .color with cursor := 17, gotColor := true }

/-- T1 in the scan with the second run due at frame pixel (0, 1) (cursor after `RUN 1`). -/
def t1NextRun : State := { t1Busy .scan with cursor := 21, x := 0, y := 1 }

/-- T1 at its second operation's mask. -/
def t1Header : State := { t1After with busy := true, phase := .header }

/-- Ten bytes whose last eight are zeros: a zero mask at P = 16 (a later frame). -/
def zeroMask : State :=
  { started 6 4 2 2 1 1 [2, 2, 0, 0, 0, 0, 0, 0, 0, 0] with firstFrame := false }

/-! ## Well-formedness: each check refuses -/

theorem test_wf_width_zero : ¬ WellFormed (.dims 0 8) := by decide
theorem test_wf_height_zero : ¬ WellFormed (.dims 8 0) := by decide
theorem test_wf_pad_eight : ¬ WellFormed (.pad 8) := by decide
theorem test_wf_reserved : ¬ WellFormed .runRsv := by decide
theorem test_wf_legal : WellFormed (.dims 255 1) ∧ WellFormed (.pad 7) ∧ WellFormed (.mask 0) := by decide

/-! ## Decoding words written out from the spec's encodings (R90, R97, R105) -/

-- 95 section 2.3: bytes 0F 08 give W = 15, H = 8
theorem test_decode_dims : decodeBytes .dims [0x0F, 0x08] = .ok (.dims 15 8) [] := by decide
-- R95: `1` then 63 zeros is chunk 63; S7
theorem test_decode_mask_chunk63 :
    decode .mask (true :: List.replicate 63 false) = .ok (.mask 0x8000000000000000) [] := by decide +kernel
-- R95: 63 zeros then `1` is chunk 0; S7
theorem test_decode_mask_chunk0 :
    decode .mask (List.replicate 63 false ++ [true]) = .ok (.mask 1) [] := by decide +kernel
-- 95 section 2.3: REM = 63 is no mask
theorem test_decode_mask_short :
    decode .mask (List.replicate 63 true) = .ok (.pad 63) [] := by decide +kernel
theorem test_decode_color : decode .color [true, false] = .ok (.color true) [false] := by decide
-- 95 section 2.2, first and last row of each group
theorem test_decode_g1_first : decode .run [false, false, false, false] = .ok (.runG1 0) [] := by decide
theorem test_decode_g1_last : decode .run [false, true, true, true] = .ok (.runG1 7) [] := by decide
theorem test_decode_g2_first : decodeBytes .run [0x80] = .ok (.runG2 0) [] := by decide
theorem test_decode_g2_last : decodeBytes .run [0xBF] = .ok (.runG2 63) [] := by decide
theorem test_decode_g3 : decodeBytes .run [0xC5, 0x7F] = .ok (.runG3 87) [true, true, true, true] := by
  decide +kernel
theorem test_decode_g4_last : decodeBytes .run [0xEF, 0xFF] = .ok (.runG4 4095) [] := by decide +kernel
theorem test_decode_g5 :
    decodeBytes .run [0xF0, 0xDB, 0x70] = .ok (.runG5 3511) [false, false, false, false] := by
  decide +kernel
theorem test_decode_g6_last : decodeBytes .run [0xFB, 0xFF, 0xFF] = .ok (.runG6 262143) [] := by
  decide +kernel
-- 95 section 2.2, last row
theorem test_decode_rsv : decodeBytes .run [0xFE] = .ok .runRsv [true, false] := by decide
-- 95 section 2.6, `08 08 C0`: prefix `10`, five of six value bits
theorem test_decode_overrun :
    decode .run [true, false, false, false, false, false, false] = .error (.overrun 7 1) := by decide
-- R105
theorem test_decode_reset : decode .ctrl [true, true] = .ok (.reset true) [] := by decide
theorem test_decode_next_frame : decode .ctrl [false, true] = .ok .decodeNextFrame [] := by decide
theorem test_decode_no_operation : decode .ctrl [false, false] = .error .noOperation := by decide
-- 95 section 2.2, run lengths of the boundary rows
theorem test_run_lengths :
    runLength 1 0 = 1 ∧ runLength 1 7 = 8 ∧ runLength 2 0 = 9 ∧ runLength 2 63 = 72 ∧
    runLength 3 0 = 73 ∧ runLength 3 511 = 584 ∧ runLength 4 0 = 585 ∧ runLength 4 4095 = 4680 ∧
    runLength 5 0 = 4681 ∧ runLength 5 32767 = 37448 ∧ runLength 6 0 = 37449 ∧
    runLength 6 27576 = 65025 ∧ runLength 6 262143 = 299592 := by decide
-- S1, S2, 46 R241: encode(1) = 0000, encode(8) = 0111, encode(9) = 10000000
theorem test_encode_run :
    encode (encodeRun 1) = [false, false, false, false] ∧
    encode (encodeRun 8) = [false, true, true, true] ∧
    encode (encodeRun 9) = true :: List.replicate 7 false := by decide

/-! ## Opcode-table words -/

theorem test_table_words :
    decodeTableWord 8 0x0 = some (.runG1 0) ∧ decodeTableWord 8 0x80 = some (.runG2 0) ∧
    decodeTableWord 16 0xC00 = some (.runG3 0) ∧ decodeTableWord 16 0xE000 = some (.runG4 0) ∧
    decodeTableWord 24 0xF0000 = some (.runG5 0) ∧ decodeTableWord 24 0xF80000 = some (.runG6 0) ∧
    decodeTableWord 8 0x3F = some .runRsv ∧ decodeTableWord 8 0x2 = some (.reset false) ∧
    decodeTableWord 8 0x1 = some .decodeNextFrame ∧
    decodeTableWord 16 0x0F08 = some (.dims 15 8) ∧ decodeTableWord 64 1 = some (.mask 1) ∧
    decodeTableWord 1 1 = some (.color true) := by decide +kernel

-- the first step from reset runs the word: RUN loaded, or the record of the fault, or the operation
theorem test_fetch_word_run : holds (step (State.reset.withFetchWord 16 0xE00F))
    (fun t => t.run == 600 && t.cursor == 32 && t.ones == 3) = true := by decide +kernel
theorem test_fetch_word_reserved : holds (step (State.reset.withFetchWord 8 0x3F))
    (fun t => t.faultRec == some (.reservedRunGroup 22)) = true := by decide +kernel
theorem test_fetch_word_reset : holds (step (State.reset.withFetchWord 8 0x2))
    (fun t => t.faultRec == some (.romTooShort 0)) = true := by decide +kernel
theorem test_fetch_word_next_frame : holds (step (State.reset.withFetchWord 8 0x1))
    (fun t => t.faultRec == some (.streamOverrun 16)) = true := by decide +kernel
theorem test_fetch_word_mask : holds (step (State.reset.withFetchWord 64 1))
    (fun t => t.mask == 1 && t.cursor == 80 && t.phase == .color) = true := by decide +kernel
theorem test_fetch_word_dims : holds (step (State.reset.withFetchWord 16 0x0F08))
    (fun t => t.w == 15 && t.h == 8 && t.cw == 2 && t.ch == 1 && offX t == 56 && offY t == 28) = true := by
  decide +kernel

/-! ## The bit reader: 95 section 2.1, ROM = A5 3C -/

def a53c (p : Nat) : State := { loaded 6 4 [0xA5, 0x3C] with cursor := p }

theorem test_rdbit_end_of_byte : (rdBit (a53c 7)).1 = some true ∧ (rdBit (a53c 7)).2.cursor = 8 := by
  decide +kernel
theorem test_rdbits_across_bytes :
    (rdBits 3 0 (a53c 6)).1 = some 2 ∧ (rdBits 3 0 (a53c 6)).2.cursor = 9 := by decide +kernel
theorem test_rdbits_overrun :
    (rdBits 18 0 (a53c 0)).1 = none ∧ (rdBits 18 0 (a53c 0)).2.cursor = 16 := by decide +kernel
theorem test_rdbit_overrun : (rdBit (a53c 16)).1 = none ∧ (rdBit (a53c 16)).2.cursor = 16 := by
  decide +kernel
-- LEN = 10, P = 16: 64 bits left, success; P = 17: 63 left, failure with the cursor kept
theorem test_bounded_read :
    (rdBitsBounded { loaded 6 4 (List.replicate 10 0xFF) with cursor := 16 }).2.cursor = 80 ∧
    (rdBitsBounded { loaded 6 4 (List.replicate 10 0xFF) with cursor := 17 }).1 = none ∧
    (rdBitsBounded { loaded 6 4 (List.replicate 10 0xFF) with cursor := 17 }).2.cursor = 17 := by
  decide +kernel

/-! ## The instructions, one step each -/

-- 95 section 2.6: the four RESET faults, and 80 40 passing
theorem test_reset_short : holds (exec (.reset false) (loaded 128 64 [0x08]))
    (fun t => t.faultRec == some (.romTooShort 1)) = true := by decide +kernel
theorem test_reset_passes : holds (exec (.reset false) (loaded 128 64 [0x80, 0x40]))
    (fun t => t.faultRec == none && t.cursor == 16 && t.w == 128 && t.cw == 16 && t.ch == 8 &&
      offX t == 0 && t.firstFrame && t.ready) = true := by decide +kernel
theorem test_dims_zero : holds (exec (.dims 0 8) { loaded 128 64 [0, 8, 0] with busy := true })
    (fun t => t.faultRec == some (.badDimensions 0 8) && !t.busy) = true := by decide +kernel
theorem test_dims_too_wide : holds (exec (.dims 0x81 8) { loaded 128 64 [0x81, 8, 0] with busy := true })
    (fun t => t.faultRec == some (.frameExceedsDisplay 129 8)) = true := by decide +kernel
-- T1, second operation: mask 0x100 at P = 29
theorem test_mask : holds (exec (.mask 0x100) t1Header)
    (fun t => t.cursor == 93 && t.mask == 0x100 && t.busy && t.phase == .color) = true := by decide +kernel
theorem test_mask_zero : holds (exec (.mask 0) t1Header)
    (fun t => t.cursor == 93 && t.ok && !t.busy && t.done && t.fb == t1After.fb) = true := by
  decide +kernel
theorem test_pad : holds (exec (.pad 6) t1Header)
    (fun t => t.cursor == 29 && !t.ok && !t.busy && t.done && t.fb == t1After.fb) = true := by
  decide +kernel
theorem test_color : holds (exec (.color true) (t1Busy .color))
    (fun t => t.color && t.cursor == 17 && t.gotColor) = true := by decide +kernel
-- R172: the first run does not flip; `RUN 1` paints frame pixel (0,0), display (2,1)
theorem test_runG1_first : holds (exec (.runG1 0) t1FirstRun)
    (fun t => t.cursor == 21 && t.run == 0 && !t.color && t.fb == [(9, false)] && t.y == 1 &&
      t.phase == .scan) = true := by decide +kernel
-- R178: a later run flips; `RUN 2` paints (0,1) and (1,0)
theorem test_runG1_later : holds (exec (.runG1 1) t1NextRun)
    (fun t => t.cursor == 25 && t.color && t.fb == [(10, true), (13, true)] && t.x == 1 && t.y == 1) =
      true := by decide +kernel
-- a run longer than the frame: the surplus stays in RUN (R182), the scan is over
theorem test_runG2 : holds (exec (.runG2 7) t1FirstRun)
    (fun t => t.cursor == 25 && t.run == 12 && t.phase == .sample && t.x == 2) = true := by decide +kernel
theorem test_runG3 : holds (exec (.runG3 23) t1FirstRun)
    (fun t => t.cursor == 29 && t.run == 92 && t.ones == 2 && t.value == 23) = true := by decide +kernel
theorem test_runG4 : holds (exec (.runG4 15) t1FirstRun)
    (fun t => t.cursor == 33 && t.run == 596 && t.ones == 3) = true := by decide +kernel
theorem test_runG5 : holds (exec (.runG5 1) t1FirstRun)
    (fun t => t.cursor == 37 && t.run == 4678 && t.ones == 4) = true := by decide +kernel
theorem test_runG6 : holds (exec (.runG6 262143) t1FirstRun)
    (fun t => t.cursor == 41 && t.run == 299588 && t.ones == 5) = true := by decide +kernel
-- 95 section 2.6, `08 08 FE`: P = 23
theorem test_runRsv : holds (exec .runRsv t1FirstRun)
    (fun t => t.faultRec == some (.reservedRunGroup 23) && t.cursor == 23 && !t.busy) = true := by
  decide +kernel
-- T1, first operation: P = 29, pixels 0 1 / 1 0 at display (2,1) (2,2) (3,1) (3,2)
theorem test_decode_first : holds (exec .decodeNextFrame t1)
    (fun t => t.ok && t.cursor == 29 && t.fb == t1After.fb && !t.firstFrame && t.done && !t.busy) =
      true := by decide +kernel
-- T1, second operation: P = 98, display pixel (3,1) becomes 0
theorem test_decode_second : holds (exec .decodeNextFrame t1After)
    (fun t => t.ok && t.cursor == 98 && t.fb == [(9, false), (10, true), (13, false), (14, false)] &&
      t.mask == 0x100) = true := by decide +kernel
-- T1, third operation: REM = 6
theorem test_decode_end : holds (exec .decodeNextFrame { t1After with cursor := 98 })
    (fun t => !t.ok && t.cursor == 98 && t.fb == t1After.fb) = true := by decide +kernel
-- 95 section 2.6, `08 08 87`: nine pixels, then the overrun at P = 24
theorem test_decode_overrun_mid_frame :
    holds (exec .decodeNextFrame (started 128 64 8 8 1 1 [8, 8, 0x87]))
      (fun t => t.faultRec == some (.streamOverrun 24) && t.cursor == 24) = true := by decide +kernel
-- R271, R272
theorem test_decode_not_ready : isRefused (exec .decodeNextFrame State.reset) .notReady = true := by decide
theorem test_decode_reentry :
    isRefused (exec .decodeNextFrame t1FirstRun) .reentry = true := by decide
-- R92: a token outside its context
theorem test_color_out_of_context : isRefused (exec (.color true) t1) .outOfContext = true := by decide
-- a geometry RESET cannot have left
theorem test_bad_geometry :
    isFault (exec (.runG1 0) { t1FirstRun with cw := 2 }) .badGeometry = true := by decide

/-! ## The border step: 95 section 2.5 -/

-- threshold rows of the table: 13/3 and 3/13 act, 12/4 and 10/1 do not, 10/0 acts
theorem test_thresholds :
    thresholdMet 13 3 = true ∧ majority 13 3 = true ∧ thresholdMet 12 4 = false ∧
    thresholdMet 3 13 = true ∧ majority 3 13 = false ∧ thresholdMet 9 0 = false ∧
    thresholdMet 10 0 = true ∧ thresholdMet 0 10 = true ∧ thresholdMet 10 1 = false := by decide

/-- A 1 x 10 frame, all on, on a 4 x 11 display: OFF_X = 1, OFF_Y = 0. -/
def edgeState (p : Phase) : State :=
  { started 4 11 1 10 1 2 [1, 10] with
    busy := true
    phase := p
    firstFrame := false
    x := 1
    fb := (List.range 10).map (fun y => (11 + y, true)) }

theorem test_sample : holds (step (edgeState .sample))
    (fun t => t.el1 == 10 && t.el0 == 0 && t.er1 == 10 && t.phase == .fillL) = true := by decide +kernel
/-- A 2 x 10 frame on the same display, left column half on, right column all on (difference 0 and 10). -/
def rightEdgeState : State :=
  { edgeState .sample with
    w := 2
    fb := (List.range 20).map (fun i => (11 + i / 10 * 11 + i % 10, decide (5 ≤ i))) }

/-- The 1 x 10 frame with its one column half on: neither threshold is met. -/
def balancedState : State :=
  { edgeState .sample with fb := (List.range 10).map (fun i => (11 + i, decide (5 ≤ i))) }

theorem test_sample_right : holds (step rightEdgeState)
    (fun t => t.el1 == 5 && t.er1 == 10 && t.phase == .fillR && t.busy) = true := by decide +kernel
theorem test_sample_balanced : holds (step balancedState)
    (fun t => t.el1 == 5 && t.er0 == 5 && t.phase == .idle && t.ok && t.done && !t.busy) = true := by
  decide +kernel
/-- R203: the right side is decided for itself; here it is left alone and the operation completes. -/
theorem test_fill_left_only : holds (step { edgeState .fillL with el1 := 10 })
    (fun t => fbRead t 0 0 && t.phase == .idle && t.ok && !t.busy) = true := by decide +kernel
theorem test_fill_left : holds (step { edgeState .fillL with el1 := 10, er1 := 10 })
    (fun t => fbRead t 0 0 && fbRead t 0 10 && t.phase == .fillR && (memRead t.fb 21 == none)) = true := by
  decide +kernel
theorem test_fill_right : holds (step { edgeState .fillR with er0 := 10 })
    (fun t => fbRead t 2 0 == false && fbRead t 3 10 == false && fbRead t 1 0 && t.ok && !t.busy) =
      true := by decide +kernel

/-! ## The host -/

theorem test_host_write : holds (step { t1 with inputs := [.writePixel 5 3 true] })
    (fun t => fbRead t 5 3 && t.fb == [(23, true)] && t.inputs == []) = true := by decide +kernel
theorem test_host_write_outside :
    isFault (step { t1 with inputs := [.writePixel 6 0 true] }) (.pixelOutsideDisplay 6 0) = true := by
  decide +kernel
theorem test_host_load : holds (step { t1 with inputs := [.loadStream [0x00, 0xA5]] })
    (fun t => t.rom == [(1, 0xA5)] && t.romLen == 2 && !t.streamSeen) = true := by decide +kernel
theorem test_host_load_too_long :
    isRefused (step { t1 with addrW := 1, inputs := [.loadStream [1, 2]] }) .streamTooLong = true := by
  decide +kernel
theorem test_stream_changed :
    isRefused (exec .decodeNextFrame { t1 with streamSeen := false }) .streamChanged = true := by decide
-- R68: of a 16-wide display's row 1, the pixels 8 to 15 are byte 3; only pixel 9 on is 40H
theorem test_packed_layout :
    physByte { loaded 16 2 [] with fb := (List.range 8).map (fun i => (2 * (8 + i) + 1, i == 1)) } 3 =
      0x40 := by decide +kernel

-- R227: another value of FB_LAYOUT, here with pixel (0, 0) in bit 0 of byte 1 and (1, 0) in bit 7 of byte 0
theorem test_table_layout :
    physBit { loaded 2 1 [] with fbLayout := .table [(1, 0), (0, 7)], fb := [(0, true), (1, false)] } 1 0 =
      true ∧
    physBit { loaded 2 1 [] with fbLayout := .table [(1, 0), (0, 7)], fb := [(0, true), (1, false)] } 0 7 =
      false := by decide +kernel
-- D27: a RESET that raises a fault leaves OK a free value as well (here F1)
theorem test_reset_fault_frees_ok : ∃ t, exec (.reset false) (loaded 128 64 [8]) = .next t ∧
    t.ok = Config.freeOk 1 := ⟨_, rfl, rfl⟩
-- R157, R221: the first frame passes HEADER, which consumes no bit
theorem test_first_header : holds (step { t1 with busy := true, phase := .header })
    (fun t => t.mask == BitVec.allOnes 64 && !t.firstFrame && t.phase == .color && t.cursor == 16) =
      true := by decide +kernel

/-! ## Witnesses for the statements' hypotheses -/

theorem witness_StepRunsDecodedInstruction_busy :
    (t1Busy .color).busy = true ∧ tokenContext (t1Busy .color) = some .color ∧
    decode .color (tokenWindow .color (t1Busy .color)) = .ok (.color false) [] := by decide +kernel
theorem witness_StepRunsDecodedInstruction_idle :
    ({ t1 with inputs := [.control false true] }).busy = false ∧
    ({ t1 with inputs := [.control false true] }).inputs = [.control false true] ∧
    decode .ctrl [false, true] = .ok .decodeNextFrame [] := by decide

theorem witness_BusyBlockReadsExpectedToken_dims :
    ({ loaded 6 4 t1Bytes with busy := true }).busy = true ∧
    ({ loaded 6 4 t1Bytes with busy := true }).phase = .idle ∧
    decode .dims (streamBits { loaded 6 4 t1Bytes with busy := true } 0 16) = .ok (.dims 2 2) [] := by
  decide +kernel
theorem witness_BusyBlockReadsExpectedToken_mask :
    t1Header.busy = true ∧ t1Header.phase = .header ∧ t1Header.firstFrame = false ∧
    decode .mask (streamBits t1Header t1Header.cursor 64) = .ok (.mask 0x100) [] := by decide +kernel
theorem witness_BusyBlockReadsExpectedToken_tail :
    ({ t1Header with cursor := 98 }).phase = .header ∧
    decode .mask (streamBits { t1Header with cursor := 98 } 98 64) = .ok (.pad 6) [] := by decide +kernel
theorem witness_BusyBlockReadsExpectedToken_color :
    (t1Busy .color).phase = .color ∧ (t1Busy .color).gotColor = false ∧
    decode .color (streamBits (t1Busy .color) 16 1) = .ok (.color false) [] := by decide +kernel
theorem witness_BusyBlockReadsExpectedToken_first_run :
    t1FirstRun.busy = true ∧ t1FirstRun.phase = .color ∧ t1FirstRun.gotColor = true ∧
    ∃ rest, decode .run (streamBits t1FirstRun t1FirstRun.cursor 24) = .ok (.runG1 0) rest := by
  refine ⟨by decide, by decide, by decide, ?_⟩
  exact ⟨(streamBits t1FirstRun t1FirstRun.cursor 24).drop 4, by decide +kernel⟩
theorem witness_BusyBlockReadsExpectedToken_later_run :
    t1NextRun.busy = true ∧ t1NextRun.phase = .scan ∧ t1NextRun.x < t1NextRun.w ∧
    t1NextRun.y < t1NextRun.h ∧ t1NextRun.run = 0 ∧
    (t1NextRun.y % t1NextRun.ch = 0 → changed t1NextRun t1NextRun.x t1NextRun.y = true) ∧
    ∃ rest, decode .run (streamBits t1NextRun t1NextRun.cursor 24) = .ok (.runG1 1) rest := by
  refine ⟨by decide, by decide, by decide, by decide, by decide, by decide +kernel, ?_⟩
  exact ⟨(streamBits t1NextRun t1NextRun.cursor 24).drop 4, by decide +kernel⟩

theorem witness_DecodeEncodeAgree :
    (∀ n, Instr.runG6 262143 ≠ .pad n) ∧ (∀ n, Instr.dims 255 0 ≠ .pad n) ∧ (63 : Nat) < 64 :=
  ⟨fun _ h => Instr.noConfusion h, fun _ h => Instr.noConfusion h, by decide⟩
theorem witness_DecodedBitsAreTheEncoding :
    decode .run (List.replicate 6 true) = .ok .runRsv [] ∧ (∀ n, Instr.runRsv ≠ .pad n) :=
  ⟨by decide, fun _ h => Instr.noConfusion h⟩
theorem witness_RunLengthRoundTrip :
    1 ≤ (1 : Nat) ∧ (1 : Nat) ≤ Config.runMax ∧ 1 ≤ (299592 : Nat) ∧ (299592 : Nat) ≤ Config.runMax := by
  decide
theorem witness_RunCodeIsBijective :
    (0 : Nat) < 2 ^ (3 * 1) ∧ (262143 : Nat) < 2 ^ (3 * 6) := by decide

theorem witness_BitSerialRunDecoderAgrees_run :
    ∃ rest, decode .run (streamBits t1NextRun t1NextRun.cursor 24) = .ok (runToken 1 1) rest :=
  ⟨(streamBits t1NextRun t1NextRun.cursor 24).drop 4, by decide +kernel⟩
theorem witness_BitSerialRunDecoderAgrees_reserved :
    decode .run (streamBits (loaded 6 4 [0xFF]) 0 24) = .ok .runRsv [true, true] := by decide +kernel
theorem witness_BitSerialRunDecoderAgrees_overrun :
    decode .run (streamBits (loaded 6 4 [0xC0]) 0 24) = .error (.overrun 8 2) := by decide +kernel

theorem witness_ReadBitAdvancesCursor :
    8 * (a53c 16).romLen ≤ (a53c 16).cursor ∧ (a53c 15).cursor < 8 * (a53c 15).romLen := by decide
theorem witness_ReadFieldIsMsbFirst :
    (a53c 13).cursor ≤ 8 * (a53c 13).romLen ∧ (a53c 13).cursor + 3 ≤ 8 * (a53c 13).romLen ∧
    8 * (a53c 13).romLen < (a53c 13).cursor + 4 := by decide
theorem witness_LoadedStreamKeepsBitOrder :
    ∃ t, hostLoad (packBits [true, false, true, true, false, false, false, false, true]) t1 = .next t :=
  (exists_of_holds (p := fun _ => true) (by decide +kernel)).imp fun _ h => h.1
theorem witness_PixelWriteChangesOnePixel :
    (5 : Nat) < t1.dispW ∧ (3 : Nat) < t1.dispH ∧ (0 : Nat) < t1.dispW ∧ ¬ ((0 : Nat) = 5 ∧ (3 : Nat) = 3) := by
  decide
theorem t1_layout : LayoutOk t1 where
  bit := by
    intro x y _ _
    simp only [pixelPlace, t1, started, loaded, State.reset]
    omega
  apart := by
    intro x y x' y' hx _ hx' _ h
    simp only [pixelPlace, t1, started, loaded, State.reset, Config.deployedW, Prod.mk.injEq] at hx hx' h
    omega
theorem witness_PackedWriteKeepsNeighbours :
    t1.fbLayout = .rowMajor ∧ LayoutOk t1 ∧ (5 : Nat) < t1.dispW ∧ (3 : Nat) < t1.dispH ∧
    (4 : Nat) < t1.dispW ∧ (0 : Nat) < t1.dispH :=
  ⟨rfl, t1_layout, by decide, by decide, by decide, by decide⟩
theorem witness_LayoutChangesNoStep : ∃ t, step t1NextRun = .next t :=
  (exists_of_holds (p := fun _ => true) (by decide +kernel)).imp fun _ h => h.1
theorem witness_HostPixelWriteCompletes :
    ({ t1 with inputs := [.writePixel 5 3 true] }).busy = false ∧
    ((5 : Nat) < t1.dispW ∧ (3 : Nat) < t1.dispH) ∧ ¬ ((6 : Nat) < t1.dispW ∧ (0 : Nat) < t1.dispH) := by
  decide

theorem witness_ResetLoadsDimensions :
    (loaded 128 64 [0x80, 0x40]).busy = false ∧
    romRead (loaded 128 64 [0x80, 0x40]) 0 = some 0x80 ∧ romRead (loaded 128 64 [0x80, 0x40]) 1 = some 0x40 ∧
    (0x80 : Byte) ≠ 0 ∧ (0x40 : Byte) ≠ 0 ∧ (0x80 : Byte).toNat ≤ (loaded 128 64 [0x80, 0x40]).dispW ∧
    (0x40 : Byte).toNat ≤ (loaded 128 64 [0x80, 0x40]).dispH := by decide +kernel
theorem witness_ResetFrame :
    (loaded 1 1 [1, 1]).busy = false ∧ romRead (loaded 1 1 [1, 1]) 0 = some 1 ∧
    romRead (loaded 1 1 [1, 1]) 1 = some 1 ∧ (1 : Byte) ≠ 0 ∧
    (1 : Byte).toNat ≤ (loaded 1 1 [1, 1]).dispW ∧ (1 : Byte).toNat ≤ (loaded 1 1 [1, 1]).dispH := by
  decide +kernel
theorem witness_ResetFaultsInOrder_short :
    (loaded 128 64 [8]).busy = false ∧ (loaded 128 64 [8]).romLen < 2 := by decide
theorem witness_ResetFaultsInOrder_zero :
    (loaded 128 64 [0, 8]).busy = false ∧ romRead (loaded 128 64 [0, 8]) 0 = some 0 ∧ romRead (loaded 128 64 [0, 8]) 1 = some 8 := by
  decide +kernel
theorem witness_ResetFaultsInOrder_too_large :
    (loaded 128 64 [8, 0x41]).busy = false ∧
    romRead (loaded 128 64 [8, 0x41]) 0 = some 8 ∧ romRead (loaded 128 64 [8, 0x41]) 1 = some 0x41 ∧
    (8 : Byte) ≠ 0 ∧ (0x41 : Byte) ≠ 0 ∧
    ((loaded 128 64 [8, 0x41]).dispW < (8 : Byte).toNat ∨
      (loaded 128 64 [8, 0x41]).dispH < (0x41 : Byte).toNat) := by decide +kernel
theorem witness_DimsTokenCompletes :
    ({ loaded 6 4 t1Bytes with busy := true }).busy = true ∧
    ({ loaded 6 4 t1Bytes with busy := true }).phase = .idle ∧ (2 : Byte) ≠ 0 ∧
    (2 : Byte).toNat ≤ ({ loaded 6 4 t1Bytes with busy := true }).dispW ∧
    (2 : Byte).toNat ≤ ({ loaded 6 4 t1Bytes with busy := true }).dispH := by decide
theorem witness_DimsTokenFaults :
    ({ loaded 6 4 t1Bytes with busy := true }).busy = true ∧
    ({ loaded 6 4 t1Bytes with busy := true }).phase = .idle ∧
    ({ loaded 6 4 t1Bytes with busy := true }).faultRec = none ∧ (7 : Byte) ≠ 0 ∧ (1 : Byte) ≠ 0 ∧
    ({ loaded 6 4 t1Bytes with busy := true }).dispW < (7 : Byte).toNat := by decide

theorem witness_HeaderTokensComplete :
    t1Header.busy = true ∧ t1Header.phase = .header ∧ t1Header.firstFrame = false := by decide
theorem witness_HeaderStepFollowsBoundedRead :
    t1Header.busy = true ∧ t1Header.phase = .header ∧ t1Header.firstFrame = false ∧
    ¬ (8 * t1Header.romLen - t1Header.cursor < 64) ∧ 8 * t1Header.romLen - (t1Header.cursor + 12) < 64 := by
  decide
theorem witness_MaskBitsAreMsbFirst : (List.replicate 64 true).length = 64 := by decide +kernel

theorem witness_ColorTokenReadsOneBit :
    (t1Busy .color).busy = true ∧ (t1Busy .color).phase = .color ∧ (t1Busy .color).gotColor = false ∧
    romBit (t1Busy .color) (t1Busy .color).cursor = some false := by decide +kernel
theorem witness_ColorTokenReadsOneBit_end :
    ({ t1Busy .color with romLen := 2 }).faultRec = none ∧
    romBit { t1Busy .color with romLen := 2 } 16 = none := by decide +kernel
theorem witness_RunTokensComplete_first :
    t1FirstRun.busy = true ∧ geometryOk t1FirstRun = true ∧
    (t1FirstRun.phase = .color ∧ t1FirstRun.gotColor = true) := by decide
theorem witness_RunTokensComplete_later :
    t1NextRun.busy = true ∧ geometryOk t1NextRun = true ∧
    (t1NextRun.phase = .scan ∧ t1NextRun.x < t1NextRun.w ∧ t1NextRun.y < t1NextRun.h ∧ t1NextRun.run = 0 ∧
      (t1NextRun.y % t1NextRun.ch = 0 → changed t1NextRun t1NextRun.x t1NextRun.y = true)) := by
  decide +kernel
theorem witness_ReservedPrefixRaisesFault :
    t1FirstRun.busy = true ∧ t1FirstRun.faultRec = none ∧
    (t1FirstRun.phase = .color ∧ t1FirstRun.gotColor = true) := by decide
theorem witness_ReservedPrefixRaisesFault_later :
    t1NextRun.busy = true ∧ t1NextRun.faultRec = none ∧
    (t1NextRun.phase = .scan ∧ t1NextRun.x < t1NextRun.w ∧ t1NextRun.y < t1NextRun.h ∧ t1NextRun.run = 0 ∧
      (t1NextRun.y % t1NextRun.ch = 0 → changed t1NextRun t1NextRun.x t1NextRun.y = true)) := by
  decide +kernel
theorem witness_ReservedPrefixRaisesFault_step :
    ({ t1FirstRun with rom := [(2, 0x7E)], romLen := 3 }).busy = true ∧
    ({ t1FirstRun with rom := [(2, 0x7E)], romLen := 3 }).faultRec = none ∧
    ({ t1FirstRun with rom := [(2, 0x7E)], romLen := 3 }).phase = .color ∧
    ({ t1FirstRun with rom := [(2, 0x7E)], romLen := 3 }).gotColor = true ∧
    streamBits { t1FirstRun with rom := [(2, 0x7E)], romLen := 3 } 17 6 = List.replicate 6 true := by
  decide +kernel
theorem witness_OverrunInRunStopsAtRomEnd :
    ({ t1FirstRun with rom := [(2, 0x60)], romLen := 3 }).busy = true ∧
    ({ t1FirstRun with rom := [(2, 0x60)], romLen := 3 }).faultRec = none ∧
    ({ t1FirstRun with rom := [(2, 0x60)], romLen := 3 }).phase = .color ∧
    ({ t1FirstRun with rom := [(2, 0x60)], romLen := 3 }).gotColor = true ∧
    ({ t1FirstRun with rom := [(2, 0x60)], romLen := 3 }).cursor ≤ 8 * 3 ∧
    decode .run (streamBits { t1FirstRun with rom := [(2, 0x60)], romLen := 3 } 17 24) =
      .error (.overrun 7 2) := by decide +kernel

/-- T1 in the scan with a run of three left at frame pixel (0, 1). -/
def t1Scanning : State := { t1NextRun with run := 3 }

theorem witness_ScanPaintsDuePixels :
    t1Scanning.phase = .scan ∧ geometryOk t1Scanning = true ∧ BandInv t1Scanning ∧
    (duePixels t1Scanning).length ≤ t1Scanning.run :=
  ⟨by decide, by decide, fun _ _ _ h => absurd (by decide) h, by decide +kernel⟩
theorem witness_ScanPaintsDuePixels_stopping :
    ({ t1Scanning with run := 2 }).run < (duePixels { t1Scanning with run := 2 }).length ∧
    BandInv { t1Scanning with run := 2 } :=
  ⟨by decide +kernel, fun _ _ _ h => absurd (by decide) h⟩
theorem witness_RunTokenFrame :
    (∃ t, execRunGroup 1 1 t1NextRun = .next t) ∧ BandInv t1NextRun :=
  ⟨(exists_of_holds (p := fun _ => true) (by decide +kernel)).imp fun _ h => h.1,
    fun _ _ _ h => absurd (by decide) h⟩

theorem witness_SampleCountsEdges :
    (edgeState .sample).busy = true ∧ (edgeState .sample).phase = .sample ∧
    geometryOk (edgeState .sample) = true := by decide
theorem witness_SampleCountsEdges_right :
    rightEdgeState.busy = true ∧ rightEdgeState.phase = .sample ∧ geometryOk rightEdgeState = true ∧
    countOn rightEdgeState 1 = 5 ∧ countOn rightEdgeState 2 = 10 := by decide +kernel
theorem witness_SampleCountsEdges_completion :
    balancedState.busy = true ∧ balancedState.phase = .sample ∧ geometryOk balancedState = true ∧
    countOn balancedState 1 = 5 ∧ countOff balancedState 1 = 5 := by decide +kernel
theorem witness_LeftFillPaintsLeftMargin_right :
    ({ edgeState .fillL with er1 := 10 }).busy = true ∧ geometryOk { edgeState .fillL with er1 := 10 } = true ∧
    (10 : Int) ≤ |(({ edgeState .fillL with er1 := 10 }).er1 : Int) -
      ({ edgeState .fillL with er1 := 10 }).er0| := by decide
theorem witness_LeftFillPaintsLeftMargin :
    (edgeState .fillL).busy = true ∧ (edgeState .fillL).phase = .fillL ∧
    geometryOk (edgeState .fillL) = true ∧ 0 < offX (edgeState .fillL) ∧
    |((edgeState .fillL).er1 : Int) - (edgeState .fillL).er0| < 10 := by decide
theorem witness_RightFillPaintsRightMargin :
    (edgeState .fillR).busy = true ∧ (edgeState .fillR).phase = .fillR ∧
    geometryOk (edgeState .fillR) = true ∧
    offX (edgeState .fillR) + (edgeState .fillR).w < (edgeState .fillR).dispW := by decide

theorem t1_ready : ReadyToDecode t1 := ⟨rfl, rfl, rfl, rfl⟩

theorem witness_EndOfStreamChangesNothing :
    ReadyToDecode { t1After with cursor := 98 } ∧ ({ t1After with cursor := 98 }).firstFrame = false ∧
    8 * ({ t1After with cursor := 98 }).romLen - ({ t1After with cursor := 98 }).cursor < 64 :=
  ⟨⟨rfl, rfl, rfl, rfl⟩, rfl, by decide⟩
theorem witness_ZeroMaskLeavesFrameUnchanged :
    ReadyToDecode zeroMask ∧ zeroMask.firstFrame = false ∧
    streamBits zeroMask zeroMask.cursor 64 = List.replicate 64 false :=
  ⟨⟨rfl, rfl, rfl, rfl⟩, rfl, by decide +kernel⟩
theorem witness_FirstFrameUsesFullMask_step :
    ({ t1 with busy := true, phase := .header }).busy = true ∧
    ({ t1 with busy := true, phase := .header }).phase = .header ∧
    ({ t1 with busy := true, phase := .header }).firstFrame = true := by decide
theorem witness_FirstFrameUsesFullMask :
    t1.firstFrame = true ∧ geometryOk t1 = true ∧
    ∃ t, exec .decodeNextFrame t1 = .next t ∧ (t.faultRec == none) = true :=
  ⟨rfl, by decide, exists_of_holds (by decide +kernel)⟩
theorem witness_OperationsRefusedByName :
    t1FirstRun.busy = true ∧ State.reset.busy = false ∧ State.reset.ready = false ∧
    ({ t1 with faultRec := some (.romTooShort 1) }).busy = false ∧
    ({ t1 with faultRec := some (.romTooShort 1) }).faultRec ≠ none := by decide
theorem witness_ChangedStreamNeedsReset :
    t1.busy = false ∧ t1.ready = true ∧ t1.faultRec = none ∧
    ∃ t, step { t1 with inputs := [.loadStream [1, 1], .control false true] } = .next t :=
  ⟨rfl, rfl, rfl, (exists_of_holds (p := fun _ => true) (by decide +kernel)).imp fun _ h => h.1⟩
theorem witness_DecodeTerminatesIdle : ReadyToDecode t1 ∧ geometryOk t1 = true := ⟨t1_ready, by decide⟩
theorem witness_ResultTellsEndOfStream :
    geometryOk t1 = true ∧ ∃ t, exec .decodeNextFrame t1 = .next t ∧ (t.faultRec == none) = true :=
  ⟨by decide, exists_of_holds (by decide +kernel)⟩
theorem witness_ResultTellsEndOfStream_end :
    geometryOk { t1After with cursor := 98 } = true ∧
    ∃ t, exec .decodeNextFrame { t1After with cursor := 98 } = .next t ∧ (t.faultRec == none) = true :=
  ⟨by decide, exists_of_holds (by decide +kernel)⟩
theorem witness_DecodeFrame_DecodeIsItsSteps : ∃ t, exec .decodeNextFrame t1After = .next t :=
  (exists_of_holds (p := fun _ => true) (by decide +kernel)).imp fun _ h => h.1
theorem witness_DecodeKeepsOtherPixels :
    ∃ t, exec .decodeNextFrame t1After = .next t ∧
      (t.faultRec == none && !changed t (2 - offX t1After) (1 - offY t1After) &&
        !thresholdMet t.el1 t.el0) = true :=
  exists_of_holds (by decide +kernel)

/-- T1's first frame. -/
def t1Frame : Frame := fun x y => x != y

theorem t1_widths : WidthInv t1 := by constructor <;> decide

theorem witness_FrameRoundTrip_first :
    ReadyToDecode t1 ∧ geometryOk t1 = true ∧ WidthInv t1 ∧ t1.firstFrame = true ∧
    maskedPixels (BitVec.allOnes 64) t1.w t1.h ≠ [] ∧
    streamBits t1 t1.cursor (fullBits t1.w t1.h t1Frame).length = fullBits t1.w t1.h t1Frame :=
  ⟨t1_ready, by decide, t1_widths, rfl, by decide +kernel, by decide +kernel⟩
theorem witness_FrameRoundTrip_later :
    ReadyToDecode t1After ∧ geometryOk t1After = true ∧ WidthInv t1After ∧ t1After.firstFrame = false ∧
    maskedPixels 0x100 t1After.w t1After.h ≠ [] ∧
    streamBits t1After t1After.cursor (partBits 0x100 t1After.w t1After.h (fun _ _ => false)).length =
      partBits 0x100 t1After.w t1After.h (fun _ _ => false) :=
  ⟨⟨rfl, rfl, rfl, rfl⟩, by decide, by constructor <;> decide, rfl, by decide +kernel, by decide +kernel⟩

/-- T1's second frame: pixel (1, 0) goes off. -/
def t1Frame2 : Frame := fun x y => x == 0 && y == 1

/-- The detector after T1's first frame. -/
def t1Detector : Detector := startDetector sourceTuning 2 2 t1Frame

/-- The producer writes 95's program T1 (its bytes are the spec's). -/
theorem test_produce : produce sourceTuning 2 2 [t1Frame, t1Frame2] = some t1Bytes := by decide +kernel
/-- A video without frames gives no stream (R252). -/
theorem test_produce_nothing : produce sourceTuning 2 2 [] = none := by decide
/-- R249: of a chunk of 16 x 1 pixels, 2 are more than 8 percent and 1 is not (it is not uniform). -/
theorem test_detect_threshold :
    triggered { tuning := sourceTuning, errors := [1], committed := [] } 128 1 (fun x _ => x == 3) 0 = true ∧
    triggered { tuning := sourceTuning, errors := [0], committed := [] } 128 1 (fun x _ => x == 3) 0 = false := by decide +kernel
/-- R248: a uniform chunk with some error gets the penalty, one without error does not. -/
theorem test_detect_penalty :
    newTotal { tuning := sourceTuning, errors := [3], committed := [] } 128 1 (fun _ _ => false) 0 = 8 ∧
    newTotal { tuning := sourceTuning, errors := [0], committed := [] } 128 1 (fun _ _ => false) 0 = 0 := by decide +kernel

theorem witness_DetectorCommitsTriggeredChunks :
    (8 : Nat) < 64 ∧ (detectMask t1Detector 2 2 t1Frame2).getLsbD 8 = true ∧
    (detectMask t1Detector 2 2 t1Frame2).getLsbD 0 = false ∧ (1 : Nat) < 2 := by decide +kernel
theorem witness_ProducedStreamIsWellFormed :
    WellFormed (.dims 2 2) ∧ (2 : Byte).toNat ≤ 6 ∧ (2 : Byte).toNat ≤ 4 ∧
    produce sourceTuning 2 2 [t1Frame, t1Frame2] = some t1Bytes :=
  ⟨by decide, by decide, by decide, test_produce⟩
theorem witness_DecoderFollowsProducer :
    ReadyToDecode t1After ∧ geometryOk t1After = true ∧ WidthInv t1After ∧ t1After.firstFrame = false ∧
    (∀ k, chunkPixels t1After.w t1After.h k = [] → chunkTotal t1Detector k = 0) ∧
    (∀ x, x < t1After.w → ∀ y, y < t1After.h →
      fbRead t1After (offX t1After + x) (offY t1After + y) = committedAt t1Detector t1After.h (x, y)) ∧
    streamBits t1After t1After.cursor
        (partBits (detectMask t1Detector t1After.w t1After.h t1Frame2) t1After.w t1After.h t1Frame2).length =
      partBits (detectMask t1Detector t1After.w t1After.h t1Frame2) t1After.w t1After.h t1Frame2 := by
  refine ⟨⟨rfl, rfl, rfl, rfl⟩, by decide, by constructor <;> decide, rfl, fun k _ => ?_, by decide +kernel,
    by decide +kernel⟩
  unfold chunkTotal t1Detector startDetector
  rw [List.getD_eq_getElem?_getD, List.getElem?_replicate]
  split <;> rfl

theorem witness_NoRequestNoOperation :
    ({ t1 with inputs := [.control false false] }).busy = false ∧ t1.busy = false ∧ t1.inputs = [] := by
  decide
theorem witness_step_host_load :
    ∃ t, step { t1 with inputs := [.loadStream [1, 1]] } = .next t :=
  (exists_of_holds (p := fun _ => true) (by decide +kernel)).imp fun _ h => h.1
theorem witness_FaultRecordIsSticky :
    ({ t1 with faultRec := some (.romTooShort 1) }).faultRec = some (.romTooShort 1) ∧
    ∃ t, step { t1 with faultRec := some (.romTooShort 1) } = .next t :=
  ⟨rfl, (exists_of_holds (p := fun _ => true) (by decide +kernel)).imp fun _ h => h.1⟩

/-- A state that meets every invariant and takes a RUN token in its next step. -/
theorem witness_invariants :
    Memory.wf t1NextRun = true ∧ GeometryInv t1NextRun ∧ WidthInv t1NextRun ∧ CursorInv t1NextRun ∧
    SequenceInv t1NextRun ∧ BandInv t1NextRun ∧ ∃ t, step t1NextRun = .next t :=
  ⟨by decide, fun _ => by decide, by constructor <;> decide, fun _ => by decide,
    by constructor <;> decide, fun _ _ _ h => absurd (by decide) h,
    (exists_of_holds (p := fun _ => true) (by decide +kernel)).imp fun _ h => h.1⟩

end Sys2Proof.Tests
end

