-- ==== Sys2Proof/Proofs/Geometry.lean ====
section
/-! SUPPORT. The geometry invariant (R8, R266). Only DIMS writes the dimension and chunk registers: it takes
a fault or loads them checked, whatever stood in them. Every other busy step leaves them, and so do the host's
moves. -/

namespace Sys2Proof.Machine

/-! ## The named operations -/

/-- The invariant depends on the fault record, the dimension and chunk registers and the display alone. -/
theorem geometryInv_congr {s t : State} (hf : t.faultRec = s.faultRec) (hw : t.w = s.w) (hh : t.h = s.h)
    (hcw : t.cw = s.cw) (hch : t.ch = s.ch) (hdw : t.dispW = s.dispW) (hdh : t.dispH = s.dispH)
    (hs : GeometryInv s) : GeometryInv t := by
  intro h
  rw [geometryOk_congr hw hh hcw hch hdw hdh]
  exact hs (hf ▸ h)

/-- A recorded fault leaves nothing to show. -/
theorem takeFault_geometryInv (f : FaultRecord) (s : State) : GeometryInv (takeFault f s) := by
  intro h
  simp at h

theorem completeReset_geometryInv {s : State} (hw : s.w ≤ s.dispW) (hh : s.h ≤ s.dispH) :
    GeometryInv (completeReset s) :=
  fun _ => geometryOk_iff.2 ⟨hw, hh, rfl, rfl⟩

theorem runScan_geometryInv {s : State} (hs : GeometryInv s) : GeometryInv (runScan s) := by
  apply geometryInv_congr _ _ _ _ _ _ _ hs <;> simp

theorem afterLeft_geometryInv {s : State} (hs : GeometryInv s) : GeometryInv (afterLeft s) := by
  unfold afterLeft
  split
  · exact hs
  · exact hs

theorem sampleEdges_geometryInv {s : State} (hs : GeometryInv s) : GeometryInv (sampleEdges s) := by
  unfold sampleEdges
  dsimp only
  split
  · exact hs
  · exact afterLeft_geometryInv hs

/-- DIMS establishes the invariant, whatever the registers held before it (R156, R216). -/
theorem execDims_geometryInv {w h : Byte} {s t : State} (e : execDims w h s = .next t) :
    GeometryInv t := by
  obtain ⟨-, ⟨-, rfl⟩ | ⟨-, -, rfl⟩ | ⟨-, hfit, rfl⟩⟩ := execDims_next e
  · exact takeFault_geometryInv _ _
  · exact takeFault_geometryInv _ _
  · rw [not_or, not_lt, not_lt] at hfit
    exact completeReset_geometryInv hfit.1 hfit.2

/-! ## The tokens expected outside phase IDLE -/

theorem phase_ne_idle_of_expectsMask {s : State} (h : expectsMask s = true) : s.phase ≠ .idle := by
  intro hp
  simp [expectsMask, hp] at h

theorem phase_ne_idle_of_expectsColor {s : State} (h : expectsColor s = true) : s.phase ≠ .idle := by
  intro hp
  simp [expectsColor, hp] at h

theorem phase_ne_idle_of_expectsRun {s : State} (h : expectsRun s = true) : s.phase ≠ .idle := by
  intro hp
  simp [expectsRun, firstRunDue, needsRun, hp] at h

/-! ## The steps of an operation

In phase IDLE a RESET is in progress: its start has cleared the fault record, so that the invariant may
fail there, and the DIMS token it reads next restores it. -/

theorem execToken_geometryInv {i : Instr} {s t : State} (hs : s.phase ≠ .idle → GeometryInv s)
    (e : execToken i s = .next t) : GeometryInv t := by
  obtain ⟨w, h, -, e⟩ | ⟨m, -, e⟩ | ⟨n, -, e⟩ | ⟨c, -, e⟩ | ⟨g, v, -, e⟩ | ⟨-, e⟩ := execToken_next e
  · exact execDims_geometryInv e
  · obtain ⟨hx, ⟨-, rfl⟩ | ⟨-, rfl⟩⟩ := execMask_next e
    · exact hs (phase_ne_idle_of_expectsMask hx)
    · exact hs (phase_ne_idle_of_expectsMask hx)
  · obtain ⟨hx, rfl⟩ := execPad_next e
    exact hs (phase_ne_idle_of_expectsMask hx)
  · obtain ⟨hx, rfl⟩ := execColor_next e
    exact hs (phase_ne_idle_of_expectsColor hx)
  · obtain ⟨hx, -, rfl⟩ := execRunGroup_next e
    exact runScan_geometryInv (s := loadRun g v s) (hs (phase_ne_idle_of_expectsRun hx))
  · obtain ⟨-, rfl⟩ := execRunRsv_next e
    exact takeFault_geometryInv _ _

/-- The end of the ROM inside a token is a fault (R263, R264). -/
theorem overrunIn_geometryInv {c : Context} (hc : c ≠ .ctrl) (consumed ones : Nat) (s : State) :
    GeometryInv (overrunIn c consumed ones s) := by
  cases c with
  | dims => exact takeFault_geometryInv _ _
  | mask => exact takeFault_geometryInv _ _
  | color => exact takeFault_geometryInv _ _
  | run => exact takeFault_geometryInv _ _
  | ctrl => exact absurd rfl hc

theorem internalStep_geometryInv {s t : State} (hs : s.phase ≠ .idle → GeometryInv s)
    (e : internalStep s = .next t) : GeometryInv t := by
  obtain ⟨hp, rfl⟩ | ⟨hg, ⟨-, rfl⟩ | ⟨-, rfl⟩ | ⟨-, rfl⟩ | ⟨-, rfl⟩⟩ := internalStep_next e
  · exact hs (by simp [hp])
  · exact runScan_geometryInv fun _ => hg
  · exact sampleEdges_geometryInv fun _ => hg
  · exact afterLeft_geometryInv fun _ => hg
  · exact fun _ => hg

theorem busyStep_geometryInv {s t : State} (hs : s.phase ≠ .idle → GeometryInv s)
    (e : busyStep s = .next t) : GeometryInv t := by
  obtain ⟨i, c, rest, -, -, e⟩ | ⟨c, consumed, ones, hc, -, rfl⟩ | ⟨-, e⟩ := busyStep_next e
  · exact execToken_geometryInv hs e
  · exact overrunIn_geometryInv (fun h => tokenContext_ne_ctrl (h ▸ hc)) consumed ones s
  · exact internalStep_geometryInv hs e

/-! ## The host operations -/

/-- RESET establishes the invariant, whatever the registers held before it (R216). -/
theorem execReset_geometryInv {b : Bool} {s t : State} (e : execReset b s = .next t) :
    GeometryInv t :=
  busyStep_geometryInv (fun hp => absurd rfl hp) (execReset_next e).2

theorem execDecodeNextFrame_geometryInv {s t : State} (hs : GeometryInv s)
    (e : execDecodeNextFrame s = .next t) : GeometryInv t := by
  obtain ⟨-, -, -, -, e⟩ := execDecodeNextFrame_next e
  exact runOperation_induction (fun _ _ _ hu => busyStep_geometryInv fun _ => hu) _
    (s := beginFrame s) hs e

theorem step_idle_geometryInv {s t : State} (hb : s.busy = false) (hs : GeometryInv s)
    (e : step s = .next t) : GeometryInv t := by
  obtain ⟨-, rfl⟩ | ⟨b, q, -, e⟩ | ⟨q, -, e⟩ | ⟨q, -, rfl⟩ | ⟨x, y, c, q, -, e⟩ | ⟨bytes, q, -, e⟩ :=
    step_idle_next hb e
  · exact hs
  · exact execReset_geometryInv e
  · exact execDecodeNextFrame_geometryInv (s := { s with inputs := q, done := false }) hs e
  · exact hs
  · obtain ⟨-, -, rfl⟩ := hostWrite_next e
    exact hs
  · obtain ⟨-, rfl⟩ := hostLoad_next e
    exact hs

/-- Settles O54: a busy step is one step of the operation in progress, an idle one a move of the host. -/
theorem stepKeepsGeometry : Obligations.StepKeepsGeometry := by
  intro s t hs e
  cases hb : s.busy with
  | true => exact busyStep_geometryInv (fun _ => hs) (step_busy hb ▸ e)
  | false => exact step_idle_geometryInv hb hs e

end Sys2Proof.Machine
end

