-- ==== Sys2Proof/Proofs/TokenLength.lean ====
section
/-! SUPPORT. How many bits the decoder takes (R93, R264): a token as many as its format has, and an end of
the ROM inside a token all that are left. The window a token is decoded from holds only bits that exist. -/

namespace Sys2Proof.Machine

/-! ## The one-bits that begin a RUN token (R136) -/

theorem readPrefix_true (ones : Nat) (bits : List Bool) : readPrefix ones (true :: bits) =
    if ones + 1 = 6 then .reserved bits else readPrefix (ones + 1) bits := rfl

theorem readPrefix_stop {ones k : Nat} {bits rest : List Bool} (h0 : ones < 6)
    (h : readPrefix ones bits = .stop k rest) : k < 6 ∧ bits.length + ones = k + 1 + rest.length := by
  induction bits generalizing ones with
  | nil => cases h
  | cons b bs ih =>
    cases b with
    | false =>
      cases h
      simp only [List.length_cons]
      omega
    | true =>
      rw [readPrefix_true] at h
      split at h
      · cases h
      · have := ih (by omega) h
        simp only [List.length_cons]
        omega

theorem readPrefix_reserved {ones : Nat} {bits rest : List Bool} (h0 : ones < 6)
    (h : readPrefix ones bits = .reserved rest) : bits.length + ones = 6 + rest.length := by
  induction bits generalizing ones with
  | nil => cases h
  | cons b bs ih =>
    cases b with
    | false => cases h
    | true =>
      rw [readPrefix_true] at h
      simp only [List.length_cons]
      split at h
      · cases h
        omega
      · have := ih (by omega) h
        omega

theorem readPrefix_overrun {ones k : Nat} {bits : List Bool} (h0 : ones < 6)
    (h : readPrefix ones bits = .overrun k) : k < 6 := by
  induction bits generalizing ones with
  | nil => cases h; exact h0
  | cons b bs ih =>
    cases b with
    | false => cases h
    | true =>
      rw [readPrefix_true] at h
      split at h
      · cases h
      · exact ih (by omega) h

theorem runToken_length {g v : Nat} (h1 : 1 ≤ g) (h6 : g ≤ 6) : (runToken g v).length = 4 * g := by
  interval_cases g <;> rfl

theorem RunField.length {i : Instr} {g v : Nat} (h : RunField i g v) : i.length = 4 * g := by
  cases i <;> simp only [RunField] at h <;> obtain ⟨rfl, -⟩ := h <;> rfl

theorem RunField.context {i : Instr} {g v : Nat} (h : RunField i g v) : i.context = .run := by
  cases i <;> simp only [RunField] at h <;> rfl

/-! ## The decoder -/

theorem decodeRun_length {bits rest : List Bool} {i : Instr} (h : decodeRun bits = .ok i rest) :
    bits.length = i.length + rest.length := by
  unfold decodeRun at h
  split at h
  · cases h
  · rename_i hp
    cases h
    exact readPrefix_reserved (by decide) hp
  · rename_i k r hp
    obtain ⟨hk, hlen⟩ := readPrefix_stop (by decide) hp
    dsimp only at h
    split at h
    · cases h
    · rename_i hv
      cases h
      change ¬ r.length < 3 * (k + 1) at hv
      change _ = _ + (r.drop (3 * (k + 1))).length
      rw [runToken_length (by omega) (by omega), List.length_drop]
      omega

theorem decodeRun_overrun {bits : List Bool} {consumed ones : Nat}
    (h : decodeRun bits = .error (.overrun consumed ones)) : consumed = bits.length ∧ ones < 6 := by
  unfold decodeRun at h
  split at h
  · rename_i hp
    cases h
    exact ⟨rfl, readPrefix_overrun (by decide) hp⟩
  · cases h
  · rename_i k r hp
    dsimp only at h
    split at h
    · cases h
      exact ⟨rfl, (readPrefix_stop (by decide) hp).1⟩
    · cases h

/-- What the decoder reads is as long as the table says (R93). -/
theorem decode_length {c : Context} {bits rest : List Bool} {i : Instr}
    (h : decode c bits = .ok i rest) : bits.length = i.length + rest.length := by
  cases c with
  | dims =>
    simp only [decode, decodeDims] at h
    split at h
    · cases h
    · cases h
      simp only [Instr.length, List.length_drop]
      omega
  | mask =>
    simp only [decode, decodeMask] at h
    split at h
    · cases h
      rfl
    · rename_i h64
      cases h
      change ¬ bits.length < 64 at h64
      simp only [Instr.length, List.length_drop]
      omega
  | color =>
    cases bits with
    | nil => cases h
    | cons b bs =>
      cases h
      exact Nat.add_comm _ _
  | run => exact decodeRun_length h
  | ctrl =>
    match bits, h with
    | true :: b :: bs, h => cases h; exact Nat.add_comm rest.length 2
    | false :: true :: bs, h => cases h; exact Nat.add_comm rest.length 2
    | false :: false :: bs, h => cases h
    | [b], h => cases b <;> cases h
    | [], h => cases h

/-! ## The window -/

theorem tokenWindow_dims_length_le (s : State) : (tokenWindow .dims s).length ≤ 8 * s.romLen := by
  simp only [tokenWindow, streamBits_length]
  omega

theorem tokenWindow_length_le {c : Context} (hc : c ≠ .dims) (s : State) :
    (tokenWindow c s).length ≤ remaining s := by
  cases c with
  | dims => exact absurd rfl hc
  | ctrl => exact Nat.zero_le _
  | mask | color | run =>
    simp only [tokenWindow, streamBits_length, remaining]
    omega

/-- A token read at the cursor lies in the stream (R22, R264). -/
theorem length_le_remaining {c : Context} {s : State} {i : Instr} {rest : List Bool} (hc : c ≠ .dims)
    (h : decode c (tokenWindow c s) = .ok i rest) : i.length ≤ remaining s := by
  have := decode_length h
  have := tokenWindow_length_le hc s
  omega

end Sys2Proof.Machine
end

