-- ==== Sys2Proof/Proofs/BusyStep.lean ====
section
/-! SUPPORT. Once for a step: every next state it can answer. `BusyNext` lists the next states of one step of
an operation; `runOperation_keeps` and `step_keeps` are the inductions that turn a property every such step
keeps into one that every operation, and every step of the machine, keeps. -/

namespace Sys2Proof.Machine

/-- The next states of a step of the operation in progress, with the condition each is taken under. A fault
stands here without what it records. -/
inductive BusyNext (s : State) : State → Prop
  /-- DIMS with bytes it must not hold (R265, R266). -/
  | dimsFault (f : FaultRecord) (w h : Byte) (hx : expectsDims s = true) :
      BusyNext s (takeFault f { s with w := w.toNat, h := h.toNat })
  /-- DIMS completes the RESET (R156, R216). -/
  | dims (w h : Byte) (hx : expectsDims s = true) (hbits : 16 ≤ 8 * s.romLen) :
      BusyNext s (completeReset { s with w := w.toNat, h := h.toNat })
  /-- The ROM ends where DIMS or COLOR is due (R263, R264). -/
  | endOfRom (f : FaultRecord) : BusyNext s (takeFault f s)
  /-- The first frame's implicit mask (R157). -/
  | fullMask (hp : s.phase = .header) : BusyNext s (loadFullMask s)
  /-- MASK with a zero mask (R160). -/
  | zeroMask (hx : expectsMask s = true) (hbits : 64 ≤ remaining s) :
      BusyNext s (finish true { s with mask := 0, cursor := s.cursor + 64 })
  /-- MASK with another mask (R161). -/
  | mask (m : MaskWord) (hx : expectsMask s = true) (hbits : 64 ≤ remaining s) :
      BusyNext s { s with mask := m, cursor := s.cursor + 64, phase := .color, gotColor := false }
  /-- The bounded read fails (R159). -/
  | pad (hx : expectsMask s = true) : BusyNext s (finish false s)
  /-- COLOR (R171). -/
  | color (c : Bool) (hx : expectsColor s = true) (hbits : 1 ≤ remaining s) :
      BusyNext s { s with color := c, cursor := s.cursor + 1, gotColor := true }
  /-- A RUN token, and the scan as far as it carries (R172, R173, R178). -/
  | run (g v : Nat) (hx : expectsRun s = true) (h1 : 1 ≤ g) (h6 : g ≤ 6) (hv : v < 2 ^ (3 * g))
      (hbits : 4 * g ≤ remaining s) : BusyNext s (runScan (loadRun g v s))
  /-- RUN.RSV (R148), or the ROM ends inside a RUN token (R264). -/
  | runFault (f : FaultRecord) (n ones : Nat) (hones : ones < 8) (hbits : n ≤ remaining s) :
      BusyNext s (takeFault f { beginRun s with cursor := s.cursor + n, ones := ones })
  /-- The scan goes on without a token (R173). -/
  | scan (hp : s.phase = .scan) : BusyNext s (runScan s)
  /-- SAMPLE (R197). -/
  | sample (hp : s.phase = .sample) : BusyNext s (sampleEdges s)
  /-- FILL_L (R200). -/
  | fillL (hp : s.phase = .fillL) : BusyNext s (fillLeft s)
  /-- FILL_R (R202). -/
  | fillR (hp : s.phase = .fillR) : BusyNext s (fillRight s)

/-! ## Every busy step is one of these -/

theorem execToken_busyNext {c : Context} {i : Instr} {rest : List Bool} {s t : State}
    (hd : decode c (tokenWindow c s) = .ok i rest) (e : execToken i s = .next t) : BusyNext s t := by
  have hc := decode_context hd
  have hbits : c ≠ .dims → i.length ≤ remaining s := fun h => length_le_remaining h hd
  obtain ⟨w, h, rfl, e⟩ | ⟨m, rfl, e⟩ | ⟨n, rfl, e⟩ | ⟨b, rfl, e⟩ | ⟨g, v, hf, e⟩ | ⟨rfl, e⟩ :=
    execToken_next e
  · obtain rfl : Context.dims = c := hc
    have hlen := decode_length hd
    have hwin := tokenWindow_dims_length_le s
    obtain ⟨hx, ⟨-, rfl⟩ | ⟨-, -, rfl⟩ | ⟨-, -, rfl⟩⟩ := execDims_next e
    · exact .dimsFault _ w h hx
    · exact .dimsFault _ w h hx
    · refine .dims w h hx ?_
      simp only [Instr.length] at hlen
      omega
  · obtain rfl : Context.mask = c := hc
    obtain ⟨hx, ⟨rfl, rfl⟩ | ⟨-, rfl⟩⟩ := execMask_next e
    · exact .zeroMask hx (hbits (by decide))
    · exact .mask m hx (hbits (by decide))
  · obtain ⟨hx, rfl⟩ := execPad_next (n := n) e
    exact .pad hx
  · obtain rfl : Context.color = c := hc
    obtain ⟨hx, rfl⟩ := execColor_next e
    exact .color b hx (hbits (by decide))
  · obtain ⟨hx, -, rfl⟩ := execRunGroup_next e
    obtain ⟨h1, h6, hv⟩ := hf.bounds
    obtain rfl : Context.run = c := hf.context ▸ hc
    exact .run g v hx h1 h6 hv (hf.length ▸ hbits (by decide))
  · obtain rfl : Context.run = c := hc
    obtain ⟨-, rfl⟩ := execRunRsv_next e
    exact .runFault _ 6 6 (by decide) (hbits (by decide))

theorem overrunIn_busyNext {c : Context} {consumed ones : Nat} {s : State} (hc : c ≠ .ctrl)
    (hd : decode c (tokenWindow c s) = .error (.overrun consumed ones)) :
    BusyNext s (overrunIn c consumed ones s) := by
  cases c with
  | dims => exact .endOfRom _
  | mask =>
    simp only [decode, decodeMask] at hd
    split at hd <;> cases hd
  | color =>
    simp only [decode] at hd
    cases hw : tokenWindow .color s with
    | nil =>
      rw [hw] at hd
      cases hd
      exact .endOfRom _
    | cons b bs =>
      rw [hw] at hd
      cases hd
  | run =>
    obtain ⟨rfl, hones⟩ := decodeRun_overrun hd
    exact .runFault _ _ _ (by omega) (tokenWindow_length_le (by decide) s)
  | ctrl => exact absurd rfl hc

theorem internalStep_busyNext {s t : State} (e : internalStep s = .next t) : BusyNext s t := by
  obtain ⟨hp, rfl⟩ | ⟨-, ⟨hp, rfl⟩ | ⟨hp, rfl⟩ | ⟨hp, rfl⟩ | ⟨hp, rfl⟩⟩ := internalStep_next e
  · exact .fullMask hp
  · exact .scan hp
  · exact .sample hp
  · exact .fillL hp
  · exact .fillR hp

theorem busyStep_busyNext {s t : State} (e : busyStep s = .next t) : BusyNext s t := by
  obtain ⟨i, c, rest, -, hd, e⟩ | ⟨c, consumed, ones, hc, hd, rfl⟩ | ⟨-, e⟩ := busyStep_next e
  · exact execToken_busyNext hd e
  · exact overrunIn_busyNext (fun h => tokenContext_ne_ctrl (h ▸ hc)) hd
  · exact internalStep_busyNext e

/-! ## When a token is expected -/

theorem expectsDims_iff {s : State} : expectsDims s = true ↔ s.busy = true ∧ s.phase = .idle := by
  simp [expectsDims]

theorem expectsColor_iff {s : State} :
    expectsColor s = true ↔ s.busy = true ∧ s.phase = .color ∧ s.gotColor = false := by
  simp [expectsColor, and_assoc]

/-! ## The border step's frame -/

/-- Everything the border step leaves unchanged; the mark of log 6 it leaves or clears. -/
structure BorderFrame (s t : State) : Prop where
  dispW : t.dispW = s.dispW
  dispH : t.dispH = s.dispH
  addrW : t.addrW = s.addrW
  fbLayout : t.fbLayout = s.fbLayout
  rom : t.rom = s.rom
  romLen : t.romLen = s.romLen
  cursor : t.cursor = s.cursor
  firstFrame : t.firstFrame = s.firstFrame
  w : t.w = s.w
  h : t.h = s.h
  cw : t.cw = s.cw
  ch : t.ch = s.ch
  mask : t.mask = s.mask
  color : t.color = s.color
  run : t.run = s.run
  ones : t.ones = s.ones
  value : t.value = s.value
  x : t.x = s.x
  y : t.y = s.y
  faultRec : t.faultRec = s.faultRec
  ready : t.ready = s.ready
  streamSeen : t.streamSeen = s.streamSeen
  gotColor : t.gotColor = true → s.gotColor = true
  inputs : t.inputs = s.inputs
  draws : t.draws = s.draws
  fbDraw : t.fbDraw = s.fbDraw

theorem BorderFrame.refl (s : State) : BorderFrame s s := by
  constructor <;> simp

theorem finish_borderFrame (r : Bool) (s : State) : BorderFrame s (finish r s) :=
  { BorderFrame.refl s with gotColor := Bool.noConfusion }

theorem afterLeft_borderFrame (s : State) : BorderFrame s (afterLeft s) := by
  unfold afterLeft
  split
  · exact { BorderFrame.refl s with }
  · exact finish_borderFrame true s

theorem sampleEdges_borderFrame (s : State) : BorderFrame s (sampleEdges s) := by
  unfold sampleEdges
  dsimp only
  split
  · exact { BorderFrame.refl s with }
  · exact { afterLeft_borderFrame _ with }

theorem fillLeft_borderFrame (s : State) : BorderFrame s (fillLeft s) :=
  { afterLeft_borderFrame _ with }

/-! ## Invariants -/

theorem runOperation_keeps {P : State → Prop}
    (hstep : ∀ s t, s.busy = true → P s → BusyNext s t → P t)
    (n : Nat) {s t : State} (hs : P s) (e : runOperation n s = .next t) : P t :=
  runOperation_induction (fun u v hb hu hv => hstep u v hb hu (busyStep_busyNext hv)) n hs e

/-- What a busy step, the start of each operation and each move of the host keep, every step keeps. -/
theorem step_keeps {P : State → Prop}
    (hbusy : ∀ s t, s.busy = true → P s → BusyNext s t → P t)
    (hreset : ∀ s, P s → P (beginReset s))
    (hframe : ∀ s, P s → P (beginFrame s))
    (hinput : ∀ s q, P s → P { s with inputs := q, done := false })
    (hwrite : ∀ s x y c, P s → P (fbWrite s x y c))
    (hload : ∀ s rom n, P s → P { s with rom := rom, romLen := n, streamSeen := false })
    {s t : State} (hs : P s) (e : step s = .next t) : P t := by
  cases hb : s.busy with
  | true => exact hbusy s t hb hs (busyStep_busyNext (step_busy hb ▸ e))
  | false =>
    obtain ⟨-, rfl⟩ | ⟨b, q, -, e⟩ | ⟨q, -, e⟩ | ⟨q, -, rfl⟩ | ⟨x, y, c, q, -, e⟩ | ⟨bytes, q, -, e⟩ :=
      step_idle_next hb e
    · exact hinput s s.inputs hs
    · exact hbusy _ t rfl (hreset _ (hinput s q hs)) (busyStep_busyNext (execReset_next e).2)
    · obtain ⟨-, -, -, -, e⟩ := execDecodeNextFrame_next e
      exact runOperation_keeps hbusy _ (hframe _ (hinput s q hs)) e
    · exact hinput s q hs
    · obtain ⟨-, -, rfl⟩ := hostWrite_next e
      exact hwrite _ x y c (hinput s q hs)
    · obtain ⟨-, rfl⟩ := hostLoad_next e
      exact hload _ _ _ (hinput s q hs)

end Sys2Proof.Machine
end

