-- ==== Sys2Proof/Proofs/State.lean ====
section
/-! SUPPORT. The registers (10_state): the width, cursor and sequencing invariants, the fault record, the
cursor's direction, and what RESET loads. -/

namespace Sys2Proof.Machine

/-! ## Register widths (R24, R25, R28 to R31) -/

theorem byte_toNat_le (b : Byte) : b.toNat ≤ 255 := Nat.le_of_lt_succ b.isLt

theorem ceilDiv8_le {n : Nat} (h : n ≤ 255) : ceilDiv8 n ≤ 32 := by
  unfold ceilDiv8
  omega

theorem takeFault_widthInv (f : FaultRecord) {s : State} (hs : WidthInv s) : WidthInv (takeFault f s) := by
  unfold takeFault
  split <;> exact { hs with }

/-- The dimension bytes fit their registers, and so do the chunk sizes computed from them. -/
theorem loadDims_widthInv {s : State} (w h : Byte) (hs : WidthInv s) :
    WidthInv { s with w := w.toNat, h := h.toNat } :=
  { hs with w := byte_toNat_le w, h := byte_toNat_le h }

theorem completeReset_widthInv {s : State} (hs : WidthInv s) : WidthInv (completeReset s) :=
  { hs with cw := ceilDiv8_le hs.w, ch := ceilDiv8_le hs.h }

/-- A RUN token's fields fit their registers (R136, R138, R141). -/
theorem loadRun_widthInv {g v : Nat} {s : State} (h1 : 1 ≤ g) (h6 : g ≤ 6) (hv : v < 2 ^ (3 * g))
    (hs : WidthInv s) : WidthInv (loadRun g v s) := by
  have hvalue : v < 2 ^ 18 := hv.trans_le (Nat.pow_le_pow_right (by decide) (by omega))
  refine { hs with
    run := (runLength_bounds h1 h6 hv).2
    ones := show g - 1 < 8 by omega
    value := hvalue
    x := ?_
    y := ?_ }
  · rw [loadRun_x]
    split
    · exact hs.x
    · decide
  · rw [loadRun_y]
    split
    · exact hs.y
    · decide

/-- The scan stays below `W` in `X` and below `H + CH` in `Y` (R30). -/
theorem runScan_widthInv {s : State} (hs : WidthInv s) : WidthInv (runScan s) := by
  refine scan_induction (P := WidthInv) ?next ?skip ?paint ?done _ s hs
  case next =>
    intro t ht hx _
    have := ht.w
    exact { ht with x := show t.x + 1 < 256 by omega, y := Nat.zero_le _ }
  case skip =>
    intro t ht _ hy _
    have := ht.h
    have := ht.ch
    exact { ht with y := show t.y + t.ch ≤ 286 by omega }
  case paint =>
    intro t ht _ hy _ _
    have := ht.h
    have := ht.run
    exact { ht with run := show t.run - 1 ≤ Config.runMax by omega, y := show t.y + 1 ≤ 286 by omega }
  case done => exact fun t ht _ => { ht with }

theorem countOn_le (s : State) (x : Nat) : countOn s x ≤ s.h := by
  simpa [countOn] using List.countP_le_length (l := List.range s.h)

theorem countOff_le (s : State) (x : Nat) : countOff s x ≤ s.h := by
  simpa [countOff] using List.countP_le_length (l := List.range s.h)

theorem afterLeft_widthInv {s : State} (hs : WidthInv s) : WidthInv (afterLeft s) := by
  unfold afterLeft
  split <;> exact { hs with }

/-- An edge's counts are at most `H` (R31). -/
theorem sampleEdges_widthInv {s : State} (hs : WidthInv s) : WidthInv (sampleEdges s) := by
  have ht : WidthInv { s with
      el1 := countOn s (offX s)
      el0 := countOff s (offX s)
      er1 := countOn s (offX s + s.w - 1)
      er0 := countOff s (offX s + s.w - 1) } :=
    { hs with
      el1 := (countOn_le s _).trans hs.h
      el0 := (countOff_le s _).trans hs.h
      er1 := (countOn_le s _).trans hs.h
      er0 := (countOff_le s _).trans hs.h }
  unfold sampleEdges
  dsimp only
  split
  · exact { ht with }
  · exact afterLeft_widthInv ht

theorem busyNext_widthInv {s t : State} (hs : WidthInv s) (hn : BusyNext s t) : WidthInv t := by
  cases hn with
  | dimsFault f w h => exact takeFault_widthInv f (loadDims_widthInv w h hs)
  | dims w h => exact completeReset_widthInv (loadDims_widthInv w h hs)
  | endOfRom f => exact takeFault_widthInv f hs
  | run g v hx h1 h6 hv => exact runScan_widthInv (loadRun_widthInv h1 h6 hv hs)
  | runFault f n ones hones =>
    exact takeFault_widthInv f (s := { beginRun s with cursor := s.cursor + n, ones := ones })
      { hs with ones := hones }
  | scan => exact runScan_widthInv hs
  | sample => exact sampleEdges_widthInv hs
  | fillL => exact afterLeft_widthInv { hs with }
  | fullMask | zeroMask | mask | pad | color | fillR => exact { hs with }

/-- Settles O55: a token's fields are as wide as their registers, the scan's position is bounded by the
frame's dimensions and the chunk height, and an edge has at most `H` pixels. -/
theorem stepKeepsRegisterWidths : Obligations.StepKeepsRegisterWidths := by
  intro s t hs e
  refine step_keeps (P := WidthInv) ?_ ?_ ?_ ?_ ?_ ?_ hs e
  · exact fun _ _ _ => busyNext_widthInv
  · exact fun _ h => { h with }
  · exact fun _ h => { h with }
  · exact fun _ _ h => { h with }
  · exact fun _ _ _ _ h => { h with }
  · exact fun _ _ _ h => { h with }

/-! ## The cursor (R22) -/

/-- A busy step consumes bits that exist, or it completes a RESET whose two dimension bytes exist. -/
theorem busyNext_cursor {s t : State} (hn : BusyNext s t) : t.romLen = s.romLen ∧
    ((t.streamSeen = s.streamSeen ∧ ∃ n, n ≤ remaining s ∧ t.cursor = s.cursor + n) ∨
      (s.phase = .idle ∧ t.cursor = 16 ∧ 16 ≤ 8 * s.romLen)) := by
  cases hn with
  | dimsFault | endOfRom => exact ⟨by simp, .inl ⟨by simp, 0, Nat.zero_le _, by simp⟩⟩
  | dims w h hx hbits => exact ⟨rfl, .inr ⟨(expectsDims_iff.1 hx).2, rfl, hbits⟩⟩
  | zeroMask hx hbits | mask m hx hbits => exact ⟨rfl, .inl ⟨rfl, 64, hbits, rfl⟩⟩
  | color c hx hbits => exact ⟨rfl, .inl ⟨rfl, 1, hbits, rfl⟩⟩
  | run g v hx h1 h6 hv hbits => exact ⟨by simp, .inl ⟨by simp, 4 * g, hbits, by simp⟩⟩
  | runFault f n ones hones hbits => exact ⟨by simp, .inl ⟨by simp, n, hbits, by simp⟩⟩
  | fullMask | pad => exact ⟨rfl, .inl ⟨rfl, 0, Nat.zero_le _, rfl⟩⟩
  | scan => exact ⟨by simp, .inl ⟨by simp, 0, Nat.zero_le _, by simp⟩⟩
  | sample =>
    have h := sampleEdges_borderFrame s
    exact ⟨h.romLen, .inl ⟨h.streamSeen, 0, Nat.zero_le _, h.cursor⟩⟩
  | fillL =>
    have h := fillLeft_borderFrame s
    exact ⟨h.romLen, .inl ⟨h.streamSeen, 0, Nat.zero_le _, h.cursor⟩⟩
  | fillR => exact ⟨rfl, .inl ⟨rfl, 0, Nat.zero_le _, rfl⟩⟩

theorem busyNext_cursorInv {s t : State} (hs : CursorInv s) (hn : BusyNext s t) : CursorInv t := by
  obtain ⟨hlen, ⟨hseen, n, hrem, hcur⟩ | ⟨-, hcur, hbits⟩⟩ := busyNext_cursor hn
  · intro h
    have hin := hs (hseen ▸ h)
    unfold remaining at hrem
    omega
  · intro _
    omega

/-- Settles O56: only bits that exist are consumed, RESET goes behind two bytes it has read, and a stream
the host loads is one no RESET has seen. -/
theorem stepKeepsCursorInStream : Obligations.StepKeepsCursorInStream := by
  intro s t hs e
  refine step_keeps (P := CursorInv) ?_ ?_ ?_ ?_ ?_ ?_ hs e
  · exact fun _ _ _ => busyNext_cursorInv
  · exact fun _ h => h
  · exact fun _ h => h
  · exact fun _ _ h => h
  · exact fun _ _ _ _ h => h
  · exact fun _ _ _ _ h => Bool.noConfusion h

/-! ## Sequencing (R32, R33, R221) -/

/-- What a step does with the operation in progress: it ends it, or the operation goes on in a phase other
than IDLE. -/
def EndsOrGoesOn (s t : State) : Prop :=
  (t.busy = false ∧ t.phase = .idle) ∨ (t.busy = s.busy ∧ t.done = s.done ∧ t.phase ≠ .idle)

theorem runScan_phase {s : State} (h : s.phase = .scan) :
    (runScan s).phase = .scan ∨ (runScan s).phase = .sample := by
  refine scan_induction (P := fun t => t.phase = .scan ∨ t.phase = .sample) ?_ ?_ ?_ ?_ _ s (.inl h)
  · exact fun t ht _ _ => ht
  · exact fun t ht _ _ _ => ht
  · exact fun t ht _ _ _ _ => ht
  · exact fun t _ _ => .inr rfl

theorem runScan_phase_ne_idle {s : State} (h : s.phase = .scan) : (runScan s).phase ≠ .idle := by
  rcases runScan_phase h with h | h <;> simp [h]

theorem afterLeft_endsOrGoesOn (s : State) : EndsOrGoesOn s (afterLeft s) := by
  unfold afterLeft
  split
  · exact .inr ⟨rfl, rfl, Phase.noConfusion⟩
  · exact .inl ⟨rfl, rfl⟩

theorem sampleEdges_endsOrGoesOn (s : State) : EndsOrGoesOn s (sampleEdges s) := by
  unfold sampleEdges
  dsimp only
  split
  · exact .inr ⟨rfl, rfl, Phase.noConfusion⟩
  · exact afterLeft_endsOrGoesOn _

theorem busyNext_endsOrGoesOn {s t : State} (hn : BusyNext s t) : EndsOrGoesOn s t := by
  cases hn with
  | dimsFault | endOfRom | runFault => exact .inl ⟨by simp, by simp⟩
  | dims | zeroMask | pad | fillR => exact .inl ⟨rfl, rfl⟩
  | fullMask | mask => exact .inr ⟨rfl, rfl, Phase.noConfusion⟩
  | color c hx => exact .inr ⟨rfl, rfl, phase_ne_idle_of_expectsColor (s := s) hx⟩
  | run => exact .inr ⟨by simp, by simp, runScan_phase_ne_idle rfl⟩
  | scan hp => exact .inr ⟨by simp, by simp, runScan_phase_ne_idle hp⟩
  | sample => exact sampleEdges_endsOrGoesOn s
  | fillL => exact afterLeft_endsOrGoesOn _

/-- The mark of log 6 stands in phase COLOR only. -/
theorem busyNext_mark {s t : State} (hs : s.gotColor = true → s.phase = .color) (hn : BusyNext s t)
    (ht : t.gotColor = true) : t.phase = .color := by
  have unmarked : ∀ p, s.phase = p → p ≠ .color → ¬ s.gotColor = true :=
    fun p hp hne h => hne (hp ▸ hs h)
  cases hn with
  | dimsFault | endOfRom | runFault | run => simp at ht
  | zeroMask | mask | pad | fillR => cases ht
  | fullMask => rfl
  | color c hx =>
    obtain ⟨-, hp, -⟩ := expectsColor_iff.1 hx
    exact hp
  | dims w h hx => exact absurd ht (unmarked _ ((expectsDims_iff.1 hx).2) (by decide))
  | scan hp => exact absurd (by simpa using ht) (unmarked _ hp (by decide))
  | sample hp => exact absurd ((sampleEdges_borderFrame s).gotColor ht) (unmarked _ hp (by decide))
  | fillL hp => exact absurd ((fillLeft_borderFrame s).gotColor ht) (unmarked _ hp (by decide))

theorem busyNext_sequenceInv {s t : State} (hb : s.busy = true) (hs : SequenceInv s)
    (hn : BusyNext s t) : SequenceInv t := by
  obtain ⟨hbusy, hphase⟩ | ⟨hbusy, hdone, -⟩ := busyNext_endsOrGoesOn hn
  · exact ⟨fun _ => hphase, fun h => by simp [hbusy] at h, busyNext_mark hs.mark hn⟩
  · exact ⟨fun h => by simp [hbusy, hb] at h, fun _ => hdone.trans (hs.pulse hb), busyNext_mark hs.mark hn⟩

/-- Settles O57: a busy step ends the operation in IDLE or leaves `BUSY` and `DONE` alone, and both
operations begin with `DONE` and the mark cleared. -/
theorem stepKeepsSequencing : Obligations.StepKeepsSequencing := by
  intro s t hs e
  refine step_keeps (P := SequenceInv) ?_ ?_ ?_ ?_ ?_ ?_ hs e
  · exact fun _ _ => busyNext_sequenceInv
  · exact fun _ _ => ⟨Bool.noConfusion, fun _ => rfl, Bool.noConfusion⟩
  · exact fun _ _ => ⟨Bool.noConfusion, fun _ => rfl, Bool.noConfusion⟩
  · exact fun _ _ h => { h with pulse := fun _ => rfl }
  · exact fun _ _ _ _ h => { h with }
  · exact fun _ _ _ h => { h with }

/-! ## The fault record (R34) -/

theorem busyNext_faultRec {s t : State} {f : FaultRecord} (hs : s.faultRec = some f)
    (hn : BusyNext s t) : t.faultRec = some f := by
  cases hn with
  | dimsFault | endOfRom | runFault => simp [hs]
  | run | scan => simpa using hs
  | sample => exact (sampleEdges_borderFrame s).faultRec.trans hs
  | fillL => exact (fillLeft_borderFrame s).faultRec.trans hs
  | dims | fullMask | zeroMask | mask | pad | color | fillR => exact hs

/-- Settles O49: taking a fault keeps the first record, DECODE_NEXT_FRAME is refused while there is one, and
no other move touches it. -/
theorem faultRecordIsSticky : Obligations.FaultRecordIsSticky := by
  intro s t f hs e
  cases hb : s.busy with
  | true => exact .inl (busyNext_faultRec hs (busyStep_busyNext (step_busy hb ▸ e)))
  | false =>
    obtain ⟨-, rfl⟩ | ⟨b, q, hi, -⟩ | ⟨q, -, e⟩ | ⟨q, -, rfl⟩ | ⟨x, y, c, q, -, e⟩ | ⟨bytes, q, -, e⟩ :=
      step_idle_next hb e
    · exact .inl hs
    · exact .inr ⟨rfl, b, q, hi⟩
    · obtain ⟨-, -, hnone, -⟩ := execDecodeNextFrame_next e
      exact absurd (hs.symm.trans hnone) (by simp)
    · exact .inl hs
    · obtain ⟨-, -, rfl⟩ := hostWrite_next e
      exact .inl hs
    · obtain ⟨-, rfl⟩ := hostLoad_next e
      exact .inl hs

/-! ## The cursor's direction (R22) -/

theorem busyNext_cursor_le {s t : State} (hn : BusyNext s t) :
    s.cursor ≤ t.cursor ∨ (s.phase = .idle ∧ t.cursor = 16) := by
  obtain ⟨-, ⟨-, n, -, hcur⟩ | ⟨hp, hcur, -⟩⟩ := busyNext_cursor hn
  · exact .inl (hcur ▸ Nat.le_add_right _ _)
  · exact .inr ⟨hp, hcur⟩

/-- No step of a DECODE_NEXT_FRAME is one of a RESET: its phase is not IDLE while it is in progress. -/
theorem execDecodeNextFrame_cursor_le {s t : State} (e : execDecodeNextFrame s = .next t) :
    s.cursor ≤ t.cursor := by
  obtain ⟨-, -, -, -, e⟩ := execDecodeNextFrame_next e
  refine (runOperation_keeps (P := fun u => s.cursor ≤ u.cursor ∧ (u.busy = true → u.phase ≠ .idle))
    ?_ _ (s := beginFrame s) ⟨Nat.le_refl _, fun _ => Phase.noConfusion⟩ e).1
  rintro u v hb ⟨hle, hne⟩ hn
  constructor
  · obtain h | ⟨hp, -⟩ := busyNext_cursor_le hn
    · exact hle.trans h
    · exact absurd hp (hne hb)
  · obtain ⟨hbusy, -⟩ | ⟨-, -, hp⟩ := busyNext_endsOrGoesOn hn
    · simp [hbusy]
    · exact fun _ => hp

/-- Settles O51: a busy step moves the cursor backwards in phase IDLE only, where a RESET is in progress. -/
theorem cursorMovesForward : Obligations.CursorMovesForward := by
  intro s t e
  cases hb : s.busy with
  | true =>
    exact (busyNext_cursor_le (busyStep_busyNext (step_busy hb ▸ e))).imp id
      fun ⟨hp, hcur⟩ => ⟨hcur, .inl ⟨rfl, hp⟩⟩
  | false =>
    obtain ⟨-, rfl⟩ | ⟨b, q, hi, e⟩ | ⟨q, -, e⟩ | ⟨q, -, rfl⟩ | ⟨x, y, c, q, -, e⟩ | ⟨bytes, q, -, e⟩ :=
      step_idle_next hb e
    · exact .inl (Nat.le_refl _)
    · exact (busyNext_cursor_le (busyStep_busyNext (execReset_next e).2)).imp id
        fun ⟨_, hcur⟩ => ⟨hcur, .inr ⟨rfl, b, q, hi⟩⟩
    · exact .inl (execDecodeNextFrame_cursor_le (s := { s with inputs := q, done := false }) e)
    · exact .inl (Nat.le_refl _)
    · obtain ⟨-, -, rfl⟩ := hostWrite_next e
      exact .inl (Nat.le_refl _)
    · obtain ⟨-, rfl⟩ := hostLoad_next e
      exact .inl (Nat.le_refl _)

/-! ## RESET (R39, R216) -/

/-- A byte's bits, first bit most significant, are the byte (R70). -/
theorem bitsToNat_byteBits (b : Byte) : BitVec.ofNat 8 (bitsToNat (byteBits b)) = b := by
  revert b
  decide

/-- The eight stream bits of a ROM byte come before those of the next (R70). -/
theorem streamBits_byte {s : State} {a : Nat} {b : Byte} (hb : romRead s a = some b) (n : Nat) :
    streamBits s (8 * a) (n + 8) = byteBits b ++ streamBits s (8 * (a + 1)) n := by
  have hbit : ∀ j, j < 8 → romBit s (8 * a + j) = some (b.getLsbD (7 - j)) := by
    intro j hj
    have hdiv : (8 * a + j) / 8 = a := by omega
    have hmod : (8 * a + j) % 8 = j := by omega
    rw [romBit, hdiv, hmod, hb]
    rfl
  have h0 : romBit s (8 * a) = some (b.getLsbD 7) := hbit 0 (by decide)
  simp (disch := decide) only [streamBits, Nat.add_assoc, Nat.reduceAdd, h0, hbit]
  rfl

/-- A RESET in progress runs DIMS on the first two ROM bytes (R62, R156). -/
theorem busyStep_dims {s : State} {w h : Byte} (hp : s.phase = .idle) (hw : romRead s 0 = some w)
    (hh : romRead s 1 = some h) : busyStep s = execDims w h s := by
  have hctx : tokenContext s = some .dims := by simp [tokenContext, hp]
  have hwin : tokenWindow .dims s = byteBits w ++ byteBits h := by
    have h0 := streamBits_byte hw 8
    have h1 := streamBits_byte hh 0
    simp only [streamBits, List.append_nil] at h1
    exact h0.trans (congrArg _ h1)
  have hdec : decode .dims (byteBits w ++ byteBits h) =
      .ok (.dims (BitVec.ofNat 8 (bitsToNat (byteBits w))) (BitVec.ofNat 8 (bitsToNat (byteBits h)))) [] :=
    rfl
  rw [bitsToNat_byteBits, bitsToNat_byteBits] at hdec
  simp only [busyStep, fetchToken, hctx, hwin, hdec]
  rfl

/-- DIMS with legal bytes completes the RESET (R156, R216). -/
theorem execDims_legal {s : State} {w h : Byte} (hx : expectsDims s = true) (hw : w ≠ 0) (hh : h ≠ 0)
    (hfitw : w.toNat ≤ s.dispW) (hfith : h.toNat ≤ s.dispH) :
    execDims w h s = .next (completeReset { s with w := w.toNat, h := h.toNat }) := by
  have hzero : ¬ (w.toNat = 0 ∨ h.toNat = 0) := by
    rintro (h0 | h0)
    · exact hw (BitVec.eq_of_toNat_eq h0)
    · exact hh (BitVec.eq_of_toNat_eq h0)
  have hfit : ¬ (s.dispW < w.toNat ∨ s.dispH < h.toNat) := by omega
  rw [execDims, if_pos hx]
  dsimp only
  rw [if_neg hzero, if_neg hfit]

/-- RESET reads the two dimension bytes and, if they are legal, completes (R216). -/
theorem execReset_legal {s : State} (b : Bool) {w h : Byte} (hb : s.busy = false)
    (hw : romRead s 0 = some w) (hh : romRead s 1 = some h) (hw0 : w ≠ 0) (hh0 : h ≠ 0)
    (hfitw : w.toNat ≤ s.dispW) (hfith : h.toNat ≤ s.dispH) :
    execReset b s = .next (completeReset { beginReset s with w := w.toNat, h := h.toNat }) := by
  rw [execReset, hb, if_neg Bool.false_ne_true, busyStep_dims (s := beginReset s) rfl hw hh]
  exact execDims_legal rfl hw0 hh0 hfitw hfith

/-- Settles O16: the completed RESET's state, field by field. -/
theorem resetLoadsDimensions : Obligations.ResetLoadsDimensions := by
  intro s b w h hb hw hh hw0 hh0 hfitw hfith
  exact ⟨_, execReset_legal b hb hw hh hw0 hh0 hfitw hfith, by simp [bytePos], by simp [bitPos], rfl, rfl,
    rfl, rfl, rfl, rfl, rfl, rfl, rfl, rfl, fbRead_congr rfl rfl rfl⟩

/-! ## The state after reset (R39; log 1, log 4) -/

/-- Settles O15: the constants of R39 that come from no ROM. -/
theorem resetStateValues : Obligations.ResetStateValues :=
  ⟨rfl, rfl, rfl, rfl, rfl, rfl, rfl, rfl⟩

theorem reset_widthInv : WidthInv State.reset := by
  constructor <;> decide

theorem reset_sequenceInv : SequenceInv State.reset :=
  ⟨fun _ => rfl, Bool.noConfusion, Bool.noConfusion⟩

/-- Settles O52: no stream has been seen, no scan is in progress, and a frame of no pixels fits the
display. -/
theorem resetMeetsInvariants : Obligations.ResetMeetsInvariants :=
  ⟨reset_memory_wf, fun _ => by decide, reset_widthInv, Bool.noConfusion, reset_sequenceInv,
    Phase.noConfusion⟩

end Sys2Proof.Machine
end

