-- ==== Sys2Proof/Proofs/Stream.lean ====
section
/-! SUPPORT. The stream space and the parameters (20_memory): no step but a host load writes them, and a loaded
stream holds the bits it was packed from. -/

namespace Sys2Proof.Machine

/-! ## The stream space and the parameters (R7, R63) -/

/-- The parameters and the stream are as before. -/
structure StreamKept (s t : State) : Prop where
  dispW : t.dispW = s.dispW
  dispH : t.dispH = s.dispH
  addrW : t.addrW = s.addrW
  fbLayout : t.fbLayout = s.fbLayout
  rom : t.rom = s.rom
  romLen : t.romLen = s.romLen

theorem StreamKept.refl (s : State) : StreamKept s s :=
  ⟨rfl, rfl, rfl, rfl, rfl, rfl⟩

theorem StreamKept.trans {s t u : State} (h : StreamKept s t) (k : StreamKept t u) : StreamKept s u :=
  ⟨k.dispW.trans h.dispW, k.dispH.trans h.dispH, k.addrW.trans h.addrW, k.fbLayout.trans h.fbLayout,
    k.rom.trans h.rom, k.romLen.trans h.romLen⟩

theorem takeFault_streamKept (f : FaultRecord) (s : State) : StreamKept s (takeFault f s) := by
  constructor <;> simp

theorem runScan_streamKept (s : State) : StreamKept s (runScan s) := by
  constructor <;> simp

theorem BorderFrame.streamKept {s t : State} (h : BorderFrame s t) : StreamKept s t :=
  { h with }

/-- No token and no internal step writes the stream space (R63). -/
theorem busyNext_streamKept {s t : State} (hn : BusyNext s t) : StreamKept s t := by
  cases hn with
  | dimsFault | endOfRom | runFault => exact { takeFault_streamKept _ _ with }
  | run | scan => exact { runScan_streamKept _ with }
  | sample => exact (sampleEdges_borderFrame s).streamKept
  | fillL => exact (fillLeft_borderFrame s).streamKept
  | dims | fullMask | zeroMask | mask | pad | color | fillR => exact { StreamKept.refl s with }

theorem runOperation_streamKept (n : Nat) {s t : State} (e : runOperation n s = .next t) :
    StreamKept s t :=
  runOperation_keeps (P := StreamKept s) (fun _ _ _ h hn => h.trans (busyNext_streamKept hn)) n
    (StreamKept.refl s) e

/-- Every step but a host load keeps parameters and stream. -/
theorem step_streamKept_or_hostLoad {s t : State} (e : step s = .next t) : StreamKept s t ∨
    (s.busy = false ∧ ∃ bytes q, s.inputs = .loadStream bytes :: q ∧
      hostLoad bytes { s with inputs := q, done := false } = .next t) := by
  rcases Bool.eq_false_or_eq_true s.busy with hb | hb
  · exact .inl (busyNext_streamKept (busyStep_busyNext (step_busy hb ▸ e)))
  · obtain ⟨-, rfl⟩ | ⟨b, q, -, e⟩ | ⟨q, -, e⟩ | ⟨q, -, rfl⟩ | ⟨x, y, c, q, -, e⟩ | ⟨bytes, q, hi, e⟩ :=
      step_idle_next hb e
    · exact .inl { StreamKept.refl s with }
    · exact .inl { busyNext_streamKept (busyStep_busyNext (execReset_next e).2) with }
    · obtain ⟨-, -, -, -, e⟩ := execDecodeNextFrame_next e
      exact .inl { runOperation_streamKept _ e with }
    · exact .inl { StreamKept.refl s with }
    · obtain ⟨-, -, rfl⟩ := hostWrite_next e
      exact .inl { StreamKept.refl s with }
    · exact .inr ⟨hb, bytes, q, hi, e⟩

/-- Settles O48: a host load writes the stream and no parameter, and every other step keeps both. -/
theorem onlyHostChangesStream : Obligations.OnlyHostChangesStream := by
  intro s t e
  obtain h | ⟨hb, bytes, q, hi, hload⟩ := step_streamKept_or_hostLoad e
  · exact ⟨⟨h.dispW, h.dispH, h.addrW, h.fbLayout⟩, .inl ⟨h.rom, h.romLen⟩⟩
  · obtain ⟨-, rfl⟩ := hostLoad_next hload
    exact ⟨⟨rfl, rfl, rfl, rfl⟩, .inr ⟨hb, bytes, q, hi⟩⟩

/-! ## Bits of a packed byte (R70, R237) -/

theorem bitsToNat_concat (bits : List Bool) (b : Bool) :
    bitsToNat (bits ++ [b]) = Nat.bit b (bitsToNat bits) := by
  simp [bitsToNat, Nat.bit_val]

/-- The first bit listed is the most significant (R70). -/
theorem testBit_bitsToNat_map_range (f : Nat → Bool) {n i : Nat} (hi : i < n) :
    (bitsToNat ((List.range n).map f)).testBit i = f (n - 1 - i) := by
  induction n generalizing i with
  | zero => omega
  | succ n ih =>
    rw [List.range_succ, List.map_append, List.map_singleton, bitsToNat_concat]
    cases i with
    | zero => rw [Nat.testBit_bit_zero]; rfl
    | succ i =>
      rw [Nat.testBit_bit_succ, ih (by omega)]
      congr 1
      omega

theorem getLsbD_ofNat_bitsToNat (f : Nat → Bool) {i : Nat} (hi : i < 8) :
    (BitVec.ofNat 8 (bitsToNat ((List.range 8).map f))).getLsbD i = f (7 - i) := by
  rw [BitVec.getLsbD_ofNat, testBit_bitsToNat_map_range f hi, decide_eq_true hi, Bool.true_and]

/-! ## A loaded stream (R63, R236) -/

theorem packBits_length (bits : List Bool) : (packBits bits).length = (bits.length + 7) / 8 := by
  simp [packBits]

/-- Bit `j` of packed byte `i`, counted from the left, is bit `8i + j` of the string, or the zero that fills
the last byte (R237). -/
theorem packBits_getD_getLsbD (bits : List Bool) {i j : Nat} (hi : i < (packBits bits).length)
    (hj : j < 8) : ((packBits bits).getD i 0).getLsbD (7 - j) = bits.getD (8 * i + j) false := by
  have hbyte : (packBits bits).getD i 0 =
      BitVec.ofNat 8 (bitsToNat ((List.range 8).map (fun j => bits.getD (8 * i + j) false))) := by
    rw [packBits_length] at hi
    simp [packBits, hi]
  rw [hbyte, getLsbD_ofNat_bitsToNat _ (by omega), Nat.sub_sub_self (Nat.le_of_lt_succ hj)]

/-- The bits of a loaded packing are those of the string, with zeros up to the end (R70, R236). -/
theorem romBit_hostLoad_packBits {s t : State} {bits : List Bool}
    (e : hostLoad (packBits bits) s = .next t) {p : Nat} (hp : p < 8 * t.romLen) :
    romBit t p = some (bits.getD p false) := by
  obtain ⟨-, rfl⟩ := hostLoad_next e
  have hi : p / 8 < (packBits bits).length := by
    dsimp only at hp
    omega
  have hread := memRead_memOfBytes (packBits bits) 0 (p / 8)
  rw [Nat.zero_add] at hread
  have hbit := packBits_getD_getLsbD bits hi (Nat.mod_lt p (by decide))
  rw [Nat.div_add_mod] at hbit
  simp only [romBit, romRead, if_pos hi, romUnlisted, Option.getD_some, hread, Option.map_some, hbit]

/-- Settles O11: every stream bit is the bit of the string at its position, and the string's end is followed
by less than a byte of zeros. -/
theorem loadedStreamKeepsBitOrder : Obligations.LoadedStreamKeepsBitOrder := by
  intro s t bits e
  have hlen : t.romLen = (bits.length + 7) / 8 := by
    obtain ⟨-, rfl⟩ := hostLoad_next e
    exact packBits_length bits
  refine ⟨hlen, fun p hp => ?_, fun p hp hend => ?_, fun p hp => romBit_eq_none.2 hp⟩
  · rw [romBit_hostLoad_packBits e (by omega)]
    simp [hp]
  · rw [romBit_hostLoad_packBits e hend]
    simp [hp]

/-- Settles O37: the load clears the record that RESET has seen the stream, and DECODE_NEXT_FRAME asks
for it. -/
theorem changedStreamNeedsReset : Obligations.ChangedStreamNeedsReset := by
  intro s t bytes q hb hready hfault hi e
  have hload : hostLoad bytes { s with inputs := .control false true :: q, done := false } = .next t := by
    simpa [step, fetch, fetchInput, hb, hi] using e
  obtain ⟨-, rfl⟩ := hostLoad_next hload
  simp [step, fetch, fetchInput, decode, decodeCtrl, exec, execDecodeNextFrame, hb, hready, hfault]

end Sys2Proof.Machine
end

