-- ==== Sys2Proof/Proofs/MemoryForm.lean ====
section
/-! SUPPORT. The canonical form of both memories (R60, R66): a busy step writes pixels only under the geometry
RESET loads, and then inside the display. -/

namespace Sys2Proof.Machine

/-! ## What a busy step writes to the framebuffer (R65) -/

/-- The framebuffer holds what it held, or a fault has been recorded that leaves nothing listed (R262). -/
def FbKeptOrLost (s t : State) : Prop :=
  (t.fb = s.fb ∧ t.fbDraw = s.fbDraw) ∨ (t.fb = [] ∧ t.faultRec ≠ none)

theorem takeFault_fbKeptOrLost (f : FaultRecord) (s : State) : FbKeptOrLost s (takeFault f s) := by
  cases hf : losesFramebuffer f with
  | true => exact .inr (by simp [hf])
  | false => exact .inl (by simp [hf])

/-- Only a step under the geometry RESET loads writes pixels; every other one keeps them or loses them to a
fault (R266). -/
theorem busyStep_geometryOk_or_fb {s t : State} (e : busyStep s = .next t) :
    geometryOk s = true ∨ FbKeptOrLost s t := by
  obtain ⟨i, c, rest, -, -, e⟩ | ⟨c, consumed, ones, -, -, rfl⟩ | ⟨-, e⟩ := busyStep_next e
  · obtain ⟨w, h, -, e⟩ | ⟨m, -, e⟩ | ⟨n, -, e⟩ | ⟨b, -, e⟩ | ⟨g, v, -, e⟩ | ⟨-, e⟩ := execToken_next e
    · obtain ⟨-, ⟨-, rfl⟩ | ⟨-, -, rfl⟩ | ⟨-, -, rfl⟩⟩ := execDims_next e
      · exact .inr (takeFault_fbKeptOrLost _ { s with w := w.toNat, h := h.toNat })
      · exact .inr (takeFault_fbKeptOrLost _ { s with w := w.toNat, h := h.toNat })
      · exact .inr (.inl ⟨rfl, rfl⟩)
    · obtain ⟨-, ⟨-, rfl⟩ | ⟨-, rfl⟩⟩ := execMask_next e
      · exact .inr (.inl ⟨rfl, rfl⟩)
      · exact .inr (.inl ⟨rfl, rfl⟩)
    · obtain ⟨-, rfl⟩ := execPad_next e
      exact .inr (.inl ⟨rfl, rfl⟩)
    · obtain ⟨-, rfl⟩ := execColor_next e
      exact .inr (.inl ⟨rfl, rfl⟩)
    · exact .inl (execRunGroup_next e).2.1
    · obtain ⟨-, rfl⟩ := execRunRsv_next e
      exact .inr (takeFault_fbKeptOrLost _ { beginRun s with cursor := s.cursor + 6, ones := 6 })
  · refine .inr ?_
    cases c with
    | dims => exact takeFault_fbKeptOrLost _ s
    | mask | color => exact takeFault_fbKeptOrLost _ { s with cursor := s.cursor + consumed }
    | run =>
      exact takeFault_fbKeptOrLost _ { beginRun s with cursor := s.cursor + consumed, ones := ones }
    | ctrl => exact .inl ⟨rfl, rfl⟩
  · obtain ⟨-, rfl⟩ | ⟨hg, -⟩ := internalStep_next e
    · exact .inr (.inl ⟨rfl, rfl⟩)
    · exact .inl hg

/-! ## The canonical form of both memories (R60, R66) -/

theorem fbKeptOrLost_wf {s t : State} (hs : Memory.wf s = true) (hk : StreamKept s t)
    (hf : FbKeptOrLost s t) : Memory.wf t = true := by
  obtain ⟨hfb, -⟩ | ⟨hfb, -⟩ := hf
  · exact wf_congr hk.rom hk.romLen hfb hk.dispW hk.dispH hs
  · exact wf_congr (s := forgetFramebuffer s) hk.rom hk.romLen hfb hk.dispW hk.dispH
      (forgetFramebuffer_wf hs)

theorem runScan_wf {s : State} (hg : geometryOk s = true) (hs : Memory.wf s = true) :
    Memory.wf (runScan s) = true :=
  scan_wf hg hs _

theorem afterLeft_wf {s : State} (hs : Memory.wf s = true) : Memory.wf (afterLeft s) = true := by
  unfold afterLeft
  split
  · exact hs
  · exact hs

theorem sampleEdges_wf {s : State} (hs : Memory.wf s = true) : Memory.wf (sampleEdges s) = true := by
  unfold sampleEdges
  dsimp only
  split
  · exact hs
  · exact afterLeft_wf hs

/-- The frame ends inside the display (R8, R266). -/
theorem offX_add_w_le {s : State} (h : s.w ≤ s.dispW) : offX s + s.w ≤ s.dispW := by
  unfold offX
  omega

theorem offX_le_dispW (s : State) : offX s ≤ s.dispW := by
  unfold offX
  omega

theorem fillLeft_wf {s : State} (hs : Memory.wf s = true) : Memory.wf (fillLeft s) = true :=
  afterLeft_wf (fbFillColumns_wf _ hs (by simpa using offX_le_dispW s))

theorem fillRight_wf {s : State} (hg : geometryOk s = true) (hs : Memory.wf s = true) :
    Memory.wf (fillRight s) = true := by
  have hfit := offX_add_w_le (geometryOk_iff.1 hg).1
  exact fbFillColumns_wf (s := s) _ hs (by omega)

theorem busyNext_wf {s t : State} (hg : geometryOk s = true) (hs : Memory.wf s = true)
    (hn : BusyNext s t) : Memory.wf t = true := by
  cases hn with
  | dimsFault f w h => exact takeFault_wf f (s := { s with w := w.toNat, h := h.toNat }) hs
  | endOfRom f => exact takeFault_wf f hs
  | runFault f n ones =>
    exact takeFault_wf f (s := { beginRun s with cursor := s.cursor + n, ones := ones }) hs
  | run g v => exact runScan_wf (s := loadRun g v s) hg hs
  | scan => exact runScan_wf hg hs
  | sample => exact sampleEdges_wf hs
  | fillL => exact fillLeft_wf hs
  | fillR => exact fillRight_wf hg hs
  | dims | fullMask | zeroMask | mask | pad | color => exact hs

theorem busyStep_wf {s t : State} (hs : Memory.wf s = true) (e : busyStep s = .next t) :
    Memory.wf t = true := by
  have hn := busyStep_busyNext e
  obtain hg | hf := busyStep_geometryOk_or_fb e
  · exact busyNext_wf hg hs hn
  · exact fbKeptOrLost_wf hs (busyNext_streamKept hn) hf

theorem hostLoad_wf {bytes : List Byte} {s t : State} (hs : Memory.wf s = true)
    (e : hostLoad bytes s = .next t) : Memory.wf t = true := by
  obtain ⟨-, rfl⟩ := hostLoad_next e
  exact wf_iff.2 ⟨memOk_memOfBytes bytes, (wf_iff.1 hs).2⟩

/-- Settles O53: pixels are written inside the display or by a fill that ends at its edge, and the stream a
host loads is canonical. -/
theorem stepKeepsMemoryForm : Obligations.StepKeepsMemoryForm := by
  intro s t hs e
  cases hb : s.busy with
  | true => exact busyStep_wf hs (step_busy hb ▸ e)
  | false =>
    obtain ⟨-, rfl⟩ | ⟨b, q, -, e⟩ | ⟨q, -, e⟩ | ⟨q, -, rfl⟩ | ⟨x, y, c, q, -, e⟩ | ⟨bytes, q, -, e⟩ :=
      step_idle_next hb e
    · exact hs
    · exact busyStep_wf (s := beginReset { s with inputs := q, done := false }) hs (execReset_next e).2
    · obtain ⟨-, -, -, -, e⟩ := execDecodeNextFrame_next e
      exact runOperation_induction (fun _ _ _ => busyStep_wf) _
        (s := beginFrame { s with inputs := q, done := false }) hs e
    · exact hs
    · obtain ⟨hx, hy, rfl⟩ := hostWrite_next e
      exact fbWrite_wf (s := { s with inputs := q, done := false }) c hs hx hy
    · exact hostLoad_wf (s := { s with inputs := q, done := false }) hs e

end Sys2Proof.Machine
end

