-- ==== Sys2Proof/Proofs/Pixels.lean ====
section
/-! SUPPORT. Pixel writes and the packed view (R66, R68, R205). -/

namespace Sys2Proof.Machine

/-! ## One pixel (R66, R67) -/

/-- Settles O12: display pixels have numbers of their own. -/
theorem pixelWriteChangesOnePixel : Obligations.PixelWriteChangesOnePixel := by
  intro s x y c _ hy
  exact ⟨fbRead_fbWrite_self s x y c, fun x' y' _ hy' h => fbRead_fbWrite_other s c hy hy' h⟩

theorem fbRead_fbWrite (s : State) {x y x' y' : Nat} (c : Bool) (hy : y < s.dispH) (hy' : y' < s.dispH) :
    fbRead (fbWrite s x y c) x' y' = if x' = x ∧ y' = y then c else fbRead s x' y' := by
  split
  · rename_i h
    rw [h.1, h.2, fbRead_fbWrite_self]
  · exact fbRead_fbWrite_other s c hy hy' ‹_›

/-! ## The packed view (R68) -/

/-- The default layout puts the display pixels in places of their own (R68, D5). -/
theorem layoutOk_of_rowMajor {s : State} (h : s.fbLayout = .rowMajor) : LayoutOk s where
  bit x y _ _ := by
    simp only [pixelPlace, h]
    omega
  apart x y x' y' hx hy hx' hy' e := by
    simp only [pixelPlace, h, Prod.mk.injEq] at e
    obtain ⟨hbyte, hbit⟩ := e
    have hc : x / 8 < (s.dispW + 7) / 8 := by omega
    have hc' : x' / 8 < (s.dispW + 7) / 8 := by omega
    generalize (s.dispW + 7) / 8 = b at *
    have hcol : x / 8 = x' / 8 := by
      have := congrArg (· % b) hbyte
      simpa [Nat.mul_add_mod', Nat.mod_eq_of_lt, hc, hc'] using this
    rw [hcol, Nat.add_right_cancel_iff] at hbyte
    exact ⟨by omega, Nat.eq_of_mul_eq_mul_right (by omega) hbyte⟩

/-- Under a layout the bit at a pixel's place is the pixel (R68). -/
theorem physByte_pixelPlace {s : State} (hl : LayoutOk s) {x y : Nat} (hx : x < s.dispW)
    (hy : y < s.dispH) :
    (physByte s (pixelPlace s x y).1).getLsbD (pixelPlace s x y).2 = fbRead s x y := by
  obtain ⟨x', y', hx', hy', hplace, hbit⟩ := physBit_of_place hx hy rfl
  obtain ⟨rfl, rfl⟩ := hl.apart x' y' x y hx' hy' hx hy hplace
  have hi := hl.bit x' y' hx hy
  rw [physByte, getLsbD_ofNat_bitsToNat _ hi, Nat.sub_sub_self (Nat.le_of_lt_succ hi)]
  exact hbit

theorem fbWrite_layoutOk {s : State} (hl : LayoutOk s) (x y : Nat) (c : Bool) :
    LayoutOk (fbWrite s x y c) :=
  ⟨hl.bit, hl.apart⟩

/-- Settles O13: both bytes are read as the pixel at the place, and the write changes one pixel. -/
theorem packedWriteKeepsNeighbours : Obligations.PackedWriteKeepsNeighbours := by
  refine ⟨fun s h => ⟨layoutOk_of_rowMajor h, fun x y => by simp only [pixelPlace, h]⟩, ?_⟩
  intro s x y c hl hx hy x' y' hx' hy'
  rw [physByte_pixelPlace hl hx' hy', ← fbRead_fbWrite s c hy hy']
  exact physByte_pixelPlace (fbWrite_layoutOk hl x y c) hx' hy'

end Sys2Proof.Machine
end

