-- ==== Sys2Proof/Proofs/Layout.lean ====
section
/-! SUPPORT. No step reads `FB_LAYOUT` (R68, R227): every operation commutes with changing it. -/

namespace Sys2Proof.Machine

/-- The state with another `FB_LAYOUT`. -/
def setLayout (l : FbLayout) (s : State) : State := { s with fbLayout := l }

/-- The outcome with another `FB_LAYOUT` in the next state. -/
def outcomeSetLayout (l : FbLayout) :
    Host.Outcome State Fault Refusal → Host.Outcome State Fault Refusal
  | .next t => .next (setLayout l t)
  | .fault f => .fault f
  | .refused r => .refused r

section
variable (l : FbLayout)

@[simp] theorem outcomeSetLayout_next (t : State) :
    outcomeSetLayout l (.next t) = .next (setLayout l t) := rfl

/-! ## The named operations -/

theorem takeFault_setLayout (f : FaultRecord) (s : State) :
    takeFault f (setLayout l s) = setLayout l (takeFault f s) := by
  cases f <;> rfl

theorem scan_setLayout (n : Nat) (s : State) : scan n (setLayout l s) = setLayout l (scan n s) := by
  induction n generalizing s with
  | zero => rfl
  | succ n ih =>
    unfold scan
    simp only [apply_ite (setLayout l), ← ih]
    rfl

theorem runScan_setLayout (s : State) : runScan (setLayout l s) = setLayout l (runScan s) :=
  scan_setLayout l (scanTurns s) s

theorem afterLeft_setLayout (s : State) : afterLeft (setLayout l s) = setLayout l (afterLeft s) := by
  simp only [afterLeft, apply_ite (setLayout l)]
  rfl

theorem sampleEdges_setLayout (s : State) :
    sampleEdges (setLayout l s) = setLayout l (sampleEdges s) := by
  simp only [sampleEdges, apply_ite (setLayout l), ← afterLeft_setLayout]
  rfl

theorem fillLeft_setLayout (s : State) : fillLeft (setLayout l s) = setLayout l (fillLeft s) :=
  afterLeft_setLayout l (fbFillColumns s 0 (offX s) (majority s.el1 s.el0))

/-! ## The tokens -/

theorem execDims_setLayout (w h : Byte) (s : State) :
    execDims w h (setLayout l s) = outcomeSetLayout l (execDims w h s) := by
  simp only [execDims, apply_ite (outcomeSetLayout l), outcomeSetLayout_next, ← takeFault_setLayout]
  rfl

theorem execMask_setLayout (m : MaskWord) (s : State) :
    execMask m (setLayout l s) = outcomeSetLayout l (execMask m s) := by
  simp only [execMask, apply_ite (outcomeSetLayout l)]
  rfl

theorem execPad_setLayout (n : Nat) (s : State) :
    execPad n (setLayout l s) = outcomeSetLayout l (execPad n s) := by
  simp only [execPad, apply_ite (outcomeSetLayout l)]
  rfl

theorem execColor_setLayout (c : Bool) (s : State) :
    execColor c (setLayout l s) = outcomeSetLayout l (execColor c s) := by
  simp only [execColor, apply_ite (outcomeSetLayout l)]
  rfl

theorem execRunGroup_setLayout (g v : Nat) (s : State) :
    execRunGroup g v (setLayout l s) = outcomeSetLayout l (execRunGroup g v s) := by
  simp only [execRunGroup, apply_ite (outcomeSetLayout l), outcomeSetLayout_next, ← runScan_setLayout]
  rfl

theorem execRunRsv_setLayout (s : State) :
    execRunRsv (setLayout l s) = outcomeSetLayout l (execRunRsv s) := by
  simp only [execRunRsv, apply_ite (outcomeSetLayout l), outcomeSetLayout_next, ← takeFault_setLayout]
  rfl

theorem execToken_setLayout (i : Instr) (s : State) :
    execToken i (setLayout l s) = outcomeSetLayout l (execToken i s) := by
  cases i with
  | dims w h => exact execDims_setLayout l w h s
  | mask m => exact execMask_setLayout l m s
  | pad n => exact execPad_setLayout l n s
  | color c => exact execColor_setLayout l c s
  | runG1 v | runG2 v | runG3 v | runG4 v | runG5 v | runG6 v => exact execRunGroup_setLayout l _ _ s
  | runRsv => exact execRunRsv_setLayout l s
  | reset | decodeNextFrame => rfl

/-! ## Fetching -/

theorem streamBits_setLayout (s : State) (p n : Nat) :
    streamBits (setLayout l s) p n = streamBits s p n := by
  induction n generalizing p with
  | zero => rfl
  | succ n ih =>
    simp only [streamBits, ih]
    rfl

theorem tokenWindow_setLayout (c : Context) (s : State) :
    tokenWindow c (setLayout l s) = tokenWindow c s := by
  cases c with
  | dims | mask | color | run => exact streamBits_setLayout l s _ _
  | ctrl => rfl

theorem overrunIn_setLayout (c : Context) (consumed ones : Nat) (s : State) :
    overrunIn c consumed ones (setLayout l s) = setLayout l (overrunIn c consumed ones s) := by
  cases c with
  | dims | mask | color | run =>
    simp only [overrunIn, ← takeFault_setLayout]
    rfl
  | ctrl => rfl

theorem internalStep_setLayout (s : State) :
    internalStep (setLayout l s) = outcomeSetLayout l (internalStep s) := by
  have hp : (setLayout l s).phase = s.phase := rfl
  have hg : geometryOk (setLayout l s) = geometryOk s := rfl
  unfold internalStep
  rw [hp, hg]
  cases geometryOk s with
  | false => cases s.phase <;> rfl
  | true =>
    cases s.phase with
    | idle | header | color | fillR => rfl
    | scan => exact congrArg Host.Outcome.next (runScan_setLayout l s)
    | sample => exact congrArg Host.Outcome.next (sampleEdges_setLayout l s)
    | fillL => exact congrArg Host.Outcome.next (fillLeft_setLayout l s)

theorem busyStep_setLayout (s : State) :
    busyStep (setLayout l s) = outcomeSetLayout l (busyStep s) := by
  have hc : tokenContext (setLayout l s) = tokenContext s := rfl
  unfold busyStep fetchToken
  rw [hc]
  cases tokenContext s with
  | none => exact internalStep_setLayout l s
  | some c =>
    simp only [tokenWindow_setLayout]
    cases decode c (tokenWindow c s) with
    | ok i rest => exact execToken_setLayout l i s
    | error err =>
      cases err with
      | overrun consumed ones => exact congrArg _ (overrunIn_setLayout l c consumed ones s)
      | noOperation => rfl

theorem runOperation_setLayout (n : Nat) (s : State) :
    runOperation n (setLayout l s) = outcomeSetLayout l (runOperation n s) := by
  induction n generalizing s with
  | zero => rfl
  | succ n ih =>
    have hb : (setLayout l s).busy = s.busy := rfl
    unfold runOperation
    rw [hb, busyStep_setLayout]
    cases s.busy with
    | false => rfl
    | true =>
      cases busyStep s with
      | next t => exact ih t
      | fault f => rfl
      | refused r => rfl

/-! ## The host's inputs -/

theorem execReset_setLayout (b : Bool) (s : State) :
    execReset b (setLayout l s) = outcomeSetLayout l (execReset b s) := by
  simp only [execReset, apply_ite (outcomeSetLayout l), ← busyStep_setLayout]
  rfl

theorem execDecodeNextFrame_setLayout (s : State) :
    execDecodeNextFrame (setLayout l s) = outcomeSetLayout l (execDecodeNextFrame s) := by
  simp only [execDecodeNextFrame, apply_ite (outcomeSetLayout l), ← runOperation_setLayout]
  rfl

theorem hostWrite_setLayout (x y : Nat) (c : Bool) (s : State) :
    hostWrite x y c (setLayout l s) = outcomeSetLayout l (hostWrite x y c s) := by
  simp only [hostWrite, apply_ite (outcomeSetLayout l)]
  rfl

theorem hostLoad_setLayout (bytes : List Byte) (s : State) :
    hostLoad bytes (setLayout l s) = outcomeSetLayout l (hostLoad bytes s) := by
  simp only [hostLoad, apply_ite (outcomeSetLayout l)]
  rfl

theorem step_setLayout (s : State) : step (setLayout l s) = outcomeSetLayout l (step s) := by
  rcases Bool.eq_false_or_eq_true s.busy with hb | hb
  · rw [step_busy hb, step_busy (s := setLayout l s) hb, busyStep_setLayout]
  · have hi : (setLayout l s).inputs = s.inputs := rfl
    have hidle : ¬ s.busy = true := by simp [hb]
    unfold step fetch
    rw [if_neg hidle, if_neg (show ¬ (setLayout l s).busy = true from hidle)]
    unfold fetchInput
    rw [hi]
    cases s.inputs with
    | nil => rfl
    | cons a q =>
      cases a with
      | writePixel x y c => exact hostWrite_setLayout l x y c { s with inputs := q, done := false }
      | loadStream bytes => exact hostLoad_setLayout l bytes { s with inputs := q, done := false }
      | control r b =>
        match r, b with
        | true, b => exact execReset_setLayout l b { s with inputs := q, done := false }
        | false, true => exact execDecodeNextFrame_setLayout l { s with inputs := q, done := false }
        | false, false => rfl

end

/-- Settles O59: changing the layout before a step or after it comes to the same. -/
theorem layoutChangesNoStep : Obligations.LayoutChangesNoStep := by
  intro s t l e
  have h := step_setLayout l s
  rw [e] at h
  exact h

end Sys2Proof.Machine
end

