-- ==== Sys2Proof/Proofs/DecodeSteps.lean ====
section
/-! SUPPORT. What the steps of a DECODE_NEXT_FRAME keep from one to the next: dimensions, mask and edge counts,
the thresholds its fills are decided by, and the bands of its scan. -/

namespace Sys2Proof.Machine

/-! ## Phases (R92, R221) -/

theorem phase_of_expectsMask {s : State} (h : expectsMask s = true) : s.phase = .header := by
  simp only [expectsMask, Bool.and_eq_true, beq_iff_eq] at h
  exact h.1.2

theorem phase_of_expectsRun {s : State} (h : expectsRun s = true) :
    s.phase = .color ∨ s.phase = .scan := by
  simp only [expectsRun, firstRunDue, needsRun, Bool.and_eq_true, Bool.or_eq_true, beq_iff_eq] at h
  obtain ⟨-, ⟨hp, -⟩ | ⟨⟨⟨⟨hp, -⟩, -⟩, -⟩, -⟩⟩ := h
  · exact .inl hp
  · exact .inr hp

theorem afterLeft_phase (s : State) : (afterLeft s).phase = .fillR ∨ (afterLeft s).phase = .idle := by
  unfold afterLeft
  split
  · exact .inl rfl
  · exact .inr rfl

theorem sampleEdges_phase (s : State) : (sampleEdges s).phase = .fillL ∨
    (sampleEdges s).phase = .fillR ∨ (sampleEdges s).phase = .idle := by
  unfold sampleEdges
  dsimp only
  split
  · exact .inl rfl
  · exact .inr (afterLeft_phase _)

theorem fillLeft_phase (s : State) : (fillLeft s).phase = .fillR ∨ (fillLeft s).phase = .idle :=
  afterLeft_phase _

/-! ## What the steps of a decode keep -/

/-- Display, dimension and chunk registers are as before. -/
structure GeometryKept (s t : State) : Prop where
  dispW : t.dispW = s.dispW
  dispH : t.dispH = s.dispH
  w : t.w = s.w
  h : t.h = s.h
  cw : t.cw = s.cw
  ch : t.ch = s.ch

theorem GeometryKept.refl (s : State) : GeometryKept s s :=
  ⟨rfl, rfl, rfl, rfl, rfl, rfl⟩

theorem GeometryKept.trans {s t u : State} (h : GeometryKept s t) (k : GeometryKept t u) :
    GeometryKept s u :=
  ⟨k.dispW.trans h.dispW, k.dispH.trans h.dispH, k.w.trans h.w, k.h.trans h.h, k.cw.trans h.cw,
    k.ch.trans h.ch⟩

theorem GeometryKept.offX {s t : State} (h : GeometryKept s t) : offX t = offX s := by
  simp only [Machine.offX, h.dispW, h.w]

theorem GeometryKept.offY {s t : State} (h : GeometryKept s t) : offY t = offY s := by
  simp only [Machine.offY, h.dispH, h.h]

/-- Only DIMS, in phase IDLE, loads the dimension registers (R217). -/
theorem busyNext_geometryKept {s t : State} (hp : s.phase ≠ .idle) (hn : BusyNext s t) :
    GeometryKept s t := by
  cases hn with
  | dimsFault f w h hx | dims w h hx => exact absurd (expectsDims_iff.1 hx).2 hp
  | endOfRom | runFault | run | scan => constructor <;> simp
  | sample => exact { sampleEdges_borderFrame s with }
  | fillL => exact { fillLeft_borderFrame s with }
  | fullMask | zeroMask | mask | pad | color | fillR => exact { GeometryKept.refl s with }

/-- Only phase HEADER loads the mask (R157, R158), and an operation passes it once (R221). -/
theorem busyNext_mask {s t : State} (hi : s.phase ≠ .idle) (hh : s.phase ≠ .header)
    (hn : BusyNext s t) : t.mask = s.mask ∧ t.phase ≠ .header := by
  have scanned : ∀ u : State, u.phase = .scan → (runScan u).phase ≠ .header := by
    intro u hu
    rcases runScan_phase hu with h | h <;> simp [h]
  cases hn with
  | dimsFault f w h hx | dims w h hx => exact absurd (expectsDims_iff.1 hx).2 hi
  | fullMask hp => exact absurd hp hh
  | zeroMask hx | mask m hx | pad hx => exact absurd (phase_of_expectsMask hx) hh
  | endOfRom | runFault => simp
  | color => exact ⟨rfl, hh⟩
  | run g v => exact ⟨by simp, scanned _ rfl⟩
  | scan hp => exact ⟨by simp, scanned s hp⟩
  | sample =>
    refine ⟨(sampleEdges_borderFrame s).mask, ?_⟩
    rcases sampleEdges_phase s with h | h | h <;> simp [h]
  | fillL =>
    refine ⟨(fillLeft_borderFrame s).mask, ?_⟩
    rcases fillLeft_phase s with h | h <;> simp [h]
  | fillR => exact ⟨rfl, Phase.noConfusion⟩

/-- The edge counts are as before. -/
structure EdgesKept (s t : State) : Prop where
  el1 : t.el1 = s.el1
  el0 : t.el0 = s.el0
  er1 : t.er1 = s.er1
  er0 : t.er0 = s.er0

theorem afterLeft_edgesKept (s : State) : EdgesKept s (afterLeft s) := by
  unfold afterLeft
  split <;> exact ⟨rfl, rfl, rfl, rfl⟩

/-- The fills keep the counts they are decided by, and end the operation (R199, R221). -/
theorem busyNext_edgesKept {s t : State} (hp : s.phase = .fillL ∨ s.phase = .fillR)
    (hn : BusyNext s t) : EdgesKept s t ∧ (t.phase = .fillR ∨ t.phase = .idle) := by
  cases hn with
  | dimsFault f w h hx | dims w h hx => simp [(expectsDims_iff.1 hx).2] at hp
  | zeroMask hx | mask m hx | pad hx => simp [phase_of_expectsMask hx] at hp
  | color c hx => simp [(expectsColor_iff.1 hx).2.1] at hp
  | run g v hx => rcases phase_of_expectsRun hx with h | h <;> simp [h] at hp
  | fullMask hq | scan hq | sample hq => simp [hq] at hp
  | endOfRom | runFault => exact ⟨by constructor <;> simp, .inr (by simp)⟩
  | fillL => exact ⟨{ afterLeft_edgesKept _ with }, fillLeft_phase s⟩
  | fillR => exact ⟨⟨rfl, rfl, rfl, rfl⟩, .inr rfl⟩

/-- A fill is entered with its threshold met (R199, R221). -/
structure FillInv (s : State) : Prop where
  left : s.phase = .fillL → thresholdMet s.el1 s.el0 = true
  right : s.phase = .fillR → thresholdMet s.er1 s.er0 = true

theorem fillInv_of_phase {s : State} (hl : s.phase ≠ .fillL) (hr : s.phase ≠ .fillR) : FillInv s :=
  ⟨fun h => absurd h hl, fun h => absurd h hr⟩

theorem afterLeft_fillInv (s : State) : FillInv (afterLeft s) := by
  unfold afterLeft
  split
  · exact ⟨Phase.noConfusion, fun _ => ‹_›⟩
  · exact fillInv_of_phase Phase.noConfusion Phase.noConfusion

theorem sampleEdges_fillInv (s : State) : FillInv (sampleEdges s) := by
  unfold sampleEdges
  dsimp only
  split
  · exact ⟨fun _ => ‹_›, Phase.noConfusion⟩
  · exact afterLeft_fillInv _

theorem busyNext_fillInv {s t : State} (hn : BusyNext s t) : FillInv t := by
  have scanned : ∀ u : State, u.phase = .scan → FillInv (runScan u) := by
    intro u hu
    rcases runScan_phase hu with h | h <;> exact fillInv_of_phase (by simp [h]) (by simp [h])
  cases hn with
  | dimsFault | endOfRom | runFault => exact fillInv_of_phase (by simp) (by simp)
  | dims | fullMask | zeroMask | mask | pad | fillR =>
    exact fillInv_of_phase Phase.noConfusion Phase.noConfusion
  | color c hx =>
    have hp := (expectsColor_iff.1 hx).2.1
    exact fillInv_of_phase (s := { s with color := c, cursor := s.cursor + 1, gotColor := true })
      (by simp [hp]) (by simp [hp])
  | run => exact scanned _ rfl
  | scan hp => exact scanned s hp
  | sample => exact sampleEdges_fillInv s
  | fillL => exact afterLeft_fillInv _

/-! ## The bands of the scan (R175) -/

/-- `BandInv` without its phase: the form in which every turn of the scan keeps it. -/
def BandChanged (s : State) : Prop :=
  s.x < s.w → s.y < s.h → s.y % s.ch ≠ 0 → changed s s.x s.y = true

/-- A position whose band is not skipped is in a changed chunk (R175). -/
theorem changed_of_not_bandSkipped {s : State} (hs : BandChanged s) (hx : s.x < s.w) (hy : s.y < s.h)
    (hb : bandSkipped s = false) : changed s s.x s.y = true := by
  by_cases hm : s.y % s.ch = 0
  · simpa [bandSkipped, hm] using hb
  · exact hs hx hy hm

theorem paintPixel_bandChanged {s : State} (hc : changed s s.x s.y = true) :
    BandChanged (paintPixel s) := by
  intro _ _ hm
  have hdiv : (s.y + 1) / s.ch = s.y / s.ch :=
    Nat.succ_div_of_not_dvd fun h => hm (Nat.mod_eq_zero_of_dvd h)
  simpa [changed, chunkOf, hdiv] using hc

theorem nextColumn_bandChanged {s : State} : BandChanged { s with x := s.x + 1, y := 0 } :=
  fun _ _ hm => absurd (Nat.zero_mod _) hm

theorem skipBand_bandChanged {s : State} (hb : bandSkipped s = true) :
    BandChanged { s with y := s.y + s.ch } := by
  simp only [bandSkipped, Bool.and_eq_true, decide_eq_true_eq] at hb
  intro _ _ hm
  exact absurd (by simpa using hb.1) hm

theorem loadRun_bandChanged {g v : Nat} {s : State} (hs : BandInv s) : BandChanged (loadRun g v s) := by
  by_cases hp : s.phase = .scan
  · intro hx hy hm
    simp only [loadRun_x, loadRun_y, if_pos hp] at hx hy hm ⊢
    exact hs hp hx hy hm
  · intro _ _ hm
    simp [hp] at hm

theorem runScan_bandChanged {s : State} (hs : BandChanged s) : BandChanged (runScan s) := by
  refine scan_induction (P := BandChanged) ?next ?skip ?paint ?done _ s hs
  case next => exact fun _ _ _ _ => nextColumn_bandChanged
  case skip => exact fun _ _ _ _ hb => skipBand_bandChanged hb
  case paint =>
    exact fun _ hu hx hy hb _ => paintPixel_bandChanged (changed_of_not_bandSkipped hu hx hy hb)
  case done => exact fun _ hu _ => hu

theorem bandInv_of_phase {s : State} (hp : s.phase ≠ .scan) : BandInv s :=
  fun h => absurd h hp

/-- A run and a scan going on keep the band's invariant, and no other busy step is in phase SCAN after
it. -/
theorem busyNext_bandInv {s t : State} (hs : BandInv s) (hn : BusyNext s t) : BandInv t := by
  cases hn with
  | dimsFault | endOfRom | runFault => exact bandInv_of_phase (by simp)
  | dims | fullMask | zeroMask | mask | pad | fillR => exact bandInv_of_phase Phase.noConfusion
  | color c hx =>
    exact bandInv_of_phase (s := { s with color := c, cursor := s.cursor + 1, gotColor := true })
      (by simp [(expectsColor_iff.1 hx).2.1])
  | run => exact fun _ => runScan_bandChanged (loadRun_bandChanged hs)
  | scan hp => exact fun _ => runScan_bandChanged (hs hp)
  | sample => rcases sampleEdges_phase s with h | h | h <;> exact bandInv_of_phase (by simp [h])
  | fillL => rcases fillLeft_phase s with h | h <;> exact bandInv_of_phase (by simp [h])

end Sys2Proof.Machine
end

