-- ==== Sys2Proof/Proofs/DecodeWrites.lean ====
section
/-! SUPPORT. The pixels a DECODE_NEXT_FRAME writes (R79): those the scan paints and the margins it fills. -/

namespace Sys2Proof.Machine

/-! ## The pixels the scan paints -/

/-- Display pixel `(x, y)` is a window pixel of a chunk whose mask bit is set (R79, R162). -/
def ChangedWindowPixel (s : State) (x y : Nat) : Prop :=
  offX s ≤ x ∧ x < offX s + s.w ∧ offY s ≤ y ∧ y < offY s + s.h ∧
    changed s (x - offX s) (y - offY s) = true

theorem changedWindowPixel_congr {s t : State} (hk : GeometryKept s t) (hm : t.mask = s.mask)
    (x y : Nat) : ChangedWindowPixel t x y ↔ ChangedWindowPixel s x y := by
  simp only [ChangedWindowPixel, changed, chunkOf, hk.offX, hk.offY, hk.w, hk.h, hk.cw, hk.ch, hm]

/-- A painted pixel lies in the window, at the scan's position (R180). -/
theorem changedWindowPixel_of_changed {s : State} (hx : s.x < s.w) (hy : s.y < s.h)
    (hc : changed s s.x s.y = true) : ChangedWindowPixel s (offX s + s.x) (offY s + s.y) := by
  refine ⟨by omega, by omega, by omega, by omega, ?_⟩
  rw [Nat.add_sub_cancel_left, Nat.add_sub_cancel_left]
  exact hc

/-- What the turns of the scan keep of one pixel that is not to be painted. -/
structure ScanSpares (s : State) (x y : Nat) (t : State) : Prop where
  band : BandChanged t
  geometry : geometryOk t = true
  row : y < t.dispH
  spared : ¬ ChangedWindowPixel t x y
  read : fbRead t x y = fbRead s x y

theorem paintPixel_scanSpares {s t : State} {x y : Nat} (h : ScanSpares s x y t) (hx : t.x < t.w)
    (hy : t.y < t.h) (hb : bandSkipped t = false) : ScanSpares s x y (paintPixel t) := by
  have hc := changed_of_not_bandSkipped h.band hx hy hb
  have hne : ¬ (x = offX t + t.x ∧ y = offY t + t.y) := by
    rintro ⟨rfl, rfl⟩
    exact h.spared (changedWindowPixel_of_changed hx hy hc)
  have hrow := offY_add_lt (geometryOk_iff.1 h.geometry).2.1 hy
  have hread : fbRead (paintPixel t) x y = fbRead t x y :=
    fbRead_fbWrite_other t t.color hrow h.row hne
  exact { h with band := paintPixel_bandChanged hc, read := hread.trans h.read }

theorem scan_scanSpares {s t : State} {x y : Nat} (n : Nat) (h : ScanSpares s x y t) :
    ScanSpares s x y (scan n t) := by
  refine scan_induction (P := ScanSpares s x y) ?next ?skip ?paint ?done n t h
  case next => exact fun u hu _ _ => { hu with band := nextColumn_bandChanged }
  case skip => exact fun u hu _ _ hb => { hu with band := skipBand_bandChanged hb }
  case paint => exact fun u hu hx hy hb _ => paintPixel_scanSpares hu hx hy hb
  case done => exact fun u hu _ => { hu with }

/-- The scan paints window pixels of changed chunks only (R79, R175). -/
theorem fbRead_runScan {s : State} {x y : Nat} (hs : BandChanged s) (hg : geometryOk s = true)
    (hy : y < s.dispH) (h : ¬ ChangedWindowPixel s x y) : fbRead (runScan s) x y = fbRead s x y :=
  (scan_scanSpares (scanTurns s) ⟨hs, hg, hy, h, rfl⟩).read

/-! ## The pixels a step of a decode writes -/

theorem fbRead_afterLeft (s : State) (x y : Nat) : fbRead (afterLeft s) x y = fbRead s x y := by
  unfold afterLeft
  split <;> rfl

theorem fbRead_sampleEdges (s : State) (x y : Nat) : fbRead (sampleEdges s) x y = fbRead s x y := by
  unfold sampleEdges
  dsimp only
  split
  · rfl
  · exact fbRead_afterLeft _ x y

theorem fbRead_fillLeft {s : State} {x y : Nat} (hy : y < s.dispH) (hx : offX s ≤ x) :
    fbRead (fillLeft s) x y = fbRead s x y := by
  rw [fillLeft, fbRead_afterLeft, fbRead_fbFillColumns s _ _ _ hy, if_neg (by omega)]

theorem fbRead_fillRight {s : State} {x y : Nat} (hy : y < s.dispH) (hx : x < offX s + s.w) :
    fbRead (fillRight s) x y = fbRead s x y := by
  have h := fbRead_fbFillColumns s (offX s + s.w) (s.dispW - (offX s + s.w)) (majority s.er1 s.er0) hy
    (x' := x)
  rw [if_neg (by omega)] at h
  exact h

/-- The pixels a decode has leave to write by the time it is in state `s` (R79): window pixels of changed
chunks once the mask is loaded, and a margin once its fill has been decided on. -/
inductive MayWrite (s : State) (x y : Nat) : Prop
  | window (hp : s.phase ≠ .header) (h : ChangedWindowPixel s x y)
  | left (hp : s.phase = .fillL ∨ s.phase = .fillR ∨ s.phase = .idle) (hx : x < offX s)
      (h : thresholdMet s.el1 s.el0 = true)
  | right (hp : s.phase = .fillR ∨ s.phase = .idle) (hx : offX s + s.w ≤ x)
      (h : thresholdMet s.er1 s.er0 = true)

/-- Leave once given stays: mask and counts are not loaded again. -/
theorem busyNext_mayWrite {s t : State} {x y : Nat} (hi : s.phase ≠ .idle) (hn : BusyNext s t)
    (h : MayWrite s x y) : MayWrite t x y := by
  have hk := busyNext_geometryKept hi hn
  cases h with
  | window hp hw =>
    obtain ⟨hm, hp'⟩ := busyNext_mask hi hp hn
    exact .window hp' ((changedWindowPixel_congr hk hm x y).2 hw)
  | left hp hx hth =>
    obtain ⟨he, hp'⟩ := busyNext_edgesKept (by simpa [hi] using hp) hn
    exact .left (.inr hp') (hk.offX ▸ hx) (by rw [he.el1, he.el0, hth])
  | right hp hx hth =>
    obtain ⟨he, hp'⟩ := busyNext_edgesKept (.inr (by simpa [hi] using hp)) hn
    exact .right hp' (by rw [hk.offX, hk.w]; exact hx) (by rw [he.er1, he.er0, hth])

/-- A step under the geometry RESET loads writes only pixels it has leave to write. -/
theorem busyNext_fbRead {s t : State} {x y : Nat} (hg : geometryOk s = true) (hb : BandInv s)
    (hf : FillInv s) (hy : y < s.dispH) (hn : BusyNext s t) (ht : t.faultRec = none)
    (hno : ¬ MayWrite s x y) : fbRead t x y = fbRead s x y := by
  cases hn with
  | dimsFault | endOfRom | runFault => simp at ht
  | dims | fullMask | zeroMask | mask | pad | color => rfl
  | run g v hx =>
    have hp : s.phase ≠ .header := by rcases phase_of_expectsRun hx with h | h <;> simp [h]
    exact fbRead_runScan (s := loadRun g v s) (loadRun_bandChanged hb) hg hy fun h => hno (.window hp h)
  | scan hp => exact fbRead_runScan (hb hp) hg hy fun h => hno (.window (by simp [hp]) h)
  | sample => exact fbRead_sampleEdges s x y
  | fillL hp => exact fbRead_fillLeft hy (not_lt.1 fun hx => hno (.left (.inl hp) hx (hf.left hp)))
  | fillR hp => exact fbRead_fillRight hy (not_le.1 fun hx => hno (.right (.inl hp) hx (hf.right hp)))

theorem busyStep_fbRead {s t : State} {x y : Nat} (hi : s.phase ≠ .idle) (hb : BandInv s)
    (hf : FillInv s) (hy : y < s.dispH) (e : busyStep s = .next t) (ht : t.faultRec = none)
    (hno : ¬ MayWrite s x y) : fbRead t x y = fbRead s x y := by
  have hn := busyStep_busyNext e
  obtain hg | ⟨hfb, hd⟩ | ⟨-, hfault⟩ := busyStep_geometryOk_or_fb e
  · exact busyNext_fbRead hg hb hf hy hn ht hno
  · exact fbRead_congr hfb hd (busyNext_geometryKept hi hn).dispH x y
  · exact absurd ht hfault

/-! ## The whole operation -/

/-- What the steps of a decode that began in `s` keep, about one display pixel. -/
structure DecodeInv (s : State) (x y : Nat) (t : State) : Prop where
  busy : t.busy = true → t.phase ≠ .idle
  geometry : GeometryKept s t
  band : BandInv t
  fill : FillInv t
  pixel : t.faultRec = none → ¬ MayWrite t x y → fbRead t x y = fbRead s x y

theorem beginFrame_decodeInv (s : State) (x y : Nat) : DecodeInv s x y (beginFrame s) where
  busy _ := Phase.noConfusion
  geometry := { GeometryKept.refl s with }
  band := Phase.noConfusion
  fill := fillInv_of_phase Phase.noConfusion Phase.noConfusion
  pixel _ _ := rfl

theorem busyStep_decodeInv {s t u : State} {x y : Nat} (hy : y < s.dispH) (hb : t.busy = true)
    (h : DecodeInv s x y t) (e : busyStep t = .next u) : DecodeInv s x y u := by
  have hn := busyStep_busyNext e
  have hi := h.busy hb
  refine ⟨?_, h.geometry.trans (busyNext_geometryKept hi hn), busyNext_bandInv h.band hn,
    busyNext_fillInv hn, fun hu hno => ?_⟩
  · obtain ⟨hbusy, -⟩ | ⟨-, -, hp⟩ := busyNext_endsOrGoesOn hn
    · simp [hbusy]
    · exact fun _ => hp
  · have hno' : ¬ MayWrite t x y := fun hw => hno (busyNext_mayWrite hi hn hw)
    have ht : t.faultRec = none := by
      cases ht : t.faultRec with
      | none => rfl
      | some f => simp [busyNext_faultRec ht hn] at hu
    exact (busyStep_fbRead hi h.band h.fill (h.geometry.dispH ▸ hy) e hu hno').trans (h.pixel ht hno')

/-- Settles O42: what the operation had leave to write is, in the state it leaves, a window pixel of a changed
chunk or a margin pixel whose threshold is met. -/
theorem decodeKeepsOtherPixels : Obligations.DecodeKeepsOtherPixels := by
  intro s t e hfault x y _ hy hwindow hleft hright
  obtain ⟨-, -, -, -, e⟩ := execDecodeNextFrame_next e
  have h : DecodeInv s x y t := runOperation_induction (P := DecodeInv s x y)
    (fun _ _ => busyStep_decodeInv hy) _ (beginFrame_decodeInv s x y) e
  rw [← h.geometry.offX] at hwindow hleft hright
  rw [← h.geometry.offY, ← h.geometry.w, ← h.geometry.h] at hwindow
  rw [← h.geometry.w] at hright
  refine h.pixel hfault ?_
  rintro (⟨-, hw⟩ | ⟨-, hx, hth⟩ | ⟨-, hx, hth⟩)
  · exact hwindow hw
  · exact hleft ⟨hx, hth⟩
  · exact hright ⟨hx, hth⟩

end Sys2Proof.Machine
end

