-- ==== Sys2Proof/Proofs/Encoding.lean ====
section
/-! SUPPORT. Decoding and encoding are inverse (30_encoding): a field's number and its bits, the one-bits
that begin a RUN token and its groups, each token's format in both directions, and the run code as a bijection. -/

namespace Sys2Proof.Machine

/-! ## Fields: numbers and their bits (R70, R122) -/

theorem bitsToNat_lt (bits : List Bool) : bitsToNat bits < 2 ^ bits.length := by
  induction bits using List.reverseRecOn with
  | nil => exact Nat.one_pos
  | append_singleton bits b ih =>
    rw [bitsToNat_concat, List.length_append, List.length_singleton, Nat.bit_lt_two_pow_succ_iff]
    exact ih

/-- The last bit of a field is the least significant of its number. -/
theorem natToBits_succ_bit (n : Nat) (b : Bool) (v : Nat) :
    natToBits (n + 1) (Nat.bit b v) = natToBits n v ++ [b] := by
  induction n with
  | zero => simp [natToBits]
  | succ n ih => rw [natToBits, ih, Nat.testBit_bit_succ]; rfl

theorem natToBits_bitsToNat (bits : List Bool) : natToBits bits.length (bitsToNat bits) = bits := by
  induction bits using List.reverseRecOn with
  | nil => rfl
  | append_singleton bits b ih =>
    rw [bitsToNat_concat, List.length_append, List.length_singleton, natToBits_succ_bit, ih]

theorem bitsToNat_natToBits {n v : Nat} (hv : v < 2 ^ n) : bitsToNat (natToBits n v) = v := by
  induction n generalizing v with
  | zero => exact (Nat.lt_one_iff.1 hv).symm
  | succ n ih =>
    rw [← Nat.bit_bodd_div2 v, Nat.bit_lt_two_pow_succ_iff] at hv
    rw [← Nat.bit_bodd_div2 v, natToBits_succ_bit, bitsToNat_concat, ih hv]

theorem natToBits_getElem? {n k : Nat} (v : Nat) (hk : k < n) :
    (natToBits n v)[n - 1 - k]? = some (v.testBit k) := by
  induction n with
  | zero => omega
  | succ n ih =>
    obtain rfl | hlt := Nat.eq_or_lt_of_le (Nat.le_of_lt_succ hk)
    · simp [natToBits]
    · rw [show n + 1 - 1 - k = n - 1 - k + 1 by omega]
      exact ih hlt

/-- Reading a word back from its own bits gives the word. -/
theorem ofNat_bitsToNat_natToBits {n : Nat} (x : BitVec n) :
    BitVec.ofNat n (bitsToNat (natToBits n x.toNat)) = x := by
  rw [bitsToNat_natToBits x.isLt, BitVec.ofNat_toNat, BitVec.setWidth_eq]

/-- The word a field of its width holds has the field's bits. -/
theorem natToBits_ofNat_bitsToNat {n : Nat} {bits : List Bool} (h : bits.length = n) :
    natToBits n (BitVec.ofNat n (bitsToNat bits)).toNat = bits := by
  subst h
  rw [BitVec.toNat_ofNat, Nat.mod_eq_of_lt (bitsToNat_lt bits), natToBits_bitsToNat]

theorem take_natToBits_append (n v : Nat) (rest : List Bool) :
    (natToBits n v ++ rest).take n = natToBits n v :=
  List.take_left' (Laws.natToBits_length n v)

theorem drop_natToBits_append (n v : Nat) (rest : List Bool) :
    (natToBits n v ++ rest).drop n = rest :=
  List.drop_left' (Laws.natToBits_length n v)

/-! ## The one-bits that begin a RUN token, and the bits after them (R135, R136) -/

theorem readPrefix_replicate (ones j : Nat) (bits : List Bool) (h : ones + j < 6) :
    readPrefix ones (List.replicate j true ++ false :: bits) = .stop (ones + j) bits := by
  induction j generalizing ones with
  | zero => rfl
  | succ j ih =>
    rw [List.replicate_succ, List.cons_append, readPrefix_true, if_neg (by omega), ih _ (by omega),
      Nat.add_right_comm, Nat.add_assoc]

theorem eq_of_readPrefix_stop {ones k : Nat} {bits rest : List Bool}
    (h : readPrefix ones bits = .stop k rest) :
    ∃ j, k = ones + j ∧ bits = List.replicate j true ++ false :: rest := by
  induction bits generalizing ones with
  | nil => cases h
  | cons b bs ih =>
    cases b with
    | false => cases h; exact ⟨0, rfl, rfl⟩
    | true =>
      rw [readPrefix_true] at h
      split at h
      · cases h
      · obtain ⟨j, rfl, rfl⟩ := ih h
        exact ⟨j + 1, by omega, rfl⟩

theorem eq_of_readPrefix_reserved {ones : Nat} {bits rest : List Bool} (h0 : ones < 6)
    (h : readPrefix ones bits = .reserved rest) : bits = List.replicate (6 - ones) true ++ rest := by
  induction bits generalizing ones with
  | nil => cases h
  | cons b bs ih =>
    cases b with
    | false => cases h
    | true =>
      rw [readPrefix_true] at h
      split at h
      · rename_i h6
        cases h
        obtain rfl : ones = 5 := by omega
        rfl
      · rw [ih (by omega) h, show 6 - ones = 6 - (ones + 1) + 1 by omega]
        rfl

/-! ## RUN tokens as group and value (R97) -/

theorem runToken_runField {g v : Nat} (h1 : 1 ≤ g) (h6 : g ≤ 6) (hv : v < 2 ^ (3 * g)) :
    RunField (runToken g v) g v := by
  interval_cases g <;> exact ⟨rfl, (Nat.mod_eq_of_lt hv).symm⟩

theorem RunField.runToken_eq {i : Instr} {g v : Nat} (h : RunField i g v) : runToken g v = i := by
  cases i <;> simp only [RunField] at h <;> obtain ⟨rfl, rfl⟩ := h <;> simp [runToken]

theorem RunField.encode_eq {i : Instr} {g v : Nat} (h : RunField i g v) : encode i = encodeRunBits g v := by
  cases i <;> simp only [RunField] at h <;> obtain ⟨rfl, rfl⟩ := h <;> rfl

/-- The bits of group `g` with value field `v` are read back as their token. -/
theorem decodeRun_encodeRunBits {g v : Nat} (h1 : 1 ≤ g) (h6 : g ≤ 6) (hv : v < 2 ^ (3 * g))
    (rest : List Bool) : decodeRun (encodeRunBits g v ++ rest) = .ok (runToken g v) rest := by
  have hp : readPrefix 0 (encodeRunBits g v ++ rest) = .stop (g - 1) (natToBits (3 * g) v ++ rest) := by
    rw [encodeRunBits, List.append_assoc, List.cons_append, readPrefix_replicate _ _ _ (by omega),
      Nat.zero_add]
    rfl
  have hlen : ¬ (natToBits (3 * g) v ++ rest).length < 3 * g := by
    rw [List.length_append, Laws.natToBits_length]
    omega
  simp only [decodeRun, hp, Nat.sub_add_cancel h1, Config.groupBits, if_neg hlen, take_natToBits_append,
    drop_natToBits_append, bitsToNat_natToBits hv]

/-- Where a RUN token is read, its encoding stands before the rest. -/
theorem eq_encode_of_decodeRun {bits rest : List Bool} {i : Instr} (h : decodeRun bits = .ok i rest) :
    bits = encode i ++ rest := by
  unfold decodeRun at h
  split at h
  · cases h
  · rename_i hp
    cases h
    exact eq_of_readPrefix_reserved (by decide) hp
  · rename_i k r hp
    have hk := (readPrefix_stop (by decide) hp).1
    obtain ⟨j, rfl, rfl⟩ := eq_of_readPrefix_stop hp
    rw [Nat.zero_add] at h hk
    dsimp only at h
    split at h
    · cases h
    · rename_i hn
      cases h
      change ¬ r.length < 3 * (j + 1) at hn
      have hfield : (r.take (3 * (j + 1))).length = 3 * (j + 1) := List.length_take_of_le (by omega)
      have hv := bitsToNat_lt (r.take (3 * (j + 1)))
      have hbits := natToBits_bitsToNat (r.take (3 * (j + 1)))
      rw [hfield] at hv hbits
      change _ = encode (runToken (j + 1) (bitsToNat (r.take (3 * (j + 1))))) ++ r.drop (3 * (j + 1))
      rw [(runToken_runField (by omega) (by omega) hv).encode_eq, encodeRunBits, List.append_assoc,
        List.cons_append, Config.groupBits, hbits, List.take_append_drop, Nat.add_sub_cancel]

/-! ## Decoding what was encoded (R90, R97, R105) -/

theorem decodeDims_encode (w h : Byte) (rest : List Bool) :
    decodeDims (encode (.dims w h) ++ rest) = .ok (.dims w h) rest := by
  have hlen : ¬ (natToBits 8 w.toNat ++ (natToBits 8 h.toNat ++ rest)).length < 16 := by
    simp only [List.length_append, Laws.natToBits_length]
    omega
  have hdrop : (natToBits 8 w.toNat ++ (natToBits 8 h.toNat ++ rest)).drop 16 = rest := by
    rw [show 16 = 8 + 8 from rfl, ← List.drop_drop, drop_natToBits_append, drop_natToBits_append]
  rw [encode, List.append_assoc, decodeDims, if_neg hlen, hdrop, drop_natToBits_append,
    take_natToBits_append, take_natToBits_append, ofNat_bitsToNat_natToBits, ofNat_bitsToNat_natToBits]

theorem decodeMask_encode (m : MaskWord) (rest : List Bool) :
    decodeMask (encode (.mask m) ++ rest) = .ok (.mask m) rest := by
  have hlen : ¬ (natToBits 64 m.toNat ++ rest).length < Config.maskBits := by
    rw [List.length_append, Laws.natToBits_length]
    exact Nat.not_lt.2 (Nat.le_add_right 64 _)
  rw [encode, decodeMask, if_neg hlen, take_natToBits_append, drop_natToBits_append,
    ofNat_bitsToNat_natToBits]

theorem decode_encode_of_runField {i : Instr} {g v : Nat} (h : RunField i g v) (rest : List Bool) :
    decode i.context (encode i ++ rest) = .ok i rest := by
  obtain ⟨h1, h6, hv⟩ := h.bounds
  rw [h.context, h.encode_eq]
  exact (decodeRun_encodeRunBits h1 h6 hv rest).trans (by rw [h.runToken_eq])

theorem decode_encode {i : Instr} (hi : ∀ n, i ≠ .pad n) (rest : List Bool) :
    decode i.context (encode i ++ rest) = .ok i rest := by
  cases i with
  | dims w h => exact decodeDims_encode w h rest
  | mask m => exact decodeMask_encode m rest
  | color c => rfl
  | runG1 v => exact decode_encode_of_runField (i := .runG1 v) ⟨rfl, rfl⟩ rest
  | runG2 v => exact decode_encode_of_runField (i := .runG2 v) ⟨rfl, rfl⟩ rest
  | runG3 v => exact decode_encode_of_runField (i := .runG3 v) ⟨rfl, rfl⟩ rest
  | runG4 v => exact decode_encode_of_runField (i := .runG4 v) ⟨rfl, rfl⟩ rest
  | runG5 v => exact decode_encode_of_runField (i := .runG5 v) ⟨rfl, rfl⟩ rest
  | runG6 v => exact decode_encode_of_runField (i := .runG6 v) ⟨rfl, rfl⟩ rest
  | runRsv => rfl
  | pad n => exact absurd rfl (hi n)
  | reset start => rfl
  | decodeNextFrame => rfl

/-- Fewer bits than a mask has are the stream's tail, whatever they are (R103, R124; log 13). -/
theorem decodeMask_short {bits : List Bool} (h : bits.length < 64) :
    decodeMask bits = .ok (.pad bits.length) [] :=
  if_pos h

/-- Settles O4: each format is read back field by field; the tail's zeros are too few for a mask. -/
theorem decodeEncodeAgree : Obligations.DecodeEncodeAgree := by
  refine ⟨fun i rest hi => decode_encode hi rest, fun n hn => ?_⟩
  have hlen : (encode (.pad n)).length = n := Laws.EncodeLength.pad n
  have hdec := decodeMask_short (hlen.trans_lt hn)
  rwa [hlen] at hdec

/-! ## The bits of what was decoded (R97, R98) -/

theorem eq_encode_of_decodeDims {bits rest : List Bool} {i : Instr} (h : decodeDims bits = .ok i rest) :
    bits = encode i ++ rest := by
  unfold decodeDims at h
  split at h
  · cases h
  · cases h
    have hw : (bits.take 8).length = 8 := List.length_take_of_le (by omega)
    have hh : ((bits.drop 8).take 8).length = 8 :=
      List.length_take_of_le (by rw [List.length_drop]; omega)
    rw [encode, natToBits_ofNat_bitsToNat hw, natToBits_ofNat_bitsToNat hh, List.append_assoc,
      show 16 = 8 + 8 from rfl, ← List.drop_drop, List.take_append_drop, List.take_append_drop]

theorem eq_encode_of_decodeMask {bits rest : List Bool} {i : Instr} (h : decodeMask bits = .ok i rest)
    (hi : ∀ n, i ≠ .pad n) : bits = encode i ++ rest := by
  unfold decodeMask at h
  split at h
  · cases h
    exact absurd rfl (hi _)
  · rename_i hlen
    cases h
    have h64 : (bits.take 64).length = 64 := List.length_take_of_le (Nat.not_lt.1 hlen)
    rw [encode, natToBits_ofNat_bitsToNat h64, List.take_append_drop]

/-- Settles O5: context by context, the fields read are the fields written. -/
theorem decodedBitsAreTheEncoding : Obligations.DecodedBitsAreTheEncoding := by
  intro c bits i rest h hi
  cases c with
  | dims => exact eq_encode_of_decodeDims h
  | mask => exact eq_encode_of_decodeMask h hi
  | color =>
    cases bits with
    | nil => cases h
    | cons b bs => cases h; rfl
  | run => exact eq_encode_of_decodeRun h
  | ctrl =>
    match bits, h with
    | true :: b :: bs, h => cases h; rfl
    | false :: true :: bs, h => cases h; rfl
    | false :: false :: bs, h => cases h
    | [b], h => cases b <;> cases h
    | [], h => cases h

/-! ## The run code (R98, R139, R239) -/

/-- The groups' ranges are disjoint: the run length names its group. -/
theorem runGroup_runLength {g v : Nat} (h1 : 1 ≤ g) (h6 : g ≤ 6) (hv : v < 2 ^ (3 * g)) :
    runGroup (runLength g v) = g := by
  unfold runGroup
  interval_cases g <;> simp only [runLength, groupOffset, Config.offset, List.getD_cons_zero,
    List.getD_cons_succ, Nat.reduceSub] <;> split_ifs <;> omega

/-- The groups' ranges leave no gap: every run length lies in the one of its group. -/
theorem runGroup_spec {n : Nat} (h1 : 1 ≤ n) (hmax : n ≤ Config.runMax) :
    1 ≤ runGroup n ∧ runGroup n ≤ 6 ∧ n - 1 - groupOffset (runGroup n) < 2 ^ (3 * runGroup n) ∧
      runLength (runGroup n) (n - 1 - groupOffset (runGroup n)) = n := by
  unfold Config.runMax at hmax
  unfold runGroup
  split_ifs <;> simp [runLength, groupOffset, Config.offset] <;> omega

/-- Settles O7: the group is the one the run length names, and the value what is left of it. -/
theorem runCodeIsBijective : Obligations.RunCodeIsBijective := by
  refine ⟨fun g v => runLength_bounds, fun n h1 hmax => ?_⟩
  refine ⟨(runGroup n, n - 1 - groupOffset (runGroup n)), runGroup_spec h1 hmax, ?_⟩
  rintro ⟨g, v⟩ ⟨hg1, hg6, hv, rfl⟩
  dsimp only at hg1 hg6 hv ⊢
  rw [runGroup_runLength hg1 hg6 hv, runLength, Nat.add_sub_cancel, Nat.add_sub_cancel]

/-! ## The mask's bit order (R95) -/

/-- Settles O23: the 64 bits are the encoding of the mask they hold, and the encoding puts bit `k` at
position `63 - k`. -/
theorem maskBitsAreMsbFirst : Obligations.MaskBitsAreMsbFirst := by
  intro bits hlen
  have hbits := natToBits_ofNat_bitsToNat hlen
  refine ⟨BitVec.ofNat 64 (bitsToNat bits), ?_, fun k hk => ?_⟩
  · have hdec := decodeMask_encode (BitVec.ofNat 64 (bitsToNat bits)) []
    rwa [encode, hbits, List.append_nil] at hdec
  · have hbit := natToBits_getElem? (BitVec.ofNat 64 (bitsToNat bits)).toNat hk
    rwa [hbits] at hbit

/-! ## Words of the tables and test vectors (R90, R97) -/

/-- Settles O3: each word is an encoding, with the bits its last byte has left. -/
theorem sampleWordsDecode : Obligations.SampleWordsDecode := by
  unfold Obligations.SampleWordsDecode
  refine ⟨?_, ?_, ?_, ?_, ?_, ?_, ?_, ?_⟩
  · exact decode_encode (i := .dims 15 8) nofun []
  · exact decode_encode (i := .runG1 5) nofun []
  · exact decode_encode (i := .runG2 7) nofun []
  · exact decode_encode (i := .runG3 23) nofun [true, true, true, true]
  · exact decode_encode (i := .runG4 15) nofun []
  · exact decode_encode (i := .runG6 27576) nofun []
  · exact decode_encode (i := .runRsv) nofun [true, false]
  · exact decode_encode (i := .mask 0x0000000003030000#64) nofun []

end Sys2Proof.Machine
end

