-- ==== Sys2Proof/Proofs/Fetch.lean ====
section
/-! SUPPORT. What a step runs (R92, R105): while busy the token its state expects, while idle the operation the
control sample asks for. -/

namespace Sys2Proof.Machine

/-! ## Busy: the token the state expects (R92, R105) -/

/-- A busy block runs the token that stands where its state expects one. -/
theorem step_token {s : State} {c : Context} {i : Instr} {rest : List Bool} (hb : s.busy = true)
    (hc : tokenContext s = some c) (hd : decode c (tokenWindow c s) = .ok i rest) :
    step s = exec i s := by
  have hi : i.context ≠ .ctrl := by
    rw [decode_context hd]
    rintro rfl
    exact tokenContext_ne_ctrl hc
  simp only [step_busy hb, busyStep, fetchToken, hc, hd, execToken_eq_exec hi]

/-- In the scan a RUN token is expected where a pixel is due and the run is exhausted (R178). -/
theorem tokenContext_scan {s : State} (hp : s.phase = .scan) (hx : s.x < s.w) (hy : s.y < s.h)
    (hr : s.run = 0) (hband : s.y % s.ch = 0 → changed s s.x s.y = true) :
    tokenContext s = some .run := by
  have hskip : bandSkipped s = false := by simpa [bandSkipped] using hband
  have hneed : needsRun s = true := by simp [needsRun, hp, hx, hy, hskip, hr]
  simp [tokenContext, hp, hneed]

/-! ## Idle: the host's control sample (R105, R33) -/

/-- An idle block takes the control sample and performs the operation it asks for. -/
theorem step_control {s : State} {rst start : Bool} {q : List HostInput} {i : Instr} {rest : List Bool}
    (hb : s.busy = false) (hi : s.inputs = .control rst start :: q)
    (hd : decode .ctrl [rst, start] = .ok i rest) :
    step s = exec i { s with inputs := q, done := false } := by
  simp [step, fetch, hb, fetchInput, hi, hd]

/-- The sample `00` decodes to no operation: it is only taken. -/
theorem step_control_noOperation {s : State} {q : List HostInput} (hb : s.busy = false)
    (hi : s.inputs = .control false false :: q) :
    step s = .next { s with inputs := q, done := false } := by
  simp [step, fetch, hb, fetchInput, hi, decode, decodeCtrl]

/-- An idle block without an input ends the pulse of `DONE` (log 8). -/
theorem step_no_input {s : State} (hb : s.busy = false) (hi : s.inputs = []) :
    step s = .next { s with done := false } := by
  simp [step, fetch, hb, fetchInput, hi]

/-! ## The statements -/

/-- Settles O1: one fetch each, a token's or a control sample's. -/
theorem stepRunsDecodedInstruction : Obligations.StepRunsDecodedInstruction :=
  ⟨fun _ _ _ _ => step_token, fun _ _ _ _ _ _ => step_control⟩

/-- Settles O2: the phase names the token's context. -/
theorem busyBlockReadsExpectedToken : Obligations.BusyBlockReadsExpectedToken := by
  intro s i hb
  refine ⟨fun rest hp hd => ?_, fun rest hp hf hd => ?_, fun rest hp hg hd => ?_,
    fun rest hp hg hd => ?_, fun rest hp hx hy hr hband hd => ?_⟩
  · exact step_token (c := .dims) hb (by simp [tokenContext, hp]) hd
  · exact step_token (c := .mask) hb (by simp [tokenContext, hp, hf]) hd
  · exact step_token (c := .color) hb (by simp [tokenContext, hp, hg]) hd
  · exact step_token (c := .run) hb (by simp [tokenContext, hp, hg]) hd
  · exact step_token (c := .run) hb (tokenContext_scan hp hx hy hr hband) hd

/-- Settles O47: either way the fetch comes to a step without an instruction. -/
theorem noRequestNoOperation : Obligations.NoRequestNoOperation :=
  ⟨fun _ _ => step_control_noOperation, fun _ => step_no_input⟩

end Sys2Proof.Machine
end

