-- ==== Sys2Proof/Proofs/BitReader.lean ====
section
/-! SUPPORT. The bit reader's micro-operations RDBIT and RDBITS (R121, R122): inside the ROM they return the
window's bits, and they stop at its end. -/

namespace Sys2Proof.Machine

/-! ## RDBIT (R121) -/

/-- Inside the ROM RDBIT consumes the stream bit at the cursor (R70). -/
theorem rdBit_of_romBit {s : State} {b : Bool} (hb : romBit s s.cursor = some b) :
    rdBit s = (some b, { s with cursor := s.cursor + 1 }) := by
  rw [rdBit, hb]

theorem rdBit_at_end {s : State} (hend : 8 * s.romLen ≤ s.cursor) : rdBit s = (none, s) := by
  rw [rdBit, romBit_eq_none.2 hend]

theorem exists_romBit {s : State} {p : Nat} (hp : p < 8 * s.romLen) : ∃ b, romBit s p = some b :=
  Option.isSome_iff_exists.1 (romBit_isSome.2 hp)

/-! ## RDBITS (R122) -/

/-- The window at a position does not depend on where the cursor is. -/
theorem streamBits_setCursor (s : State) (c p n : Nat) :
    streamBits { s with cursor := c } p n = streamBits s p n := by
  induction n generalizing p with
  | zero => rfl
  | succ n ih =>
    rw [streamBits, streamBits, ih]
    rfl

/-- The window begins with the bit at its position, which must exist. -/
theorem streamBits_succ {s : State} {p : Nat} {b : Bool} (hb : romBit s p = some b) (n : Nat) :
    streamBits s p (n + 1) = b :: streamBits s (p + 1) n := by
  rw [streamBits, hb]

/-- RDBITS in a ROM that has enough bits left: the window's bits are appended to those read so far. -/
theorem rdBits_inside {n : Nat} (v : Nat) {s : State} (hn : s.cursor + n ≤ 8 * s.romLen) :
    rdBits n v s = (some ((streamBits s s.cursor n).foldl (fun v b => 2 * v + b.toNat) v),
      { s with cursor := s.cursor + n }) := by
  induction n generalizing v s with
  | zero => rfl
  | succ n ih =>
    obtain ⟨b, hb⟩ := exists_romBit (show s.cursor < 8 * s.romLen by omega)
    have hrest := ih (2 * v + b.toNat) (s := { s with cursor := s.cursor + 1 })
      (by change s.cursor + 1 + n ≤ 8 * s.romLen; omega)
    simp only [rdBits, rdBit_of_romBit hb, hrest, streamBits_setCursor, streamBits_succ hb,
      List.foldl_cons, Nat.add_assoc, Nat.add_comm 1 n]

/-- RDBITS in a ROM with too few bits left: those it has are consumed before the overrun. -/
theorem rdBits_overrun {n : Nat} (v : Nat) {s : State} (hin : s.cursor ≤ 8 * s.romLen)
    (hn : 8 * s.romLen < s.cursor + n) : rdBits n v s = (none, { s with cursor := 8 * s.romLen }) := by
  induction n generalizing v s with
  | zero => omega
  | succ n ih =>
    obtain hend | hlt := Nat.eq_or_lt_of_le hin
    · simp only [rdBits, rdBit_at_end hend.ge, ← hend]
    · obtain ⟨b, hb⟩ := exists_romBit hlt
      simp only [rdBits, rdBit_of_romBit hb]
      exact ih _ hlt (by change 8 * s.romLen < s.cursor + 1 + n; omega)

/-! ## The statements -/

/-- Settles O9: RDBIT's bit is the stream bit at the cursor, which is the bit of the ROM byte there. -/
theorem readBitAdvancesCursor : Obligations.ReadBitAdvancesCursor := by
  refine fun s => ⟨rdBit_at_end, fun hlt => ?_⟩
  obtain ⟨c, hc⟩ := exists_romBit hlt
  obtain ⟨b, hread, rfl⟩ := Option.map_eq_some_iff.1 hc
  exact ⟨b, hread, rdBit_of_romBit hc⟩

/-- Settles O10: RDBITS starts with no bit read, so its number is that of the window. -/
theorem readFieldIsMsbFirst : Obligations.ReadFieldIsMsbFirst :=
  fun _ _ hin => ⟨rdBits_inside 0, rdBits_overrun 0 hin⟩

end Sys2Proof.Machine
end

/-! SUPPORT. The RUN decoder (41_run_decoder): the run code's round trip, the bit-serial DECODE_RUN against the
decoder on the window, and the meanings of the RUN tokens where one is expected. -/

namespace Sys2Proof.Machine

/-! ## The run code (R149, R239) -/

/-- Settles O6: the group and value that carry `n` are read back from their own bits. -/
theorem runLengthRoundTrip : Obligations.RunLengthRoundTrip := by
  intro n rest h1 hmax
  obtain ⟨hg1, hg6, hv, hlen⟩ := runGroup_spec h1 hmax
  refine ⟨runGroup n, n - 1 - groupOffset (runGroup n), hg1, hg6, hv, hlen, ?_⟩
  rw [encodeRun, (runToken_runField hg1 hg6 hv).encode_eq]
  exact decodeRun_encodeRunBits hg1 hg6 hv rest

/-! ## Windows (R70) -/

/-- A window is its first `m` bits and the window after them; past the end of the ROM both are empty. -/
theorem streamBits_add (s : State) (p m n : Nat) :
    streamBits s p (m + n) = streamBits s p m ++ streamBits s (p + m) n := by
  induction m generalizing p with
  | zero => simp [streamBits]
  | succ m ih =>
    cases hb : romBit s p with
    | none =>
      have hend : romBit s (p + (m + 1)) = none :=
        romBit_eq_none.2 ((romBit_eq_none.1 hb).trans (Nat.le_add_right _ _))
      cases n <;> simp [streamBits, hb, hend]
    | some b =>
      rw [Nat.add_right_comm, streamBits_succ hb, streamBits_succ hb, ih, List.cons_append,
        Nat.add_assoc, Nat.add_comm 1 m]

/-- The first bits of a window are the shorter window, and what follows them is the window after it. -/
theorem streamBits_eq_append {s : State} {p n : Nat} {front back : List Bool}
    (h : streamBits s p n = front ++ back) :
    streamBits s p front.length = front ∧
      streamBits s (p + front.length) (n - front.length) = back := by
  have hlen := congrArg List.length h
  rw [streamBits_length, List.length_append] at hlen
  rw [show n = front.length + (n - front.length) by omega, streamBits_add] at h
  exact List.append_inj h (by rw [streamBits_length]; omega)

/-- The bit that follows the first ones of a window is the stream's bit there. -/
theorem romBit_of_streamBits_append {s : State} {p n : Nat} {front back : List Bool} {b : Bool}
    (h : streamBits s p n = front ++ b :: back) : romBit s (p + front.length) = some b := by
  have hlen := congrArg List.length h
  rw [streamBits_length, List.length_append, List.length_cons] at hlen
  rw [← streamBits_getElem? s p n _ (by omega), h]
  simp

/-- A window depends on the ROM alone. -/
theorem streamBits_congr {s t : State} (hrom : t.rom = s.rom) (hlen : t.romLen = s.romLen) (p n : Nat) :
    streamBits t p n = streamBits s p n := by
  induction n generalizing p with
  | zero => rfl
  | succ n ih => simp only [streamBits, romBit, romRead, hrom, hlen, ih]

/-! ## The end of the ROM inside a RUN token (R264) -/

theorem eq_of_readPrefix_overrun {ones k : Nat} {bits : List Bool}
    (h : readPrefix ones bits = .overrun k) : ∃ j, k = ones + j ∧ bits = List.replicate j true := by
  induction bits generalizing ones with
  | nil => cases h; exact ⟨0, rfl, rfl⟩
  | cons b bs ih =>
    cases b with
    | false => cases h
    | true =>
      rw [readPrefix_true] at h
      split at h
      · cases h
      · obtain ⟨j, rfl, rfl⟩ := ih h
        exact ⟨j + 1, by omega, rfl⟩

/-- Bits that end inside a RUN token end in its one-bits or in its value field (R264). -/
theorem eq_of_decodeRun_overrun {bits : List Bool} {consumed ones : Nat}
    (h : decodeRun bits = .error (.overrun consumed ones)) :
    bits = List.replicate ones true ∨
      ∃ field, bits = List.replicate ones true ++ false :: field ∧ field.length < 3 * (ones + 1) := by
  unfold decodeRun at h
  split at h
  · rename_i hp
    cases h
    obtain ⟨j, rfl, hbits⟩ := eq_of_readPrefix_overrun hp
    exact .inl (by rwa [Nat.zero_add])
  · cases h
  · rename_i k field hp
    dsimp only at h
    split at h
    · rename_i hfield
      cases h
      obtain ⟨j, rfl, hbits⟩ := eq_of_readPrefix_stop hp
      exact .inr ⟨field, by rwa [Nat.zero_add], hfield⟩
    · cases h

/-! ## DECODE_RUN, the procedure of R135 -/

/-- RDBIT inside the ROM, wherever the cursor stands and whatever `ONES` is. -/
theorem rdBit_counting {s : State} {p : Nat} {b : Bool} (ones : Nat) (hb : romBit s p = some b) :
    rdBit { s with cursor := p, ones := ones } = (some b, { s with cursor := p + 1, ones := ones }) :=
  rdBit_of_romBit (s := { s with cursor := p, ones := ones }) hb

/-- The loop passes over one-bits, as long as they are fewer than six (R136). -/
theorem readOnes_add {j : Nat} (n : Nat) {s : State}
    (hbits : ∀ i < j, romBit s (s.cursor + i) = some true) (hj : s.ones + j < 6) :
    readOnes (n + j) s = readOnes n { s with cursor := s.cursor + j, ones := s.ones + j } := by
  induction j generalizing s with
  | zero => rfl
  | succ j ih =>
    have hne : s.ones + 1 ≠ Config.maxGroups := by
      unfold Config.maxGroups
      omega
    have hrest := ih (s := { s with cursor := s.cursor + 1, ones := s.ones + 1 })
      (fun i hi => (congrArg (romBit s) (Nat.add_right_comm ..)).trans (hbits (i + 1) (by omega)))
      (by change s.ones + 1 + j < 6; omega)
    rw [← Nat.add_assoc, readOnes, rdBit_of_romBit (hbits 0 (by omega))]
    simp only [if_neg hne, hrest, Nat.add_assoc, Nat.add_comm 1 j]

/-- The loop on a window that begins with `j` one-bits. -/
theorem readOnes_of_ones {s : State} {m j : Nat} {bits : List Bool}
    (h : streamBits s s.cursor m = List.replicate j true ++ bits) (hj : j < 6) :
    readOnes 6 { s with ones := 0 } =
      readOnes (6 - j) { s with cursor := s.cursor + j, ones := j } := by
  have hones : ∀ i < j, romBit s (s.cursor + i) = some true := by
    intro i hi
    have hlen := congrArg List.length h
    rw [streamBits_length, List.length_append, List.length_replicate] at hlen
    rw [← streamBits_getElem? s s.cursor m i (by omega), h, List.getElem?_append_left (by simpa using hi),
      List.getElem?_replicate_of_lt hi]
  have hpass := readOnes_add (6 - j) (s := { s with ones := 0 }) hones (by simpa using hj)
  rw [Nat.sub_add_cancel hj.le, Nat.zero_add] at hpass
  exact hpass

/-- A zero-bit after `j` one-bits names group `j + 1` (R135). -/
theorem readOnes_stop {s : State} {m j : Nat} {rest : List Bool}
    (h : streamBits s s.cursor m = List.replicate j true ++ false :: rest) (hj : j < 6) :
    readOnes 6 { s with ones := 0 } =
      (.inr (j + 1), { s with cursor := s.cursor + (j + 1), ones := j }) := by
  have hbit := romBit_of_streamBits_append h
  rw [List.length_replicate] at hbit
  rw [readOnes_of_ones h hj, show 6 - j = 5 - j + 1 by omega, readOnes, rdBit_counting _ hbit]
  rfl

/-- The sixth one-bit ends the loop (R148). -/
theorem readOnes_reserved {s : State} {m : Nat} {rest : List Bool}
    (h : streamBits s s.cursor m = List.replicate 6 true ++ rest) :
    readOnes 6 { s with ones := 0 } =
      (.inl (.reservedRunGroup (s.cursor + 6)), { s with cursor := s.cursor + 6, ones := 6 }) := by
  have hfive : streamBits s s.cursor m = List.replicate 5 true ++ true :: rest := h
  have hbit := romBit_of_streamBits_append hfive
  rw [List.length_replicate] at hbit
  rw [readOnes_of_ones hfive (by decide), readOnes, rdBit_counting _ hbit]
  rfl

/-- The ROM ends after `j` one-bits (R264). -/
theorem readOnes_overrun {s : State} {m j : Nat}
    (h : streamBits s s.cursor m = List.replicate j true) (hj : j < 6) (hm : j < m) :
    readOnes 6 { s with ones := 0 } =
      (.inl (.streamOverrun (s.cursor + j)), { s with cursor := s.cursor + j, ones := j }) := by
  have hlen := congrArg List.length h
  rw [streamBits_length, List.length_replicate] at hlen
  have hend : 8 * s.romLen ≤ s.cursor + j := by omega
  rw [readOnes_of_ones (h.trans (List.append_nil _).symm) hj, show 6 - j = 5 - j + 1 by omega, readOnes,
    rdBit_at_end hend]

/-- A field in a ROM that has enough bits left, whatever `ONES` is (R122). -/
theorem rdBits_field {s : State} {p n : Nat} (ones : Nat) (hn : p + n ≤ 8 * s.romLen) :
    rdBits n 0 { s with cursor := p, ones := ones } =
      (some (bitsToNat (streamBits s p n)), { s with cursor := p + n, ones := ones }) := by
  rw [← streamBits_congr (s := s) (t := { s with cursor := p, ones := ones }) rfl rfl]
  exact rdBits_inside 0 hn

/-- Where the window begins with a RUN token's bits, DECODE_RUN reads the token (R135). -/
theorem decodeRunProc_of_encodeRunBits {s : State} {m g v : Nat} {rest : List Bool} (h1 : 1 ≤ g)
    (h6 : g ≤ 6) (hv : v < 2 ^ (3 * g)) (h : streamBits s s.cursor m = encodeRunBits g v ++ rest) :
    decodeRunProc s =
      (.inr (runLength g v), { s with cursor := s.cursor + 4 * g, ones := g - 1, value := v }) := by
  obtain ⟨j, rfl⟩ := Nat.exists_eq_add_of_le' h1
  have hstop : streamBits s s.cursor m =
      List.replicate j true ++ false :: (natToBits (3 * (j + 1)) v ++ rest) := by
    rw [h, encodeRunBits, List.append_assoc]
    rfl
  have hafter := (streamBits_eq_append
    (hstop.trans (List.append_cons (List.replicate j true) false _))).2
  have hfield := (streamBits_eq_append hafter).1
  have hin := congrArg List.length hfield
  rw [List.length_append, List.length_replicate, List.length_singleton, Laws.natToBits_length] at hfield hin
  rw [streamBits_length] at hin
  have hread := rdBits_field (s := s) (p := s.cursor + (j + 1)) (n := 3 * (j + 1)) j (by omega)
  rw [hfield, bitsToNat_natToBits hv] at hread
  rw [decodeRunProc, Config.maxGroups, readOnes_stop hstop (by omega)]
  simp only [Config.groupBits, hread, Nat.add_sub_cancel,
    show s.cursor + (j + 1) + 3 * (j + 1) = s.cursor + 4 * (j + 1) by omega]

/-- Where the ROM ends inside a RUN token, DECODE_RUN stops at its end (R264). -/
theorem decodeRunProc_of_overrun {s : State} {consumed ones : Nat}
    (h : decodeRun (streamBits s s.cursor 24) = .error (.overrun consumed ones)) :
    decodeRunProc s = (.inl (.streamOverrun (s.cursor + consumed)),
      { s with cursor := s.cursor + consumed, ones := ones }) := by
  obtain ⟨rfl, hones⟩ := decodeRun_overrun h
  rw [decodeRunProc, Config.maxGroups]
  obtain hbits | ⟨field, hbits, hfield⟩ := eq_of_decodeRun_overrun h
  · rw [readOnes_overrun hbits hones (by omega), hbits, List.length_replicate]
  · have hlen := congrArg List.length hbits
    rw [List.length_append, List.length_replicate, List.length_cons, streamBits_length] at hlen
    have hread := rdBits_overrun (n := 3 * (ones + 1)) 0
      (s := { s with cursor := s.cursor + (ones + 1), ones := ones })
      (by change s.cursor + (ones + 1) ≤ 8 * s.romLen; omega)
      (by change 8 * s.romLen < s.cursor + (ones + 1) + 3 * (ones + 1); omega)
    have hend : s.cursor + (streamBits s s.cursor 24).length = 8 * s.romLen := by
      rw [streamBits_length]
      omega
    rw [readOnes_stop hbits hones, hend]
    simp only [Config.groupBits, hread]

/-- Settles O8: the window holds the bits of the token, of the reserved pattern, or of the token's part before
the end of the ROM, and DECODE_RUN reads them one by one. -/
theorem bitSerialRunDecoderAgrees : Obligations.BitSerialRunDecoderAgrees := by
  refine fun s => ⟨fun g v rest h1 h6 hv hd => ?_, fun rest hd => ?_, fun consumed ones => ?_⟩
  · have hbits := eq_encode_of_decodeRun hd
    rw [(runToken_runField h1 h6 hv).encode_eq] at hbits
    exact decodeRunProc_of_encodeRunBits h1 h6 hv hbits
  · rw [decodeRunProc, Config.maxGroups, readOnes_reserved (eq_encode_of_decodeRun hd)]
  · exact decodeRunProc_of_overrun

/-! ## Where a RUN token is expected (R92, R172, R178) -/

/-- The first run of the frame is due, or a pixel is due and the run is exhausted. -/
def RunDue (s : State) : Prop :=
  (s.phase = .color ∧ s.gotColor = true) ∨
    (s.phase = .scan ∧ s.x < s.w ∧ s.y < s.h ∧ s.run = 0 ∧ (s.y % s.ch = 0 → changed s s.x s.y = true))

theorem tokenContext_of_runDue {s : State} (h : RunDue s) : tokenContext s = some .run := by
  obtain ⟨hp, hg⟩ | ⟨hp, hx, hy, hr, hband⟩ := h
  · simp [tokenContext, hp, hg]
  · exact tokenContext_scan hp hx hy hr hband

/-- A busy block has the meaning of a RUN token exactly where its next fetch reads one. -/
theorem expectsRun_iff {s : State} :
    expectsRun s = true ↔ s.busy = true ∧ tokenContext s = some .run := by
  unfold expectsRun firstRunDue tokenContext
  cases hp : s.phase <;> simp [needsRun, hp, and_assoc]

/-! ## The six RUN tokens (R142 to R147) -/

theorem RunField.exec_eq {i : Instr} {g v : Nat} (h : RunField i g v) (s : State) :
    exec i s = execRunGroup g v s := by
  cases i <;> simp only [RunField] at h <;> obtain ⟨rfl, rfl⟩ := h <;> rfl

theorem execRunGroup_of_expectsRun {s : State} (g v : Nat) (hx : expectsRun s = true)
    (hg : geometryOk s = true) : execRunGroup g v s = .next (runScan (loadRun g v s)) := by
  rw [execRunGroup, if_pos hx, if_pos hg]

/-- The token of group `g` and value `v` loads the run length the two stand for. -/
theorem runTokenLoads_of_runField {i : Instr} {g v : Nat} (h : RunField i g v) {s : State}
    (hx : expectsRun s = true) (hg : geometryOk s = true) :
    runTokenLoads i g v (runLength g v) s :=
  ⟨h.encode_eq, (h.exec_eq s).trans (execRunGroup_of_expectsRun g v hx hg)⟩

/-- Settles O25: the six groups differ in their offset alone. -/
theorem runTokensComplete : Obligations.RunTokensComplete := by
  intro s hb hg hdue
  have hx : expectsRun s = true := expectsRun_iff.2 ⟨hb, tokenContext_of_runDue hdue⟩
  refine ⟨fun v => ?_, fun v => ?_, fun v => ?_, fun v => ?_, fun v => ?_, fun v => ?_⟩
  · exact runTokenLoads_of_runField (i := .runG1 v) (g := 1) ⟨rfl, rfl⟩ hx hg
  · exact runTokenLoads_of_runField (i := .runG2 v) (g := 2) ⟨rfl, rfl⟩ hx hg
  · exact runTokenLoads_of_runField (i := .runG3 v) (g := 3) ⟨rfl, rfl⟩ hx hg
  · exact runTokenLoads_of_runField (i := .runG4 v) (g := 4) ⟨rfl, rfl⟩ hx hg
  · exact runTokenLoads_of_runField (i := .runG5 v) (g := 5) ⟨rfl, rfl⟩ hx hg
  · exact runTokenLoads_of_runField (i := .runG6 v) (g := 6) ⟨rfl, rfl⟩ hx hg

/-! ## Six one-bits (R148) -/

/-- A stream that goes on with six one-bits is read as RUN.RSV. -/
theorem decode_of_six_ones {s : State} (h : streamBits s s.cursor 6 = List.replicate 6 true) :
    decode .run (tokenWindow .run s) = .ok .runRsv (streamBits s (s.cursor + 6) 18) := by
  rw [tokenWindow, show 24 = 6 + 18 from rfl, streamBits_add, h]
  rfl

/-- Settles O26: the fault is taken where the token is expected, and the draw is the next one. -/
theorem reservedPrefixRaisesFault : Obligations.ReservedPrefixRaisesFault := by
  intro s hb hf hdue
  have hctx := tokenContext_of_runDue hdue
  have hx : expectsRun s = true := expectsRun_iff.2 ⟨hb, hctx⟩
  have hexec : exec .runRsv s = .next (takeFault (.reservedRunGroup (s.cursor + 6))
      { beginRun s with cursor := s.cursor + 6, ones := 6 }) := if_pos hx
  refine ⟨_, s.draws + 1, hexec, ?_, fun x y => takeFault_framebuffer rfl _ x y, fun hones => ?_⟩
  · simp [takeFault, losesFramebuffer, forgetFramebuffer, beginRun, hf]
  · rw [step_token hb hctx (decode_of_six_ones hones), hexec]

end Sys2Proof.Machine

/-! SUPPORT. The header parser (42_header_parser): the meanings of DIMS, MASK and PAD where they are due, the mask
read against the bounded read of R124, and the operations that end with the header. -/

namespace Sys2Proof.Machine

/-! ## The meanings of the header's tokens (R156, R158 to R161) -/

theorem expectsMask_iff {s : State} :
    expectsMask s = true ↔ s.busy = true ∧ s.phase = .header ∧ s.firstFrame = false := by
  simp [expectsMask, and_assoc]

/-- A zero mask completes the operation (R160). -/
theorem execMask_zero {s : State} (hx : expectsMask s = true) :
    execMask 0 s = .next (finish true { s with mask := 0, cursor := s.cursor + 64 }) := by
  rw [execMask, if_pos hx]
  rfl

/-- Another mask goes on to the colour (R161). -/
theorem execMask_nonzero {s : State} {m : MaskWord} (hx : expectsMask s = true) (hm : m ≠ 0) :
    execMask m s =
      .next { s with mask := m, cursor := s.cursor + 64, phase := .color, gotColor := false } := by
  rw [execMask, if_pos hx]
  exact if_neg hm

/-- The tail completes the operation at the end of the stream (R159). -/
theorem execPad_eq {s : State} (n : Nat) (hx : expectsMask s = true) :
    execPad n s = .next (finish false s) :=
  if_pos hx

/-- Settles O19: the bytes pass both checks of R216, and what is left of RESET is its completion. -/
theorem dimsTokenCompletes : Obligations.DimsTokenCompletes := by
  intro s w h hb hp hw hh hfitw hfith
  exact execDims_legal (expectsDims_iff.2 ⟨hb, hp⟩) hw hh hfitw hfith

/-- Settles O21: each token is expected, and its meaning's own cases are the statement's. -/
theorem headerTokensComplete : Obligations.HeaderTokensComplete := by
  intro s hb hp hf
  have hx : expectsMask s = true := expectsMask_iff.2 ⟨hb, hp, hf⟩
  exact ⟨execMask_zero hx, fun _ => execMask_nonzero hx, fun n => execPad_eq n hx⟩

/-! ## The bounded read and the mask's window (R95, R124) -/

theorem rdBitsBounded_short {s : State} (h : remaining s < 64) : rdBitsBounded s = (none, s) :=
  if_pos h

/-- The number the 64 bits at the cursor hold (R95). -/
def maskAtCursor (s : State) : MaskWord :=
  BitVec.ofNat 64 (bitsToNat (streamBits s s.cursor 64))

theorem rdBitsBounded_inside {s : State} (h : 64 ≤ remaining s) :
    rdBitsBounded s = (some (maskAtCursor s), { s with cursor := s.cursor + 64 }) := by
  have hin : s.cursor + 64 ≤ 8 * s.romLen := by unfold remaining at h; omega
  rw [rdBitsBounded, show Config.maskBits = 64 from rfl, if_neg (Nat.not_lt.2 h), rdBits_inside 0 hin]
  rfl

theorem maskWindow_length (s : State) : (tokenWindow .mask s).length = min 64 (remaining s) :=
  streamBits_length s s.cursor 64

/-- Where the bounded read fails the decoder sees the tail (R103, R159). -/
theorem decode_mask_short {s : State} (h : remaining s < 64) :
    decode .mask (tokenWindow .mask s) = .ok (.pad (tokenWindow .mask s).length) [] :=
  decodeMask_short (by rw [maskWindow_length]; omega)

/-- Where the bounded read succeeds the decoder sees the mask it answers (R158). -/
theorem decode_mask_inside {s : State} (h : 64 ≤ remaining s) :
    decode .mask (tokenWindow .mask s) = .ok (.mask (maskAtCursor s)) [] := by
  have hlen : (streamBits s s.cursor 64).length = 64 := by
    rw [streamBits_length]
    exact Nat.min_eq_left h
  rw [decode, tokenWindow, decodeMask, if_neg (by rw [hlen]; decide), List.take_of_length_le hlen.le,
    List.drop_of_length_le hlen.le]
  rfl

/-! ## The header step (R157 to R161) -/

/-- The header step of the first frame reads no token (R157). -/
theorem busyStep_firstHeader {s : State} (hp : s.phase = .header) (hf : s.firstFrame = true) :
    busyStep s = .next (loadFullMask s) := by
  have hctx : tokenContext s = none := by simp [tokenContext, hp, hf]
  simp only [busyStep, fetchToken, hctx]
  exact if_pos hp

/-- The header step of a later frame runs the token that is decoded where the mask is due (R92). -/
theorem busyStep_maskToken {s : State} {i : Instr} {rest : List Bool} (hx : expectsMask s = true)
    (hd : decode .mask (tokenWindow .mask s) = .ok i rest) : busyStep s = exec i s := by
  obtain ⟨hb, hp, hf⟩ := expectsMask_iff.1 hx
  rw [← step_busy hb]
  exact step_token hb (by simp [tokenContext, hp, hf]) hd

theorem busyStep_mask_short {s : State} (hx : expectsMask s = true) (h : remaining s < 64) :
    busyStep s = .next (finish false s) :=
  (busyStep_maskToken hx (decode_mask_short h)).trans (execPad_eq (tokenWindow .mask s).length hx)

theorem busyStep_mask_inside {s : State} (hx : expectsMask s = true) (h : 64 ≤ remaining s) :
    busyStep s = execMask (maskAtCursor s) s :=
  busyStep_maskToken hx (decode_mask_inside h)

/-- Settles O22: the window is too short for a mask exactly when the bounded read fails, and else holds the
number that read answers. -/
theorem headerStepFollowsBoundedRead : Obligations.HeaderStepFollowsBoundedRead := by
  intro s hb hp hf
  have hx : expectsMask s = true := expectsMask_iff.2 ⟨hb, hp, hf⟩
  change _ = (if remaining s < 64 then _ else _) ∧ (_ ↔ remaining s < 64) ∧ _
  rw [step_busy hb]
  by_cases h : remaining s < 64
  · rw [rdBitsBounded_short h]
    exact ⟨(if_pos h).symm, iff_of_true rfl h, _, busyStep_mask_short hx h, rfl, rfl, rfl, rfl⟩
  · rw [rdBitsBounded_inside (not_lt.1 h), busyStep_mask_inside hx (not_lt.1 h)]
    refine ⟨(if_neg h).symm, iff_of_false (Option.some_ne_none _) h, ?_⟩
    by_cases hm : maskAtCursor s = 0
    · rw [hm]
      exact ⟨_, execMask_zero hx, rfl, rfl, fun _ => ⟨rfl, rfl⟩, fun h0 => absurd rfl h0⟩
    · exact ⟨_, execMask_nonzero hx hm, rfl, rfl, fun h0 => absurd h0 hm, fun _ => ⟨hb, rfl⟩⟩

/-! ## Operations that end with the header (R159, R160) -/

theorem execDecodeNextFrame_of_ready {s : State} (h : ReadyToDecode s) :
    execDecodeNextFrame s = runOperation (operationSteps s) (beginFrame s) := by
  obtain ⟨hb, hr, hf, hs⟩ := h
  simp [execDecodeNextFrame, hb, hr, hf, hs]

theorem runOperation_ended (n : Nat) {s : State} (hb : s.busy = false) : runOperation n s = .next s := by
  cases n with
  | zero => rfl
  | succ n => exact if_neg (by simp [hb])

theorem runOperation_succ (n : Nat) {s t : State} (hb : s.busy = true) (e : busyStep s = .next t) :
    runOperation (n + 1) s = runOperation n t := by
  rw [runOperation, if_pos hb, e]

/-- An operation whose header step ends it is that one step. -/
theorem exec_decodeNextFrame_of_ended {s t : State} (h : ReadyToDecode s)
    (e : busyStep (beginFrame s) = .next t) (ht : t.busy = false) : exec .decodeNextFrame s = .next t := by
  change execDecodeNextFrame s = _
  rw [execDecodeNextFrame_of_ready h, operationSteps, runOperation_succ _ rfl e, runOperation_ended _ ht]

/-- At the end of the stream the operation is the failing header step (R159, R270). -/
theorem exec_decodeNextFrame_endOfStream {s : State} (h : ReadyToDecode s) (hf : s.firstFrame = false)
    (hend : remaining s < 64) : exec .decodeNextFrame s = .next (finish false (beginFrame s)) :=
  exec_decodeNextFrame_of_ended h (busyStep_mask_short (expectsMask_iff.2 ⟨rfl, rfl, hf⟩) hend) rfl

/-- Settles O33: the state left is ready again and at the same end of the stream. -/
theorem endOfStreamChangesNothing : Obligations.EndOfStreamChangesNothing := by
  intro s h hf hend
  obtain ⟨hb, hr, hfault, hseen⟩ := h
  refine ⟨finish false (beginFrame s),
    exec_decodeNextFrame_endOfStream ⟨hb, hr, hfault, hseen⟩ hf hend, ?_, ?_⟩
  · rw [finish, beginFrame, hb]
  · exact exec_decodeNextFrame_endOfStream (s := finish false (beginFrame s)) ⟨rfl, hr, hfault, hseen⟩ hf hend

/-- Settles O34: 64 bits are left, and the number they hold is 0. -/
theorem zeroMaskLeavesFrameUnchanged : Obligations.ZeroMaskLeavesFrameUnchanged := by
  intro s h hf hzero
  have hleft : 64 ≤ remaining s := by
    have hlen := congrArg List.length hzero
    rw [streamBits_length, List.length_replicate] at hlen
    unfold remaining
    omega
  have hbits : streamBits (beginFrame s) s.cursor 64 = List.replicate 64 false :=
    (streamBits_congr rfl rfl _ _).trans hzero
  have hmask : maskAtCursor (beginFrame s) = 0 := by
    rw [maskAtCursor, beginFrame_cursor, hbits]
    decide
  have hx : expectsMask (beginFrame s) = true := expectsMask_iff.2 ⟨rfl, rfl, hf⟩
  have hstep := busyStep_mask_inside hx hleft
  rw [hmask, execMask_zero hx] at hstep
  refine ⟨_, exec_decodeNextFrame_of_ended h hstep rfl, ?_⟩
  rw [finish, beginFrame, h.1]

end Sys2Proof.Machine

/-! SUPPORT. A DECODE_NEXT_FRAME ends within the steps the model gives it (R304): every step brings the operation
nearer to its end. With it, the first frame (R157): its mask, its flag and its result. -/

namespace Sys2Proof.Machine

/-! ## The positions the scan has left (R173) -/

/-- The scan's positions from its own on, skipped ones included, with `c` more for every column to leave. -/
def scanLeft (c : Nat) (s : State) : Nat := (s.w - s.x) * (s.h + c) - min s.y s.h

theorem scanLeft_column {c : Nat} {s : State} (hx : s.x < s.w) :
    scanLeft c s = (s.w - (s.x + 1)) * (s.h + c) + (s.h + c) - min s.y s.h := by
  rw [scanLeft, show s.w - s.x = s.w - (s.x + 1) + 1 by omega, Nat.succ_mul]

theorem scanLeft_nextColumn {c : Nat} {s : State} (hx : s.x < s.w) (hy : s.h ≤ s.y) :
    scanLeft c { s with x := s.x + 1, y := 0 } + c = scanLeft c s := by
  rw [scanLeft_column hx, Nat.min_eq_right hy]
  simp only [scanLeft, Nat.zero_min]
  omega

theorem scanLeft_lower {c n : Nat} {s : State} (hx : s.x < s.w) (hy : s.y < s.h) (hn : 0 < n) :
    scanLeft c { s with y := s.y + n } < scanLeft c s := by
  rw [scanLeft_column hx, scanLeft_column (s := { s with y := s.y + n }) hx]
  dsimp only
  omega

theorem scanLeft_paintPixel {c : Nat} {s : State} (hx : s.x < s.w) (hy : s.y < s.h) :
    scanLeft c (paintPixel s) < scanLeft c s :=
  scanLeft_lower (n := 1) hx hy Nat.one_pos

/-- Chunks are at least one pixel high where a row exists (R8). -/
theorem scanLeft_skipBand {c : Nat} {s : State} (hg : geometryOk s = true) (hx : s.x < s.w)
    (hy : s.y < s.h) : scanLeft c { s with y := s.y + s.ch } < scanLeft c s := by
  obtain ⟨-, -, -, hch⟩ := geometryOk_iff.1 hg
  refine scanLeft_lower hx hy ?_
  rw [hch, ceilDiv8]
  omega

theorem paintPixel_geometryOk (s : State) : geometryOk (paintPixel s) = geometryOk s :=
  geometryOk_congr rfl rfl rfl rfl rfl rfl

theorem loadRun_geometryOk (g v : Nat) (s : State) : geometryOk (loadRun g v s) = geometryOk s :=
  geometryOk_congr rfl rfl rfl rfl rfl rfl

/-- No turn of the scan goes back. -/
theorem scan_scanLeft_le {s : State} (hg : geometryOk s = true) (n : Nat) :
    scanLeft 0 (scan n s) ≤ scanLeft 0 s := by
  refine (scan_induction (P := fun t => geometryOk t = true ∧ scanLeft 0 t ≤ scanLeft 0 s)
    ?next ?skip ?paint ?done n s ⟨hg, le_rfl⟩).2
  case next => exact fun t ht hx hy => ⟨ht.1, (scanLeft_nextColumn (c := 0) hx hy).le.trans ht.2⟩
  case skip => exact fun t ht hx hy _ => ⟨ht.1, (scanLeft_skipBand ht.1 hx hy).le.trans ht.2⟩
  case paint => exact fun t ht hx hy _ _ => ⟨ht.1, (scanLeft_paintPixel hx hy).le.trans ht.2⟩
  case done => exact fun t ht _ => ht

theorem runScan_scanLeft_le {s : State} (hg : geometryOk s = true) :
    scanLeft 0 (runScan s) ≤ scanLeft 0 s :=
  scan_scanLeft_le hg _

/-! ## Where the scan stops (R173, R178) -/

theorem needsRun_iff {s : State} : needsRun s = true ↔
    s.phase = .scan ∧ s.x < s.w ∧ s.y < s.h ∧ bandSkipped s = false ∧ s.run = 0 := by
  simp [needsRun, and_assoc]

/-- With turns enough the scan ends in phase SAMPLE or where a RUN token is due. -/
theorem scan_stops {n : Nat} {s : State} (hg : geometryOk s = true) (hp : s.phase = .scan)
    (hn : scanLeft 1 s < n) : (scan n s).phase = .sample ∨ needsRun (scan n s) = true := by
  induction n generalizing s with
  | zero => omega
  | succ n ih =>
    have nearer : ∀ t : State, geometryOk t = true → t.phase = .scan → scanLeft 1 t < scanLeft 1 s →
        (scan n t).phase = .sample ∨ needsRun (scan n t) = true :=
      fun t hgt hpt hlt => ih hgt hpt (by omega)
    unfold scan
    split
    next => exact .inl rfl
    next hx =>
      rw [not_le] at hx
      split
      next hy => exact nearer _ hg hp (Nat.lt_of_succ_le (scanLeft_nextColumn (c := 1) hx hy).le)
      next hy =>
        rw [not_le] at hy
        split
        next => exact nearer _ hg hp (scanLeft_skipBand hg hx hy)
        next hb =>
          split
          next hr => exact .inr (needsRun_iff.2 ⟨hp, hx, hy, Bool.eq_false_iff.2 hb, hr⟩)
          next => exact nearer _ hg hp (scanLeft_paintPixel hx hy)

theorem runScan_stops {s : State} (hg : geometryOk s = true) (hp : s.phase = .scan) :
    (runScan s).phase = .sample ∨ needsRun (runScan s) = true :=
  scan_stops hg hp (Nat.lt_succ_of_le (Nat.sub_le _ _))

/-- A run that is due paints at least the pixel it is due for. -/
theorem scanLeft_runScan_loadRun_lt {g v : Nat} {s : State} (hg : geometryOk s = true)
    (hn : needsRun s = true) : scanLeft 0 (runScan (loadRun g v s)) < scanLeft 0 s := by
  obtain ⟨hp, hx, hy, hb, -⟩ := needsRun_iff.1 hn
  have hx' : (loadRun g v s).x = s.x := if_pos hp
  have hy' : (loadRun g v s).y = s.y := if_pos hp
  have hb' : ¬ bandSkipped (loadRun g v s) = true := by
    rw [bandSkipped, changed, chunkOf, hx', hy']
    exact Bool.eq_false_iff.1 hb
  have hpaint : runScan (loadRun g v s) =
      scan ((s.w - (loadRun g v s).x) * (s.h + 1)) (paintPixel (loadRun g v s)) := by
    have hrun : (loadRun g v s).run ≠ 0 := Nat.succ_ne_zero _
    rw [runScan, scanTurns, scan, if_neg (by rw [hx']; exact not_le.2 hx),
      if_neg (by rw [hy']; exact not_le.2 hy), if_neg hb', if_neg hrun, loadRun_w, loadRun_h]
  have hle : scanLeft 0 (runScan (loadRun g v s)) ≤ scanLeft 0 (paintPixel (loadRun g v s)) := by
    rw [hpaint]
    exact scan_scanLeft_le (by rw [paintPixel_geometryOk, loadRun_geometryOk, hg]) _
  have hlt : scanLeft 0 (paintPixel (loadRun g v s)) < scanLeft 0 (loadRun g v s) :=
    scanLeft_paintPixel (hx'.symm ▸ hx) (hy'.symm ▸ hy)
  have heq : scanLeft 0 (loadRun g v s) = scanLeft 0 s := by
    rw [scanLeft, hx', hy', loadRun_w, loadRun_h, scanLeft]
  rw [heq] at hlt
  exact hle.trans_lt hlt

/-! ## The steps an operation has left (R221, R304) -/

/-- A bound on the steps to the end of the operation: one for each position a later run can be due at, and one for
each of the operation's other steps; a scan that stands where no run is due takes a step of its own. -/
def stepsLeft (s : State) : Nat :=
  match s.phase with
  | .idle => 0
  | .fillR => 1
  | .fillL => 2
  | .sample => 3
  | .scan => scanLeft 0 s + if needsRun s then 3 else 4
  | .color => s.w * s.h + if s.gotColor then 4 else 5
  | .header => s.w * s.h + 6

theorem stepsLeft_idle {s : State} (hp : s.phase = .idle) : stepsLeft s = 0 := by
  rw [stepsLeft, hp]

theorem stepsLeft_scan_le {s : State} (hp : s.phase = .scan) : scanLeft 0 s + 3 ≤ stepsLeft s := by
  simp only [stepsLeft, hp]
  split <;> omega

theorem stepsLeft_pos {s : State} (hp : s.phase ≠ .idle) : 0 < stepsLeft s := by
  cases h : s.phase with
  | idle => exact absurd h hp
  | fillR | fillL | sample | header => simp [stepsLeft, h]
  | scan => exact (Nat.succ_pos _).trans_le (stepsLeft_scan_le h)
  | color =>
    simp only [stepsLeft, h]
    split <;> omega

/-- The scan leaves the border step, or a run that is due at one of its positions. -/
theorem stepsLeft_runScan_le {s : State} (hg : geometryOk s = true) (hp : s.phase = .scan) :
    stepsLeft (runScan s) ≤ scanLeft 0 (runScan s) + 3 := by
  obtain h | h := runScan_stops hg hp
  · simp [stepsLeft, h]
  · simp [stepsLeft, h, (needsRun_iff.1 h).1]

theorem stepsLeft_afterLeft_le (s : State) : stepsLeft (afterLeft s) ≤ 1 := by
  obtain h | h := afterLeft_phase s <;> simp [stepsLeft, h]

theorem stepsLeft_sampleEdges_le (s : State) : stepsLeft (sampleEdges s) ≤ 2 := by
  obtain h | h | h := sampleEdges_phase s <;> simp [stepsLeft, h]

/-- A RUN token leaves fewer steps: the first one starts the scan, and a later one paints a pixel. -/
theorem execRunGroup_stepsLeft_lt {g v : Nat} {s t : State} (e : execRunGroup g v s = .next t) :
    stepsLeft t < stepsLeft s := by
  obtain ⟨hx, hg, rfl⟩ := execRunGroup_next e
  have hgr : geometryOk (loadRun g v s) = true := (loadRun_geometryOk g v s).trans hg
  have hle := stepsLeft_runScan_le hgr rfl
  simp only [expectsRun, Bool.and_eq_true, Bool.or_eq_true] at hx
  obtain hfirst | hlater := hx.2
  · simp only [firstRunDue, Bool.and_eq_true, beq_iff_eq] at hfirst
    obtain ⟨hp, hgot⟩ := hfirst
    have hstart : scanLeft 0 (loadRun g v s) ≤ s.w * s.h := by
      rw [scanLeft, loadRun_x, hp]
      exact Nat.sub_le _ _
    have hscan := runScan_scanLeft_le hgr
    have hs : stepsLeft s = s.w * s.h + 4 := by simp [stepsLeft, hp, hgot]
    omega
  · have hlt := scanLeft_runScan_loadRun_lt (g := g) (v := v) hg hlater
    have hs := stepsLeft_scan_le (needsRun_iff.1 hlater).1
    omega

theorem execToken_stepsLeft_lt {i : Instr} {s t : State} (hi : s.phase ≠ .idle)
    (e : execToken i s = .next t) : stepsLeft t < stepsLeft s := by
  have ended : t.phase = .idle → stepsLeft t < stepsLeft s :=
    fun h => stepsLeft_idle h ▸ stepsLeft_pos hi
  obtain ⟨w, h, rfl, e⟩ | ⟨m, rfl, e⟩ | ⟨n, rfl, e⟩ | ⟨c, rfl, e⟩ | ⟨g, v, -, e⟩ | ⟨rfl, e⟩ :=
    execToken_next e
  · exact absurd (expectsDims_iff.1 (execDims_next e).1).2 hi
  · obtain ⟨hx, ⟨-, rfl⟩ | ⟨-, rfl⟩⟩ := execMask_next e
    · exact ended rfl
    · rw [stepsLeft, stepsLeft, phase_of_expectsMask hx]
      simp
  · obtain ⟨-, rfl⟩ := execPad_next (n := n) e
    exact ended rfl
  · obtain ⟨hx, rfl⟩ := execColor_next e
    obtain ⟨-, hp, hgot⟩ := expectsColor_iff.1 hx
    simp [stepsLeft, hp, hgot]
  · exact execRunGroup_stepsLeft_lt e
  · obtain ⟨-, rfl⟩ := execRunRsv_next e
    exact ended (by simp)

theorem overrunIn_phase {c : Context} (hc : c ≠ .ctrl) (consumed ones : Nat) (s : State) :
    (overrunIn c consumed ones s).phase = .idle := by
  cases c with
  | ctrl => exact absurd rfl hc
  | dims | mask | color | run => simp [overrunIn]

theorem internalStep_stepsLeft_lt {s t : State} (hc : tokenContext s = none)
    (e : internalStep s = .next t) : stepsLeft t < stepsLeft s := by
  obtain ⟨hp, rfl⟩ | ⟨hg, ⟨hp, rfl⟩ | ⟨hp, rfl⟩ | ⟨hp, rfl⟩ | ⟨hp, rfl⟩⟩ := internalStep_next e
  · rw [stepsLeft, stepsLeft, hp]
    simp only [loadFullMask_phase, loadFullMask_w, loadFullMask_h]
    split <;> omega
  · have hdue : ¬ needsRun s = true := fun h => by simp [tokenContext, hp, h] at hc
    have hle := stepsLeft_runScan_le hg hp
    have hscan := runScan_scanLeft_le hg
    have hs : stepsLeft s = scanLeft 0 s + 4 := by simp [stepsLeft, hp, hdue]
    omega
  · have hs : stepsLeft s = 3 := by rw [stepsLeft, hp]
    have := stepsLeft_sampleEdges_le s
    omega
  · have hs : stepsLeft s = 2 := by rw [stepsLeft, hp]
    exact hs ▸ Nat.lt_succ_of_le (stepsLeft_afterLeft_le _)
  · rw [stepsLeft_idle (s := fillRight s) rfl]
    exact stepsLeft_pos (by simp [hp])

/-- Every step of a DECODE_NEXT_FRAME brings it nearer to its end. -/
theorem busyStep_stepsLeft_lt {s t : State} (hi : s.phase ≠ .idle) (e : busyStep s = .next t) :
    stepsLeft t < stepsLeft s := by
  obtain ⟨i, c, rest, -, -, e⟩ | ⟨c, consumed, ones, hc, -, rfl⟩ | ⟨hc, e⟩ := busyStep_next e
  · exact execToken_stepsLeft_lt hi e
  · rw [stepsLeft_idle (overrunIn_phase (fun h => tokenContext_ne_ctrl (h ▸ hc)) _ _ _)]
    exact stepsLeft_pos hi
  · exact internalStep_stepsLeft_lt hc e

/-- With steps enough an operation that answers a next state has ended in it. -/
theorem runOperation_ends {n : Nat} {s t : State} (hi : s.busy = true → s.phase ≠ .idle)
    (hn : stepsLeft s ≤ n) (e : runOperation n s = .next t) : t.busy = false := by
  induction n generalizing s with
  | zero =>
    cases e
    exact Bool.eq_false_iff.2 fun hb => absurd (stepsLeft_pos (hi hb)) (Nat.not_lt.2 hn)
  | succ n ih =>
    unfold runOperation at e
    split at e
    next hb =>
      split at e
      next u hu =>
        have hlt := busyStep_stepsLeft_lt (hi hb) hu
        refine ih ?_ (by omega) e
        obtain ⟨hbusy, -⟩ | ⟨-, -, hp⟩ := busyNext_endsOrGoesOn (busyStep_busyNext hu)
        · exact fun h => absurd h (Bool.eq_false_iff.1 hbusy)
        · exact fun _ => hp
      all_goals cases e
    next hb =>
      cases e
      exact Bool.eq_false_iff.2 hb

theorem execDecodeNextFrame_ends {s t : State} (e : execDecodeNextFrame s = .next t) : t.busy = false := by
  obtain ⟨-, -, -, -, e⟩ := execDecodeNextFrame_next e
  refine runOperation_ends (fun _ => Phase.noConfusion) ?_ e
  exact Nat.add_le_add_left (by decide : 6 ≤ 8) (s.w * s.h)

/-! ## Flag and result of an operation (R23, R220) -/

/-- Only RESET sets `FIRST_FRAME` (R23). -/
theorem busyNext_firstFrame {s t : State} (hi : s.phase ≠ .idle) (hf : s.firstFrame = false)
    (hn : BusyNext s t) : t.firstFrame = false := by
  cases hn with
  | dimsFault f w h hx | dims w h hx => exact absurd (expectsDims_iff.1 hx).2 hi
  | endOfRom | runFault | run | scan => simp [hf]
  | sample => exact (sampleEdges_borderFrame s).firstFrame.trans hf
  | fillL => exact (fillLeft_borderFrame s).firstFrame.trans hf
  | fullMask => rfl
  | zeroMask | mask | pad | color | fillR => exact hf

theorem afterLeft_busy_or_ok (s : State) :
    (afterLeft s).busy = s.busy ∨ (afterLeft s).ok = true := by
  unfold afterLeft
  split
  · exact .inl rfl
  · exact .inr rfl

theorem sampleEdges_busy_or_ok (s : State) :
    (sampleEdges s).busy = s.busy ∨ (sampleEdges s).ok = true := by
  unfold sampleEdges
  dsimp only
  split
  · exact .inl rfl
  · exact afterLeft_busy_or_ok _

/-- Past the header an operation ends with `OK` = 1 or a fault (R220). -/
theorem busyNext_busy_or_ok {s t : State} (hi : s.phase ≠ .idle) (hh : s.phase ≠ .header)
    (hn : BusyNext s t) : t.busy = s.busy ∨ t.ok = true ∨ t.faultRec ≠ none := by
  cases hn with
  | dimsFault f w h hx | dims w h hx => exact absurd (expectsDims_iff.1 hx).2 hi
  | fullMask hp => exact absurd hp hh
  | zeroMask hx | mask m hx | pad hx => exact absurd (phase_of_expectsMask hx) hh
  | endOfRom | runFault => exact .inr (.inr (by simp))
  | color => exact .inl rfl
  | run | scan => exact .inl (by simp)
  | sample => exact (sampleEdges_busy_or_ok s).imp_right .inl
  | fillL => exact (afterLeft_busy_or_ok _).imp_right .inl
  | fillR => exact .inr (.inl rfl)

/-! ## The first frame (R157) -/

/-- What the steps of the first frame keep once the implicit mask is loaded. -/
structure FullMaskInv (s : State) : Prop where
  mask : s.mask = BitVec.allOnes 64
  firstFrame : s.firstFrame = false
  header : s.phase ≠ .header
  busy : s.busy = true → s.phase ≠ .idle
  result : s.busy = false → s.faultRec = none → s.ok = true

theorem loadFullMask_fullMaskInv {s : State} (hb : s.busy = true) : FullMaskInv (loadFullMask s) where
  mask := rfl
  firstFrame := rfl
  header := Phase.noConfusion
  busy _ := Phase.noConfusion
  result h := absurd hb (Bool.eq_false_iff.1 h)

theorem busyNext_fullMaskInv {s t : State} (hb : s.busy = true) (h : FullMaskInv s) (hn : BusyNext s t) :
    FullMaskInv t := by
  have hi := h.busy hb
  obtain ⟨hmask, hheader⟩ := busyNext_mask hi h.header hn
  refine ⟨hmask.trans h.mask, busyNext_firstFrame hi h.firstFrame hn, hheader, ?_, fun hbt hft => ?_⟩
  · obtain ⟨hbusy, -⟩ | ⟨-, -, hp⟩ := busyNext_endsOrGoesOn hn
    · exact fun hbt => absurd hbt (Bool.eq_false_iff.1 hbusy)
    · exact fun _ => hp
  · obtain hbusy | hok | hfault := busyNext_busy_or_ok hi h.header hn
    · exact absurd (hbusy.trans hb) (Bool.eq_false_iff.1 hbt)
    · exact hok
    · exact absurd hft hfault

theorem execDecodeNextFrame_fullMaskInv {s t : State} (hf : s.firstFrame = true)
    (e : execDecodeNextFrame s = .next t) : FullMaskInv t := by
  obtain ⟨-, -, -, -, e⟩ := execDecodeNextFrame_next e
  rw [operationSteps, runOperation_succ _ rfl (busyStep_firstHeader (s := beginFrame s) rfl hf)] at e
  exact runOperation_keeps (fun _ _ => busyNext_fullMaskInv) _ (loadFullMask_fullMaskInv rfl) e

/-- Settles O35: the header step of the first frame loads mask and flag, no later step writes them, and the
operation ends past the header. -/
theorem firstFrameUsesFullMask : Obligations.FirstFrameUsesFullMask := by
  refine ⟨fun s hb hp hf => (step_busy hb).trans (busyStep_firstHeader hp hf), fun s t hf e => ?_⟩
  have h := execDecodeNextFrame_fullMaskInv hf e
  exact ⟨h.mask, h.firstFrame, fun _ => h.result (execDecodeNextFrame_ends e)⟩

end Sys2Proof.Machine

/-! SUPPORT. The expander (43_rle_expander): COLOR, the bands every step keeps, the scan as the painting of the
decoded pixels that are due, and the frame of a RUN token. -/

namespace Sys2Proof.Machine

/-! ## The bands of every step (R175) -/

/-- Settles O58: both operations start outside phase SCAN, and no move of the host touches the scan. -/
theorem stepKeepsBands : Obligations.StepKeepsBands := by
  intro s t hs e
  refine step_keeps (P := BandInv) ?_ ?_ ?_ ?_ ?_ ?_ hs e
  · exact fun _ _ _ => busyNext_bandInv
  · exact fun _ _ => bandInv_of_phase Phase.noConfusion
  · exact fun _ _ => bandInv_of_phase Phase.noConfusion
  · exact fun _ _ h => h
  · exact fun _ _ _ _ h => h
  · exact fun _ _ _ h => h

/-! ## The starting colour (R171, R264) -/

theorem exec_color {s : State} (hx : expectsColor s = true) (c : Bool) :
    exec (.color c) s = .next { s with color := c, cursor := s.cursor + 1, gotColor := true } :=
  if_pos hx

theorem tokenContext_of_expectsColor {s : State} (hx : expectsColor s = true) :
    tokenContext s = some .color := by
  obtain ⟨-, hp, hgot⟩ := expectsColor_iff.1 hx
  simp [tokenContext, hp, hgot]

/-- Where the colour is due the bit at the cursor is decoded as COLOR. -/
theorem decode_color {s : State} {c : Bool} (hc : romBit s s.cursor = some c) :
    decode .color (tokenWindow .color s) = .ok (.color c) [] := by
  rw [tokenWindow, streamBits_succ hc]
  rfl

/-- Where the colour is due and the ROM has ended, the fetch takes the overrun. -/
theorem busyStep_color_overrun {s : State} (hx : expectsColor s = true) (hend : romBit s s.cursor = none) :
    busyStep s = .next (takeFault (.streamOverrun s.cursor) s) := by
  have hwin : tokenWindow .color s = [] := by rw [tokenWindow, streamBits, hend]
  simp only [busyStep, fetchToken, tokenContext_of_expectsColor hx, hwin]
  rfl

/-- Settles O24: the window of a colour is the one bit at the cursor. -/
theorem colorTokenReadsOneBit : Obligations.ColorTokenReadsOneBit := by
  intro s hb hp hgot
  have hx : expectsColor s = true := expectsColor_iff.2 ⟨hb, hp, hgot⟩
  refine ⟨exec_color hx, fun c hc => ?_, fun hend hnone => ?_⟩
  · exact step_token hb (tokenContext_of_expectsColor hx) (decode_color hc)
  · exact ⟨_, (step_busy hb).trans (busyStep_color_overrun hx hend), by simp [hnone], by simp, by simp⟩

/-! ## The pixels that are due (R174, R176)

Lists of pixels in scan order are equal when they have the same members, so that `duePixels` is followed through
the turns of the scan by membership alone. -/

/-- `p` comes before `q` in the scan (R174). -/
abbrev ScanBefore : Nat × Nat → Nat × Nat → Prop := Prod.Lex (· < ·) (· < ·)

theorem scanOrder_pairwise (w h : Nat) : (scanOrder w h).Pairwise ScanBefore := by
  refine List.pairwise_flatMap.2 ⟨fun x _ => ?_, List.pairwise_lt_range.imp fun hlt p hp q hq => ?_⟩
  · exact List.pairwise_map.2 (List.pairwise_lt_range.imp fun hlt => .right x hlt)
  · obtain ⟨_, -, rfl⟩ := List.mem_map.1 hp
    obtain ⟨_, -, rfl⟩ := List.mem_map.1 hq
    exact .left _ _ hlt

theorem duePixels_pairwise (s : State) : (duePixels s).Pairwise ScanBefore :=
  ((scanOrder_pairwise s.w s.h).filter _).filter _

theorem mem_decodedPixels {s : State} {p : Nat × Nat} :
    p ∈ decodedPixels s ↔ (p.1 < s.w ∧ p.2 < s.h) ∧ changed s p.1 p.2 = true := by
  simp [decodedPixels, mem_scanOrder]

theorem mem_duePixels {s : State} {p : Nat × Nat} : p ∈ duePixels s ↔
    ((p.1 < s.w ∧ p.2 < s.h) ∧ changed s p.1 p.2 = true) ∧ (s.x < p.1 ∨ p.1 = s.x ∧ s.y ≤ p.2) := by
  simp [duePixels, mem_decodedPixels]

theorem duePixels_end {s : State} (hx : s.w ≤ s.x) : duePixels s = [] := by
  refine List.eq_nil_iff_forall_not_mem.2 fun p hp => ?_
  obtain ⟨⟨⟨hpx, -⟩, -⟩, hafter⟩ := mem_duePixels.1 hp
  omega

/-- A column that is done leaves none of its pixels due. -/
theorem duePixels_nextColumn {s : State} (hy : s.h ≤ s.y) :
    duePixels { s with x := s.x + 1, y := 0 } = duePixels s := by
  refine (duePixels_pairwise _).eq_of_mem_iff (duePixels_pairwise s) fun p => ?_
  rw [mem_duePixels, mem_duePixels]
  refine and_congr_right fun ⟨⟨_, hpy⟩, _⟩ => ?_
  dsimp only at hpy ⊢
  omega

/-- The rows of a band lie in one chunk (R14, R175). -/
theorem changed_in_band {s : State} {y : Nat} (hband : s.y % s.ch = 0) (hlo : s.y ≤ y)
    (hhi : y < s.y + s.ch) : changed s s.x y = changed s s.x s.y := by
  obtain ⟨k, hk⟩ := Nat.dvd_of_mod_eq_zero hband
  have hdiv : y / s.ch = k := Nat.div_eq_of_lt_le (by rw [Nat.mul_comm, ← hk]; exact hlo)
    (by rw [Nat.succ_mul, Nat.mul_comm, ← hk]; exact hhi)
  rw [changed, changed, chunkOf, chunkOf, hdiv, hk, Nat.mul_div_cancel_left k (by omega)]

/-- A skipped band holds no pixel of the decoded sequence (R175, R176). -/
theorem duePixels_skipBand {s : State} (hb : bandSkipped s = true) :
    duePixels { s with y := s.y + s.ch } = duePixels s := by
  simp only [bandSkipped, Bool.and_eq_true, decide_eq_true_eq, Bool.not_eq_true'] at hb
  obtain ⟨hband, hunchanged⟩ := hb
  refine (duePixels_pairwise _).eq_of_mem_iff (duePixels_pairwise s) fun p => ?_
  rw [mem_duePixels, mem_duePixels]
  refine and_congr_right fun ⟨_, hp⟩ => ?_
  change changed s p.1 p.2 = true at hp
  have hout : p.1 = s.x → s.y ≤ p.2 → s.y + s.ch ≤ p.2 := by
    intro hpx hlo
    by_contra hhi
    rw [hpx, changed_in_band hband hlo (not_le.1 hhi), hunchanged] at hp
    cases hp
  dsimp only
  omega

/-- The pixel that is painted is the first one due (R178, R180). -/
theorem duePixels_paintPixel {s : State} (hx : s.x < s.w) (hy : s.y < s.h)
    (hc : changed s s.x s.y = true) : duePixels s = (s.x, s.y) :: duePixels (paintPixel s) := by
  refine (duePixels_pairwise s).eq_of_mem_iff
    (List.pairwise_cons.2 ⟨fun q hq => ?_, duePixels_pairwise _⟩) fun p => ?_
  · obtain ⟨-, hafter⟩ := mem_duePixels.1 hq
    exact Prod.lex_def.2 (hafter.imp_right fun ⟨hqx, hqy⟩ => ⟨hqx.symm, hqy⟩)
  · rw [List.mem_cons, mem_duePixels, mem_duePixels]
    have hpaint : changed (paintPixel s) p.1 p.2 = changed s p.1 p.2 := rfl
    rw [hpaint, paintPixel_w, paintPixel_h, paintPixel_x, paintPixel_y, Prod.ext_iff]
    constructor
    · rintro ⟨hin, hafter⟩
      by_cases hp : p.1 = s.x ∧ p.2 = s.y
      · exact .inl hp
      · exact .inr ⟨hin, by omega⟩
    · rintro (⟨hpx, hpy⟩ | ⟨hin, hafter⟩)
      · dsimp only at hpx hpy
        rw [hpx, hpy]
        exact ⟨⟨⟨hx, hy⟩, hc⟩, .inr ⟨rfl, le_rfl⟩⟩
      · exact ⟨hin, by omega⟩

/-! ## Painting a list of pixels (R180) -/

/-- Painting is a sequence of writes to the framebuffer's memory. -/
theorem paintAll_fb (s : State) (ps : List (Nat × Nat)) (c : Bool) : (paintAll s ps c).fb =
    ps.foldl (fun m p => memWrite fbUnlisted m (pixelAddr s (offX s + p.1) (offY s + p.2)) c) s.fb := by
  unfold paintAll
  generalize offX s = ox
  generalize offY s = oy
  induction ps generalizing s with
  | nil => rfl
  | cons p ps ih => exact ih (fbWrite s (ox + p.1) (oy + p.2) c)

theorem paintAll_paintPixel (s : State) (ps : List (Nat × Nat)) :
    (paintAll (paintPixel s) ps s.color).fb = (paintAll s ((s.x, s.y) :: ps) s.color).fb := by
  rw [paintAll_fb, paintAll_fb]
  rfl

/-! ## The scan paints the pixels that are due (R173, R178 to R180) -/

/-- What the scan from `s` comes to when it stops in `t`. -/
structure ScanPaints (s t : State) : Prop where
  fb : t.fb = (paintAll s ((duePixels s).take s.run) s.color).fb
  finished : (duePixels s).length ≤ s.run →
    t.phase = .sample ∧ t.run = s.run - (duePixels s).length
  exhausted : s.run < (duePixels s).length →
    t.phase = .scan ∧ t.run = 0 ∧ duePixels t = (duePixels s).drop s.run ∧
      (duePixels s)[s.run]? = some (t.x, t.y)

theorem scanPaints_end {s : State} (hx : s.w ≤ s.x) : ScanPaints s { s with phase := .sample } := by
  constructor <;> simp [duePixels_end hx, paintAll]

theorem scanPaints_runOut {s : State} (hp : s.phase = .scan) (hx : s.x < s.w) (hy : s.y < s.h)
    (hc : changed s s.x s.y = true) (hr : s.run = 0) : ScanPaints s s := by
  constructor <;> simp [duePixels_paintPixel hx hy hc, paintAll, hr, hp]

/-- A turn that only moves on to another position with the same pixels due changes nothing of the result. -/
theorem ScanPaints.of_move {s t : State} {x y : Nat}
    (hdue : duePixels { s with x := x, y := y } = duePixels s)
    (h : ScanPaints { s with x := x, y := y } t) : ScanPaints s t where
  fb := by rw [h.fb, hdue, paintAll_fb, paintAll_fb]; rfl
  finished := hdue ▸ h.finished
  exhausted := hdue ▸ h.exhausted

/-- A turn that paints takes one pixel off the run and off those due. -/
theorem ScanPaints.of_paintPixel {s t : State}
    (hdue : duePixels s = (s.x, s.y) :: duePixels (paintPixel s)) (hr : s.run ≠ 0)
    (h : ScanPaints (paintPixel s) t) : ScanPaints s t := by
  obtain ⟨n, hn⟩ := Nat.exists_eq_succ_of_ne_zero hr
  obtain ⟨hfb, hfinished, hexhausted⟩ := h
  simp only [paintPixel_run, paintPixel_color, hn, Nat.succ_sub_one] at hfb hfinished hexhausted
  refine ⟨?_, fun hle => ?_, fun hlt => ?_⟩
  · rw [hfb, hdue, hn, List.take_succ_cons, paintAll_paintPixel]
  · rw [hdue, hn, List.length_cons] at hle ⊢
    rw [Nat.succ_sub_succ]
    exact hfinished (Nat.le_of_succ_le_succ hle)
  · rw [hdue, hn, List.length_cons] at hlt
    rw [hdue, hn, List.drop_succ_cons, List.getElem?_cons_succ]
    exact hexhausted (Nat.lt_of_succ_lt_succ hlt)

/-- With turns enough the scan paints the pixels due, as far as the run carries. -/
theorem scan_scanPaints {n : Nat} {s : State} (hg : geometryOk s = true) (hp : s.phase = .scan)
    (hs : BandChanged s) (hn : scanLeft 1 s < n) : ScanPaints s (scan n s) := by
  induction n generalizing s with
  | zero => omega
  | succ n ih =>
    unfold scan
    split
    next hx => exact scanPaints_end hx
    next hx =>
      rw [not_le] at hx
      split
      next hy =>
        have hlt := scanLeft_nextColumn (c := 1) hx hy
        exact .of_move (duePixels_nextColumn hy) (ih hg hp nextColumn_bandChanged (by omega))
      next hy =>
        rw [not_le] at hy
        split
        next hb =>
          have hlt := scanLeft_skipBand (c := 1) hg hx hy
          exact .of_move (x := s.x) (duePixels_skipBand hb) (ih hg hp (skipBand_bandChanged hb) (by omega))
        next hb =>
          have hc := changed_of_not_bandSkipped hs hx hy (Bool.eq_false_iff.2 hb)
          split
          next hr => exact scanPaints_runOut hp hx hy hc hr
          next hr =>
            have hlt := scanLeft_paintPixel (c := 1) hx hy
            exact .of_paintPixel (duePixels_paintPixel hx hy hc) hr
              (ih hg hp (paintPixel_bandChanged hc) (by omega))

theorem runScan_scanPaints {s : State} (hg : geometryOk s = true) (hp : s.phase = .scan)
    (hs : BandChanged s) : ScanPaints s (runScan s) :=
  scan_scanPaints hg hp hs (Nat.lt_succ_of_le (Nat.sub_le _ _))

/-- Settles O28: turn by turn, the scan moves past what is not due and paints what is. -/
theorem scanPaintsDuePixels : Obligations.ScanPaintsDuePixels := by
  intro s hp hg hs
  obtain ⟨hfb, hfinished, hexhausted⟩ := runScan_scanPaints hg hp (hs hp)
  exact ⟨hfb, hfinished, hexhausted⟩

/-! ## The frame of a RUN token (R173, R179, R180) -/

/-- A painted pixel reads as the colour, any other as before. -/
theorem fbRead_paintAll {s : State} {ps : List (Nat × Nat)} (c : Bool) {x y : Nat}
    (hps : ∀ p ∈ ps, offY s + p.2 < s.dispH) (hy : y < s.dispH) :
    fbRead (paintAll s ps c) x y =
      if ∃ p ∈ ps, x = offX s + p.1 ∧ y = offY s + p.2 then c else fbRead s x y := by
  unfold paintAll
  generalize offX s = ox
  generalize offY s = oy at hps
  induction ps generalizing s with
  | nil => simp
  | cons p ps ih =>
    obtain ⟨hp, hps⟩ := List.forall_mem_cons.1 hps
    rw [List.foldl_cons, ih (s := fbWrite s (ox + p.1) (oy + p.2) c) hy hps, fbRead_fbWrite s c hp hy]
    simp only [List.exists_mem_cons_iff, or_comm (a := x = ox + p.1 ∧ y = oy + p.2), ite_or]

/-- The pixels due lie in the window, and the window in the display (R180). -/
theorem offY_add_lt_of_mem_duePixels {s : State} (hg : geometryOk s = true) {p : Nat × Nat}
    (hp : p ∈ duePixels s) : offY s + p.2 < s.dispH :=
  offY_add_lt (geometryOk_iff.1 hg).2.1 (mem_duePixels.1 hp).1.1.2

/-- Painting leaves the draw and the display's height alone. -/
theorem paintAll_fbDraw_dispH (s : State) (ps : List (Nat × Nat)) (c : Bool) :
    (paintAll s ps c).fbDraw = s.fbDraw ∧ (paintAll s ps c).dispH = s.dispH := by
  unfold paintAll
  exact List.foldlRecOn (motive := fun t : State => t.fbDraw = s.fbDraw ∧ t.dispH = s.dispH) ps _
    ⟨rfl, rfl⟩ fun _ h _ _ => h

/-- What the display reads as once the scan has painted what its run covers. -/
theorem ScanPaints.fbRead_eq {s : State} (h : ScanPaints s (runScan s)) (hg : geometryOk s = true)
    {x y : Nat} (hy : y < s.dispH) : fbRead (runScan s) x y =
      if ∃ p ∈ (duePixels s).take s.run, x = offX s + p.1 ∧ y = offY s + p.2 then s.color
      else fbRead s x y := by
  obtain ⟨hdraw, hh⟩ := paintAll_fbDraw_dispH s ((duePixels s).take s.run) s.color
  rw [fbRead_congr h.fb ((runScan_fbDraw s).trans hdraw.symm) ((runScan_dispH s).trans hh.symm)]
  exact fbRead_paintAll s.color
    (fun p hp => offY_add_lt_of_mem_duePixels hg (List.mem_of_mem_take hp)) hy

/-- The scan's frame as one equation: pixels, run, position and phase apart the state is the one before. -/
theorem ScanFrame.eq {s t : State} (h : ScanFrame s t) :
    t = { s with fb := t.fb, run := t.run, x := t.x, y := t.y, phase := t.phase } := by
  cases t
  cases h
  simp_all

/-- A RUN token's scan paints the pixels due, as far as the token's run carries. -/
theorem runScan_loadRun_scanPaints {g v : Nat} {s : State} (hg : geometryOk s = true) (hb : BandInv s) :
    ScanPaints (loadRun g v s) (runScan (loadRun g v s)) :=
  runScan_scanPaints ((loadRun_geometryOk g v s).trans hg) rfl (loadRun_bandChanged hb)

/-- Settles O29: the token's fields are loaded before the scan, which paints pixels due only. -/
theorem runTokenFrame : Obligations.RunTokenFrame := by
  intro g v s t e hb
  obtain ⟨-, hg, rfl⟩ := execRunGroup_next e
  refine ⟨?_, fun x y _ hy hspared => ?_⟩
  · have hframe := (scan_frame (scanTurns (loadRun g v s)) (loadRun g v s)).eq
    exact hframe.trans (by rw [runScan_color]; rfl)
  · have hload : geometryOk (loadRun g v s) = true := (loadRun_geometryOk g v s).trans hg
    rw [(runScan_loadRun_scanPaints hg hb).fbRead_eq hload hy, if_neg]
    · rfl
    · rintro ⟨p, hp, hat⟩
      exact hspared p hp hat

end Sys2Proof.Machine

/-! SUPPORT. The round trip of a frame (R183): where the stream holds the producer's emission, each step of the
operation consumes its part of it, and each run paints the pixels it was counted from. -/

namespace Sys2Proof.Machine

/-! ## Operations followed to their end (R16, R304) -/

/-- The operation in progress in `s` comes to its end in `t`, by the steps it takes. -/
inductive OperationRuns : State → State → Prop
  | ended {s : State} (hb : s.busy = false) : OperationRuns s s
  | step {s u t : State} (hb : s.busy = true) (e : busyStep s = .next u) (h : OperationRuns u t) :
    OperationRuns s t

theorem busyStep_phase_ne_idle {s t : State} (e : busyStep s = .next t) (ht : t.busy = true) :
    t.phase ≠ .idle := by
  obtain ⟨hbusy, -⟩ | ⟨-, -, hp⟩ := busyNext_endsOrGoesOn (busyStep_busyNext e)
  · exact absurd ht (Bool.eq_false_iff.1 hbusy)
  · exact hp

/-- Steps as many as an operation can take carry it to its end. -/
theorem OperationRuns.runOperation_eq {s t : State} (h : OperationRuns s t) {n : Nat}
    (hi : s.busy = true → s.phase ≠ .idle) (hn : stepsLeft s ≤ n) : runOperation n s = .next t := by
  induction h generalizing n with
  | ended hb => exact runOperation_ended n hb
  | @step s u t hb e _ ih =>
    have hlt := busyStep_stepsLeft_lt (hi hb) e
    obtain ⟨k, rfl⟩ := Nat.exists_eq_succ_of_ne_zero (show n ≠ 0 by omega)
    rw [runOperation_succ k hb e]
    exact ih (busyStep_phase_ne_idle e) (by omega)

theorem OperationRuns.exec_decodeNextFrame {s t : State} (h : OperationRuns (beginFrame s) t)
    (hs : ReadyToDecode s) : exec .decodeNextFrame s = .next t := by
  change execDecodeNextFrame s = _
  rw [execDecodeNextFrame_of_ready hs]
  exact h.runOperation_eq (fun _ => Phase.noConfusion) (Nat.add_le_add_left (by decide : 6 ≤ 8) (s.w * s.h))

/-! ## What the steps have decoded (R79, R180) -/

/-- Window pixel `(x, y)`, as the display holds it (R15). -/
def windowRead (s : State) (x y : Nat) : Bool := fbRead s (offX s + x) (offY s + y)

/-- From `s` to `t` the operation has consumed `n` stream bits without a fault, and has given the window pixels
`ps` the colours of frame `f`, and no other window pixel another colour. -/
structure DecodesTo (f : Frame) (ps : List (Nat × Nat)) (n : Nat) (s t : State) : Prop where
  faultRec : t.faultRec = s.faultRec
  cursor : t.cursor = s.cursor + n
  geometry : GeometryKept s t
  pixel : ∀ x y, x < s.w → y < s.h →
    windowRead t x y = if (x, y) ∈ ps then f x y else windowRead s x y

theorem DecodesTo.refl (f : Frame) (s : State) : DecodesTo f [] 0 s s :=
  ⟨rfl, rfl, .refl s, fun _ _ _ _ => rfl⟩

theorem DecodesTo.trans {f : Frame} {ps qs : List (Nat × Nat)} {m n : Nat} {s u t : State}
    (h : DecodesTo f qs m s u) (k : DecodesTo f ps n u t) : DecodesTo f (qs ++ ps) (m + n) s t where
  faultRec := k.faultRec.trans h.faultRec
  cursor := by rw [k.cursor, h.cursor, Nat.add_assoc]
  geometry := h.geometry.trans k.geometry
  pixel x y hx hy := by
    rw [k.pixel x y (h.geometry.w ▸ hx) (h.geometry.h ▸ hy), h.pixel x y hx hy]
    simp only [List.mem_append, or_comm (a := (x, y) ∈ qs), ite_or]

/-- The operation in progress in `s` completes, with `OK` = 1, and so decodes `ps` from `n` bits. -/
def Completes (f : Frame) (ps : List (Nat × Nat)) (n : Nat) (s : State) : Prop :=
  ∃ t, OperationRuns s t ∧ t.ok = true ∧ DecodesTo f ps n s t

theorem completes_of_ended {s : State} (f : Frame) (hb : s.busy = false) (hok : s.ok = true) :
    Completes f [] 0 s :=
  ⟨s, .ended hb, hok, .refl f s⟩

theorem Completes.of_step {f : Frame} {ps qs : List (Nat × Nat)} {m n : Nat} {s u : State}
    (hb : s.busy = true) (e : busyStep s = .next u) (hd : DecodesTo f qs m s u)
    (h : Completes f ps n u) : Completes f (qs ++ ps) (m + n) s := by
  obtain ⟨t, hruns, hok, ht⟩ := h
  exact ⟨t, .step hb e hruns, hok, hd.trans ht⟩

/-- A step that reads no token and paints nothing in the window. -/
theorem Completes.of_still {f : Frame} {ps : List (Nat × Nat)} {n : Nat} {s u : State}
    (hb : s.busy = true) (e : busyStep s = .next u) (hd : DecodesTo f [] 0 s u)
    (h : Completes f ps n u) : Completes f ps n s := by
  simpa using Completes.of_step hb e hd h

/-! ## The border step (R195 to R206) -/

theorem busyStep_internal {s : State} (hc : tokenContext s = none) : busyStep s = internalStep s := by
  simp only [busyStep, fetchToken, hc]

theorem busyStep_sample {s : State} (hg : geometryOk s = true) (hp : s.phase = .sample) :
    busyStep s = .next (sampleEdges s) := by
  rw [busyStep_internal (by simp [tokenContext, hp])]
  simp [internalStep, hg, hp]

theorem busyStep_fillL {s : State} (hg : geometryOk s = true) (hp : s.phase = .fillL) :
    busyStep s = .next (fillLeft s) := by
  rw [busyStep_internal (by simp [tokenContext, hp])]
  simp [internalStep, hg, hp]

theorem busyStep_fillR {s : State} (hg : geometryOk s = true) (hp : s.phase = .fillR) :
    busyStep s = .next (fillRight s) := by
  rw [busyStep_internal (by simp [tokenContext, hp])]
  simp [internalStep, hg, hp]

/-- A border step decodes nothing, and writes no window pixel. -/
theorem BorderFrame.decodesTo {s t : State} (f : Frame) (h : BorderFrame s t)
    (hread : ∀ x y, x < s.w → y < s.h →
      fbRead t (offX s + x) (offY s + y) = fbRead s (offX s + x) (offY s + y)) :
    DecodesTo f [] 0 s t := by
  have hk : GeometryKept s t := { h with }
  refine ⟨h.faultRec, h.cursor, hk, fun x y hx hy => ?_⟩
  rw [windowRead, hk.offX, hk.offY, hread x y hx hy]
  rfl

theorem completes_fillR {s : State} (f : Frame) (hb : s.busy = true) (hg : geometryOk s = true)
    (hp : s.phase = .fillR) : Completes f [] 0 s := by
  have hframe : BorderFrame s (fillRight s) := { finish_borderFrame true _ with }
  refine .of_still hb (busyStep_fillR hg hp) (hframe.decodesTo f fun x y hx hy => ?_)
    (completes_of_ended f rfl rfl)
  exact fbRead_fillRight (offY_add_lt (geometryOk_iff.1 hg).2.1 hy) (by omega)

theorem completes_afterLeft {s : State} (f : Frame) (hb : s.busy = true) (hg : geometryOk s = true) :
    Completes f [] 0 (afterLeft s) := by
  unfold afterLeft
  split
  · exact completes_fillR f hb hg rfl
  · exact completes_of_ended f rfl rfl

theorem completes_fillL {s : State} (f : Frame) (hb : s.busy = true) (hg : geometryOk s = true)
    (hp : s.phase = .fillL) : Completes f [] 0 s := by
  refine .of_still hb (busyStep_fillL hg hp) ((fillLeft_borderFrame s).decodesTo f fun x y hx hy => ?_)
    (completes_afterLeft (s := fbFillColumns s 0 (offX s) (majority s.el1 s.el0)) f hb hg)
  exact fbRead_fillLeft (offY_add_lt (geometryOk_iff.1 hg).2.1 hy) (Nat.le_add_right _ _)

theorem completes_sampleEdges {s : State} (f : Frame) (hb : s.busy = true) (hg : geometryOk s = true) :
    Completes f [] 0 (sampleEdges s) := by
  unfold sampleEdges
  dsimp only
  split
  · exact completes_fillL f hb hg rfl
  · exact completes_afterLeft f hb hg

/-- The border step completes the operation and leaves the window as it is. -/
theorem completes_sample {s : State} (f : Frame) (hb : s.busy = true) (hg : geometryOk s = true)
    (hp : s.phase = .sample) : Completes f [] 0 s :=
  .of_still hb (busyStep_sample hg hp)
    ((sampleEdges_borderFrame s).decodesTo f fun _ _ _ _ => fbRead_sampleEdges s _ _)
    (completes_sampleEdges f hb hg)

/-! ## The runs of a pixel sequence (R107, R243) -/

/-- The lengths of the maximal runs of a pixel sequence. -/
def runsOf : List Bool → List Nat
  | [] => []
  | c :: cs => runsFrom c 1 cs

/-- The RUN tokens of a pixel sequence. -/
def runBits (cs : List Bool) : List Bool := (runsOf cs).flatMap (fun n => encode (encodeRun n))

/-- The first run is as long as its colour goes on, and the others are the runs of the rest. -/
theorem exists_runsFrom_eq (c : Bool) (n : Nat) (cs : List Bool) : ∃ k rest,
    cs = List.replicate k c ++ rest ∧ rest.head? ≠ some c ∧ runsFrom c n cs = (n + k) :: runsOf rest := by
  induction cs generalizing n with
  | nil => exact ⟨0, [], rfl, nofun, rfl⟩
  | cons b bs ih =>
    by_cases hbc : b = c
    · subst hbc
      obtain ⟨k, rest, rfl, hrest, hruns⟩ := ih (n + 1)
      refine ⟨k + 1, rest, rfl, hrest, ?_⟩
      rw [runsFrom, if_pos rfl, hruns, Nat.add_assoc, Nat.add_comm 1]
    · exact ⟨0, b :: bs, rfl, by simpa using hbc, by rw [runsFrom, if_neg hbc]; rfl⟩

/-- The bits of a pixel sequence are the token of its first run and the bits of the rest. -/
theorem exists_runBits_eq (c : Bool) (cs : List Bool) : ∃ n rest, 1 ≤ n ∧
    c :: cs = List.replicate n c ++ rest ∧ rest.head? ≠ some c ∧
    runBits (c :: cs) = encode (encodeRun n) ++ runBits rest := by
  obtain ⟨k, rest, rfl, hrest, hruns⟩ := exists_runsFrom_eq c 1 cs
  refine ⟨k + 1, rest, Nat.succ_pos k, rfl, hrest, ?_⟩
  rw [runBits, runsOf, hruns, List.flatMap_cons, Nat.add_comm 1, runBits]

/-! ## The stream at the cursor (R22, R70) -/

/-- The stream goes on at the cursor with `bits`. -/
def StreamHolds (s : State) (bits : List Bool) : Prop :=
  streamBits s s.cursor bits.length = bits

theorem StreamHolds.front {s : State} {front back : List Bool} (h : StreamHolds s (front ++ back)) :
    StreamHolds s front :=
  (streamBits_eq_append h).1

/-- Where the first bits have been consumed the stream goes on with the others. -/
theorem StreamHolds.after {s t : State} {front back : List Bool} (h : StreamHolds s (front ++ back))
    (hrom : t.rom = s.rom) (hlen : t.romLen = s.romLen) (hcur : t.cursor = s.cursor + front.length) :
    StreamHolds t back := by
  have hback := (streamBits_eq_append h).2
  rw [List.length_append, Nat.add_sub_cancel_left] at hback
  rw [StreamHolds, streamBits_congr hrom hlen, hcur]
  exact hback

/-- A window longer than the bits the stream holds begins with them. -/
theorem StreamHolds.window_eq {s : State} {bits : List Bool} (h : StreamHolds s bits) {n : Nat}
    (hn : bits.length ≤ n) :
    streamBits s s.cursor n = bits ++ streamBits s (s.cursor + bits.length) (n - bits.length) := by
  obtain ⟨k, rfl⟩ := Nat.exists_eq_add_of_le hn
  rw [streamBits_add, h, Nat.add_sub_cancel_left]

/-! ## One run (R172, R173, R178) -/

/-- Where a RUN token is due and the stream holds that of run length `n`, the step loads `n` and scans. -/
theorem busyStep_encodeRun {s : State} {n : Nat} (hb : s.busy = true) (hg : geometryOk s = true)
    (hdue : RunDue s) (h1 : 1 ≤ n) (hmax : n ≤ Config.runMax)
    (hbits : StreamHolds s (encode (encodeRun n))) :
    ∃ g v, runLength g v = n ∧ (encode (encodeRun n)).length = 4 * g ∧
      busyStep s = .next (runScan (loadRun g v s)) := by
  obtain ⟨hg1, hg6, hv, hlen⟩ := runGroup_spec h1 hmax
  have hf := runToken_runField hg1 hg6 hv
  have hbits4 : (encode (encodeRun n)).length = 4 * runGroup n := by
    rw [encodeRun, hf.encode_eq, Laws.encodeRunBits_length hg1]
  refine ⟨runGroup n, n - 1 - groupOffset (runGroup n), hlen, hbits4, ?_⟩
  have hwin := hbits.window_eq (n := 24) (by omega)
  have hd := decode_encode_of_runField hf
    (streamBits s (s.cursor + (encode (encodeRun n)).length) (24 - (encode (encodeRun n)).length))
  rw [hf.context] at hd
  have hctx := tokenContext_of_runDue hdue
  rw [← step_busy hb, step_token hb hctx ((congrArg _ hwin).trans hd), hf.exec_eq]
  exact execRunGroup_of_expectsRun _ _ (expectsRun_iff.2 ⟨hb, hctx⟩) hg

/-- The pixels of the decoded sequence a run that is due would paint from. -/
def runPixels (s : State) : List (Nat × Nat) :=
  duePixels { s with x := if s.phase = .scan then s.x else 0, y := if s.phase = .scan then s.y else 0 }

theorem duePixels_loadRun (g v : Nat) (s : State) : duePixels (loadRun g v s) = runPixels s := rfl

theorem runPixels_scan {s : State} (hp : s.phase = .scan) : runPixels s = duePixels s := by
  rw [runPixels, if_pos hp, if_pos hp]

/-- The first run starts at the first pixel of the sequence (R173). -/
theorem runPixels_color {s : State} (hp : s.phase = .color) : runPixels s = decodedPixels s := by
  rw [runPixels, hp]
  exact List.filter_eq_self.2 fun p _ => by simp [Nat.pos_iff_ne_zero]

theorem length_runPixels_le (s : State) : (runPixels s).length ≤ s.w * s.h := by
  have hscan : (scanOrder s.w s.h).length = s.w * s.h := by simp [scanOrder]
  rw [← hscan]
  exact (List.length_filter_le _ _).trans (List.length_filter_le _ _)

/-- What the window reads as once the scan has painted what its run covers. -/
theorem ScanPaints.windowRead_eq {s : State} (h : ScanPaints s (runScan s)) (hg : geometryOk s = true)
    {x y : Nat} (hy : y < s.h) : windowRead (runScan s) x y =
      if (x, y) ∈ (duePixels s).take s.run then s.color else windowRead s x y := by
  have hx' : offX (runScan s) = offX s := by simp [offX]
  have hy' : offY (runScan s) = offY s := by simp [offY]
  rw [windowRead, hx', hy', h.fbRead_eq hg (offY_add_lt (geometryOk_iff.1 hg).2.1 hy)]
  refine if_congr ⟨?_, fun hin => ⟨_, hin, rfl, rfl⟩⟩ rfl rfl
  rintro ⟨p, hin, hpx, hpy⟩
  rwa [show (x, y) = p from Prod.ext (Nat.add_left_cancel hpx) (Nat.add_left_cancel hpy)]

theorem runScan_loadRun_geometryOk (g v : Nat) (s : State) :
    geometryOk (runScan (loadRun g v s)) = geometryOk s := by
  apply geometryOk_congr <;> simp

/-- A run over pixels of its own colour decodes them. -/
theorem decodesTo_runScan {f : Frame} {g v : Nat} {s : State} (hg : geometryOk s = true)
    (hb : BandInv s)
    (hcolor : ∀ p ∈ (runPixels s).take (runLength g v), f p.1 p.2 = (beginRun s).color) :
    DecodesTo f ((runPixels s).take (runLength g v)) (4 * g) s (runScan (loadRun g v s)) := by
  have hload : geometryOk (loadRun g v s) = true := (loadRun_geometryOk g v s).trans hg
  refine ⟨by simp, by simp, by constructor <;> simp, fun x y _ hy => ?_⟩
  rw [(runScan_loadRun_scanPaints hg hb).windowRead_eq hload hy, duePixels_loadRun, loadRun_run]
  split
  next hin => exact (hcolor _ hin).symm
  next => rfl

/-! ## The runs of a frame (R107, R176) -/

/-- The frameColors frame `f` has at the pixels `ps`. -/
def frameColors (f : Frame) (ps : List (Nat × Nat)) : List Bool := ps.map (fun p => f p.1 p.2)

/-- The pixels of the first run have its colour, and the bits go on with the pixels after them. -/
theorem exists_firstRun {f : Frame} {ps : List (Nat × Nat)} {c : Bool}
    (hc : (frameColors f ps).head? = some c) : ∃ n, 1 ≤ n ∧ n ≤ ps.length ∧
      (∀ p ∈ ps.take n, f p.1 p.2 = c) ∧ (frameColors f (ps.drop n)).head? ≠ some c ∧
      runBits (frameColors f ps) = encode (encodeRun n) ++ runBits (frameColors f (ps.drop n)) := by
  obtain ⟨cs, hcs⟩ := List.head?_eq_some_iff.1 hc
  obtain ⟨n, rest, h1, hsplit, hrest, hbits⟩ := exists_runBits_eq c cs
  rw [← hcs] at hsplit hbits
  have hlen := congrArg List.length hsplit
  rw [frameColors, List.length_map, List.length_append, List.length_replicate] at hlen
  have htake : frameColors f (ps.take n) = List.replicate n c := by
    rw [frameColors, List.map_take, ← frameColors, hsplit, List.take_left' List.length_replicate]
  have hdrop : frameColors f (ps.drop n) = rest := by
    rw [frameColors, List.map_drop, ← frameColors, hsplit, List.drop_left' List.length_replicate]
  refine ⟨n, h1, by omega, fun p hp => ?_, hdrop ▸ hrest, hdrop ▸ hbits⟩
  have hmem : f p.1 p.2 ∈ frameColors f (ps.take n) := List.mem_map_of_mem hp
  rw [htake] at hmem
  exact List.eq_of_mem_replicate hmem

/-- A run is due in `s`, and the stream holds the runs of `f` at the pixels `ps` still to be decoded. -/
structure RunsDue (f : Frame) (ps : List (Nat × Nat)) (s : State) : Prop where
  busy : s.busy = true
  geometry : geometryOk s = true
  band : BandInv s
  due : RunDue s
  pixels : runPixels s = ps
  color : (frameColors f ps).head? = some (beginRun s).color
  stream : StreamHolds s (runBits (frameColors f ps))

/-- After a run that leaves pixels due the next one is due, in the other colour (R178). -/
theorem runsDue_runScan {f : Frame} {g v : Nat} {s : State} {ps : List (Nat × Nat)} (h : RunsDue f ps s)
    (hmore : runLength g v < ps.length)
    (hother : (frameColors f (ps.drop (runLength g v))).head? ≠ some (beginRun s).color)
    (hstream : StreamHolds (runScan (loadRun g v s)) (runBits (frameColors f (ps.drop (runLength g v))))) :
    RunsDue f (ps.drop (runLength g v)) (runScan (loadRun g v s)) := by
  obtain ⟨hp, hr, hdue, hat⟩ := (runScan_loadRun_scanPaints h.geometry h.band).exhausted
    (by rw [duePixels_loadRun, h.pixels]; exact hmore)
  obtain ⟨⟨⟨hx, hy⟩, hc⟩, -⟩ := mem_duePixels.1 (List.mem_of_getElem? hat)
  rw [duePixels_loadRun, h.pixels, loadRun_run] at hdue
  have hcolor : (beginRun (runScan (loadRun g v s))).color = !(beginRun s).color := by
    rw [beginRun_color, if_pos hp, runScan_color]
    rfl
  refine {
    busy := by simpa using h.busy
    geometry := (runScan_loadRun_geometryOk g v s).trans h.geometry
    band := fun _ => runScan_bandChanged (loadRun_bandChanged h.band)
    due := .inr ⟨hp, by simpa using hx, by simpa using hy, hr, fun _ => ?changed⟩
    pixels := by rw [runPixels_scan hp, hdue]
    color := ?color
    stream := hstream }
  case changed => simpa [changed, chunkOf] using hc
  case color =>
    rw [hcolor]
    cases hhead : (frameColors f (ps.drop (runLength g v))).head? with
    | none =>
      simp only [frameColors, List.head?_eq_none_iff, List.map_eq_nil_iff, List.drop_eq_nil_iff] at hhead
      omega
    | some b =>
      rw [hhead] at hother
      exact congrArg some (Bool.eq_not_iff.2 fun hb => hother (congrArg some hb))

/-- The runs complete the frame, each from the pixel where the one before it has ended. -/
theorem completes_runs {f : Frame} {ps : List (Nat × Nat)} {s : State} (hmax : s.w * s.h ≤ Config.runMax)
    (h : RunsDue f ps s) : Completes f ps (runBits (frameColors f ps)).length s := by
  induction hlen : ps.length using Nat.strong_induction_on generalizing s ps with
  | _ len ih =>
    have hps := length_runPixels_le s
    rw [h.pixels] at hps
    obtain ⟨n, h1, hle, htake, hother, hbits⟩ := exists_firstRun h.color
    have hstream := h.stream
    rw [hbits] at hstream
    obtain ⟨g, v, rfl, h4, e⟩ :=
      busyStep_encodeRun h.busy h.geometry h.due h1 (hle.trans (hps.trans hmax)) hstream.front
    have hd := decodesTo_runScan (f := f) (g := g) (v := v) h.geometry h.band
      (by rw [h.pixels]; exact htake)
    have hgo : Completes f (ps.drop (runLength g v)) (runBits (frameColors f (ps.drop (runLength g v)))).length
        (runScan (loadRun g v s)) := by
      obtain hlast | hmore := Nat.eq_or_lt_of_le hle
      · obtain ⟨hp, -⟩ := (runScan_loadRun_scanPaints h.geometry h.band).finished
          (by rw [duePixels_loadRun, h.pixels]; exact hlast.ge)
        rw [List.drop_of_length_le hlast.ge]
        exact completes_sample f (by simpa using h.busy)
          ((runScan_loadRun_geometryOk g v s).trans h.geometry) hp
      · refine ih _ ?_ (by simpa using hmax)
          (runsDue_runScan h hmore hother (hstream.after (by simp) (by simp) (by simp [h4]))) rfl
        rw [List.length_drop]
        omega
    have hall := Completes.of_step h.busy e hd hgo
    rwa [h.pixels, List.take_append_drop, ← h4, ← List.length_append, ← hbits] at hall

/-! ## The colour and the header (R157, R158, R171) -/

/-- The chunk of a frame pixel, under the geometry RESET loads (R14, R245). -/
theorem chunkOf_eq_gridChunk {s : State} (hg : geometryOk s = true) (x y : Nat) :
    chunkOf s x y = gridChunk s.w s.h (x, y) := by
  obtain ⟨-, -, hcw, hch⟩ := geometryOk_iff.1 hg
  rw [chunkOf, gridChunk, hcw, hch]

theorem decodedPixels_eq_maskedPixels {s : State} (hg : geometryOk s = true) :
    decodedPixels s = maskedPixels s.mask s.w s.h := by
  simp only [decodedPixels, changed, chunkOf_eq_gridChunk hg]
  rfl

theorem mem_maskedPixels {m : MaskWord} {w h : Nat} {p : Nat × Nat} :
    p ∈ maskedPixels m w h ↔ (p.1 < w ∧ p.2 < h) ∧ m.getLsbD (gridChunk w h p) = true := by
  simp [maskedPixels, mem_scanOrder]

/-- Eight chunks of an eighth of the side, rounded up, cover it. -/
theorem div_ceilDiv8_lt {a n : Nat} (h : a < n) : a / ceilDiv8 n < 8 := by
  refine Nat.div_lt_of_lt_mul ?_
  unfold ceilDiv8
  omega

/-- The grid has 64 chunks (R6). -/
theorem gridChunk_lt {w h : Nat} {p : Nat × Nat} (hx : p.1 < w) (hy : p.2 < h) : gridChunk w h p < 64 := by
  have := div_ceilDiv8_lt hx
  have := div_ceilDiv8_lt hy
  unfold gridChunk Config.grid
  omega

/-- The implicit mask of the first frame selects every pixel (R157). -/
theorem maskedPixels_allOnes (w h : Nat) : maskedPixels (BitVec.allOnes 64) w h = scanOrder w h := by
  refine List.filter_eq_self.2 fun p hp => ?_
  obtain ⟨hx, hy⟩ := mem_scanOrder.1 hp
  rw [BitVec.getLsbD_allOnes]
  exact decide_eq_true (gridChunk_lt hx hy)

theorem maskedPixels_zero (w h : Nat) : maskedPixels 0 w h = [] :=
  List.filter_eq_nil_iff.2 fun p _ => by simp

/-- COLOR is the colour of the first pixel the mask selects, and the runs begin there (R171, R172). -/
theorem completes_pixelBits {f : Frame} {s : State} (hx : expectsColor s = true)
    (hg : geometryOk s = true) (hmax : s.w * s.h ≤ Config.runMax)
    (hne : maskedPixels s.mask s.w s.h ≠ [])
    (hstream : StreamHolds s (pixelBits (frameColors f (maskedPixels s.mask s.w s.h)))) :
    Completes f (maskedPixels s.mask s.w s.h)
      (pixelBits (frameColors f (maskedPixels s.mask s.w s.h))).length s := by
  rw [← decodedPixels_eq_maskedPixels hg] at hne hstream ⊢
  obtain ⟨hb, hp, -⟩ := expectsColor_iff.1 hx
  obtain ⟨c, cs, hcs⟩ := List.exists_cons_of_ne_nil (mt List.map_eq_nil_iff.1 hne : frameColors f _ ≠ [])
  have hbits : pixelBits (frameColors f (decodedPixels s)) = [c] ++ runBits (frameColors f (decodedPixels s)) := by
    rw [hcs]
    rfl
  rw [hbits] at hstream ⊢
  have hc : romBit s s.cursor = some c := romBit_of_streamBits_append (front := []) hstream
  have e : busyStep s = .next { s with color := c, cursor := s.cursor + 1, gotColor := true } := by
    rw [← step_busy hb, step_token hb (tokenContext_of_expectsColor hx) (decode_color hc), exec_color hx]
  have hd : DecodesTo f [] 1 s { s with color := c, cursor := s.cursor + 1, gotColor := true } :=
    ⟨rfl, rfl, { GeometryKept.refl s with }, fun _ _ _ _ => rfl⟩
  have hruns : RunsDue f (decodedPixels s)
      { s with color := c, cursor := s.cursor + 1, gotColor := true } := {
    busy := hb
    geometry := hg
    band := bandInv_of_phase (by simp [hp])
    due := .inl ⟨hp, rfl⟩
    pixels := runPixels_color hp
    color := by simp [hcs, hp]
    stream := hstream.after rfl rfl rfl }
  rw [List.length_append]
  exact Completes.of_step hb e hd (completes_runs hmax hruns)

/-- The first frame: the implicit mask, then the pixels of the whole frame (R107, R157). -/
theorem completes_firstFrame {f : Frame} {s : State} (hg : geometryOk s = true)
    (hmax : s.w * s.h ≤ Config.runMax) (hf : s.firstFrame = true)
    (hne : maskedPixels (BitVec.allOnes 64) s.w s.h ≠ [])
    (hstream : StreamHolds s (fullBits s.w s.h f)) :
    Completes f (maskedPixels (BitVec.allOnes 64) s.w s.h) (fullBits s.w s.h f).length (beginFrame s) := by
  have hbits : fullBits s.w s.h f = pixelBits (frameColors f (maskedPixels (BitVec.allOnes 64) s.w s.h)) := by
    rw [maskedPixels_allOnes]
    rfl
  rw [hbits] at hstream ⊢
  refine .of_still rfl (busyStep_firstHeader rfl hf)
    ⟨rfl, rfl, { GeometryKept.refl s with }, fun _ _ _ _ => rfl⟩ ?_
  exact completes_pixelBits (s := loadFullMask (beginFrame s)) rfl hg hmax hne
    (StreamHolds.after (front := []) hstream rfl rfl rfl)

/-- A mask in the stream is the token the header step runs. -/
theorem busyStep_header_mask {m : MaskWord} {s : State} (hx : expectsMask s = true)
    (h : StreamHolds s (encode (.mask m))) : busyStep s = execMask m s := by
  rw [StreamHolds, show (encode (.mask m)).length = 64 from Laws.EncodeLength.mask m] at h
  refine busyStep_maskToken (i := .mask m) (rest := []) hx ?_
  rw [tokenWindow, h, ← List.append_nil (encode _)]
  exact decodeMask_encode m []

/-- A later frame: its mask, then the pixels the mask selects, if any (R107, R158, R160, R161). -/
theorem completes_laterFrame {f : Frame} {m : MaskWord} {s : State} (hg : geometryOk s = true)
    (hmax : s.w * s.h ≤ Config.runMax) (hf : s.firstFrame = false)
    (hne : m = 0 ∨ maskedPixels m s.w s.h ≠ [])
    (hstream : StreamHolds s (partBits m s.w s.h f)) :
    Completes f (maskedPixels m s.w s.h) (partBits m s.w s.h f).length (beginFrame s) := by
  have hx : expectsMask (beginFrame s) = true := expectsMask_iff.2 ⟨rfl, rfl, hf⟩
  have hlen : (encode (.mask m)).length = 64 := Laws.EncodeLength.mask m
  have hbegin : StreamHolds (beginFrame s) (partBits m s.w s.h f) :=
    StreamHolds.after (front := []) hstream rfl rfl rfl
  have e := busyStep_header_mask hx hbegin.front
  by_cases hm : m = 0
  · subst hm
    rw [execMask_zero hx] at e
    rw [maskedPixels_zero]
    exact Completes.of_step (qs := []) (m := 64) rfl e
      ⟨rfl, rfl, { GeometryKept.refl s with }, fun _ _ _ _ => rfl⟩ (completes_of_ended f rfl rfl)
  · have hbits : partBits m s.w s.h f =
        encode (.mask m) ++ pixelBits (frameColors f (maskedPixels m s.w s.h)) :=
      congrArg _ (if_neg hm)
    rw [hbits] at hbegin ⊢
    rw [execMask_nonzero hx hm] at e
    rw [List.length_append, hlen]
    refine Completes.of_step (qs := []) rfl e
      ⟨rfl, rfl, { GeometryKept.refl s with }, fun _ _ _ _ => rfl⟩ ?_
    exact completes_pixelBits (s := { beginFrame s with
      mask := m, cursor := s.cursor + 64, phase := .color, gotColor := false }) rfl hg hmax
      (hne.resolve_left hm) (hbegin.after rfl rfl (by rw [hlen]; rfl))

/-- Settles O43: header, colour and runs each consume their part of the emission, and what the runs paint are
the frame's own runs. -/
theorem frameRoundTrip : Obligations.FrameRoundTrip := by
  intro s m f hready hg hwidth hfirst hne bits hbits hstream
  have hmax : s.w * s.h ≤ Config.runMax := (Nat.mul_le_mul hwidth.w hwidth.h).trans (by decide)
  have hall : Completes f (maskedPixels m s.w s.h) bits.length (beginFrame s) := by
    subst hbits
    cases hf : s.firstFrame with
    | true =>
      obtain rfl := hfirst hf
      rw [hf] at hstream
      exact completes_firstFrame hg hmax hf (hne.resolve_left (by decide)) hstream
    | false =>
      rw [hf] at hstream
      exact completes_laterFrame hg hmax hf hne hstream
  obtain ⟨t, hruns, hok, ht⟩ := hall
  have hexec := hruns.exec_decodeNextFrame hready
  obtain ⟨-, -, hfault, -⟩ := hready
  refine ⟨t, hexec, hok, ht.faultRec.trans hfault, ht.cursor, ?_⟩
  intro x y hx hy
  have hpixel := ht.pixel x y hx hy
  rw [windowRead, ht.geometry.offX, ht.geometry.offY] at hpixel
  refine hpixel.trans (if_congr ?_ rfl rfl)
  rw [mem_maskedPixels, and_iff_right ⟨hx, hy⟩]
  exact (congrArg (fun k => m.getLsbD k = true) (chunkOf_eq_gridChunk hg x y).symm).to_iff

end Sys2Proof.Machine

/-! SUPPORT. The border stabilizer (44_border_stabilizer): what SAMPLE counts, which fill the thresholds
choose, and the margins the fills paint. -/

namespace Sys2Proof.Machine

/-! ## The threshold (R199) -/

theorem thresholdMet_iff {a b : Nat} : thresholdMet a b = true ↔ 10 ≤ |(a : Int) - b| := by
  rw [thresholdMet, decide_eq_true_iff, Config.borderThresh, absDiff, le_abs]
  split <;> omega

/-! ## After the left side (R199, R219, R221) -/

theorem afterLeft_fillR {s : State} (h : 10 ≤ |(s.er1 : Int) - s.er0|) :
    afterLeft s = { s with phase := .fillR } :=
  if_pos (thresholdMet_iff.2 h)

theorem afterLeft_finish {s : State} (h : |(s.er1 : Int) - s.er0| < 10) : afterLeft s = finish true s :=
  if_neg (mt thresholdMet_iff.1 h.not_ge)

/-- The decision about the right side changes only the phase, the flags of a completion and the mark of
log 6. -/
theorem afterLeft_frame (s : State) : afterLeft s =
    { s with
      phase := (afterLeft s).phase
      ok := (afterLeft s).ok
      busy := (afterLeft s).busy
      done := (afterLeft s).done
      gotColor := (afterLeft s).gotColor } := by
  unfold afterLeft
  split <;> rfl

theorem afterLeft_fb (s : State) : (afterLeft s).fb = s.fb := by
  rw [afterLeft_frame]

/-! ## SAMPLE (R197) -/

/-- Each of the frame's rows is counted as set or as unset. -/
theorem countOn_add_countOff (s : State) (x : Nat) : countOn s x + countOff s x = s.h := by
  simpa [countOn, countOff] using
    (List.length_eq_countP_add_countP (fun y => fbRead s x (offY s + y)) (l := List.range s.h)).symm

/-- The edge counts loaded, and nothing decided yet. -/
def countEdges (s : State) : State :=
  { s with
    el1 := countOn s (offX s)
    el0 := countOff s (offX s)
    er1 := countOn s (offX s + s.w - 1)
    er0 := countOff s (offX s + s.w - 1) }

theorem sampleEdges_fillL {s : State}
    (h : 10 ≤ |((countEdges s).el1 : Int) - (countEdges s).el0|) :
    sampleEdges s = { countEdges s with phase := .fillL } :=
  if_pos (thresholdMet_iff.2 h)

theorem sampleEdges_afterLeft {s : State}
    (h : |((countEdges s).el1 : Int) - (countEdges s).el0| < 10) :
    sampleEdges s = afterLeft (countEdges s) :=
  if_neg (mt thresholdMet_iff.1 h.not_ge)

/-- The decision on the counts leaves them as they are. -/
theorem sampleEdges_edgesKept (s : State) : EdgesKept (countEdges s) (sampleEdges s) := by
  obtain h | h := le_or_gt 10 |((countEdges s).el1 : Int) - (countEdges s).el0|
  · rw [sampleEdges_fillL h]
    exact ⟨rfl, rfl, rfl, rfl⟩
  · rw [sampleEdges_afterLeft h]
    exact afterLeft_edgesKept _

/-- Beside the counts SAMPLE changes only the phase, the flags of a completion and the mark of log 6. -/
theorem sampleEdges_frame (s : State) : sampleEdges s =
    { countEdges s with
      phase := (sampleEdges s).phase
      ok := (sampleEdges s).ok
      busy := (sampleEdges s).busy
      done := (sampleEdges s).done
      gotColor := (sampleEdges s).gotColor } := by
  obtain h | h := le_or_gt 10 |((countEdges s).el1 : Int) - (countEdges s).el0|
  · rw [sampleEdges_fillL h]
  · rw [sampleEdges_afterLeft h]
    exact afterLeft_frame _

/-- Settles O30: the counts of a column add up to its rows, and each outcome is one branch of the decision on
them. -/
theorem sampleCountsEdges : Obligations.SampleCountsEdges := by
  intro s hb hp hg
  refine ⟨sampleEdges s, (step_busy hb).trans (busyStep_sample hg hp), ?_⟩
  obtain ⟨hl1, hl0, hr1, hr0⟩ := sampleEdges_edgesKept s
  rw [hl1, hl0, hr1, hr0]
  refine ⟨List.countP_eq_length_filter, List.countP_eq_length_filter, countOn_add_countOff s _,
    countOn_add_countOff s _, fun hl => ?left, fun hl hr => ?right, fun hl hr => ?neither,
    sampleEdges_frame s⟩
  case left =>
    rw [sampleEdges_fillL hl]
    exact ⟨rfl, hb, rfl, rfl⟩
  case right =>
    rw [sampleEdges_afterLeft hl, afterLeft_fillR hr]
    exact ⟨rfl, hb, rfl, rfl⟩
  case neither =>
    rw [sampleEdges_afterLeft hl, afterLeft_finish hr]
    exact ⟨rfl, rfl, rfl, rfl⟩

/-! ## The fills (R200 to R203, R207) -/

/-- The left margin in the majority colour of the left edge, the right side not yet decided. -/
def paintLeft (s : State) : State := fbFillColumns s 0 (offX s) (majority s.el1 s.el0)

theorem fillLeft_eq (s : State) : fillLeft s = afterLeft (paintLeft s) := rfl

/-- The columns from 0 to `OFF_X` are those left of the frame. -/
theorem fbRead_fillLeft_eq {s : State} {x y : Nat} (hy : y < s.dispH) :
    fbRead (fillLeft s) x y = if x < offX s then majority s.el1 s.el0 else fbRead s x y := by
  rw [fillLeft_eq, fbRead_afterLeft, paintLeft, fbRead_fbFillColumns s _ _ _ hy]
  exact if_congr (by omega) rfl rfl

/-- The columns from `OFF_X + W` to the display's last are those right of the frame. -/
theorem fbRead_fillRight_eq {s : State} {x y : Nat} (hx : x < s.dispW) (hy : y < s.dispH) :
    fbRead (fillRight s) x y = if offX s + s.w ≤ x then majority s.er1 s.er0 else fbRead s x y :=
  (fbRead_fbFillColumns s _ _ _ hy).trans (if_congr (by omega) rfl rfl)

/-- Settles O31: the fill paints the columns left of the frame, and the right side is decided on the counts
SAMPLE left. -/
theorem leftFillPaintsLeftMargin : Obligations.LeftFillPaintsLeftMargin := by
  intro s hb hp hg
  refine ⟨fillLeft s, (step_busy hb).trans (busyStep_fillL hg hp), fun x y _ hy => fbRead_fillLeft_eq hy,
    fun hr => ?right, fun hr => ?neither, ?frame⟩
  case right =>
    rw [fillLeft_eq, afterLeft_fillR (s := paintLeft s) hr]
    exact ⟨rfl, hb, rfl, rfl⟩
  case neither =>
    rw [fillLeft_eq, afterLeft_finish (s := paintLeft s) hr]
    exact ⟨rfl, rfl, rfl, rfl⟩
  case frame =>
    rw [fillLeft_eq, afterLeft_fb]
    exact afterLeft_frame (paintLeft s)

/-- Settles O32: the fill paints the columns right of the frame and completes the operation. -/
theorem rightFillPaintsRightMargin : Obligations.RightFillPaintsRightMargin := by
  intro s hb hp hg
  exact ⟨fillRight s, (step_busy hb).trans (busyStep_fillR hg hp),
    fun x y hx hy => fbRead_fillRight_eq hx hy, rfl⟩

end Sys2Proof.Machine

/-! SUPPORT. The commands (45_commands): what the host asks for between operations, the frame of a RESET, and of a
DECODE_NEXT_FRAME its steps, its frame and its result. -/

namespace Sys2Proof.Machine

/-! ## The host's pixel write (R225) -/

/-- An idle block takes the host's pixel write, and the pulse of `DONE` ends with it (log 8). -/
theorem step_writePixel {s : State} {x y : Nat} {c : Bool} {q : List HostInput} (hb : s.busy = false)
    (hi : s.inputs = .writePixel x y c :: q) :
    step s = hostWrite x y c { s with inputs := q, done := false } := by
  simp [step, fetch, hb, fetchInput, hi]

/-- Settles O14: the write is the one of R66, decided by the display's bounds. -/
theorem hostPixelWriteCompletes : Obligations.HostPixelWriteCompletes := by
  intro s x y c q hb hi
  rw [step_writePixel hb hi]
  exact ⟨fun h => if_pos h, fun h => if_neg h⟩

/-! ## The frame of a RESET (R216, R40, R69) -/

/-- Settles O17: the fields not loaded are those neither the start nor the completion of a RESET writes. -/
theorem resetFrame : Obligations.ResetFrame := by
  intro s b w h hb hw hh hw0 hh0 hfitw hfith
  exact ⟨(beginReset s).ok, (beginReset s).draws, execReset_legal b hb hw hh hw0 hh0 hfitw hfith⟩

/-! ## The steps of a DECODE_NEXT_FRAME (R219, R221) -/

/-- An operation in progress that answers a next state has taken a step towards it. -/
theorem runOperation_succ_next {n : Nat} {s t : State} (hb : s.busy = true)
    (e : runOperation (n + 1) s = .next t) : ∃ u, busyStep s = .next u ∧ runOperation n u = .next t := by
  rw [runOperation, if_pos hb] at e
  split at e
  next u hu => exact ⟨u, hu, e⟩
  all_goals cases e

/-- A run's first step, where it answers a next state. -/
theorem run_succ_of_step {M : Host.Core} {s u : M.State} (k : Nat) (e : M.step s = .next u) :
    M.run (k + 1) s = M.run k u := by
  rw [Host.Core.run, e]

/-- What an operation comes to, single steps of the machine reach. -/
theorem exists_run_of_runOperation {n : Nat} {s t : State} (e : runOperation n s = .next t) :
    ∃ k, Host.Core.run core k s = .next t := by
  induction n generalizing s with
  | zero => exact ⟨0, e⟩
  | succ n ih =>
    rcases Bool.eq_false_or_eq_true s.busy with hb | hb
    · obtain ⟨u, hu, e⟩ := runOperation_succ_next hb e
      obtain ⟨k, hk⟩ := ih e
      exact ⟨k + 1, (run_succ_of_step (M := core) k ((step_busy hb).trans hu)).trans hk⟩
    · exact ⟨0, (runOperation_ended (n + 1) hb).symm.trans e⟩

/-- Settles O40: each of the operation's steps is the machine's step of a busy block. -/
theorem decodeIsItsSteps : Obligations.DecodeIsItsSteps := by
  intro s t e
  obtain ⟨-, -, -, -, e⟩ := execDecodeNextFrame_next (s := s) e
  exact exists_run_of_runOperation e

/-! ## The frame of a DECODE_NEXT_FRAME (R22, R23, R63, R217, R222) -/

/-- What every step of an operation outside phase IDLE keeps, a DECODE_NEXT_FRAME keeps: IDLE while busy is
a RESET's phase (R221). -/
theorem execDecodeNextFrame_keeps {P : State → Prop}
    (hstep : ∀ u v, u.phase ≠ .idle → P u → BusyNext u v → P v) {s t : State} (hs : P (beginFrame s))
    (e : execDecodeNextFrame s = .next t) : P t := by
  obtain ⟨-, -, -, -, e⟩ := execDecodeNextFrame_next e
  refine (runOperation_induction (P := fun u => P u ∧ (u.busy = true → u.phase ≠ .idle)) ?_ _
    ⟨hs, fun _ => Phase.noConfusion⟩ e).1
  rintro u v hb ⟨hu, hne⟩ hv
  exact ⟨hstep u v (hne hb) hu (busyStep_busyNext hv), busyStep_phase_ne_idle hv⟩

/-- The host's inputs and the records of RESET (R218, R297) are as before. -/
structure RecordsKept (s t : State) : Prop where
  inputs : t.inputs = s.inputs
  ready : t.ready = s.ready
  streamSeen : t.streamSeen = s.streamSeen

theorem RecordsKept.refl (s : State) : RecordsKept s s :=
  ⟨rfl, rfl, rfl⟩

theorem RecordsKept.trans {s t u : State} (h : RecordsKept s t) (k : RecordsKept t u) : RecordsKept s u :=
  ⟨k.inputs.trans h.inputs, k.ready.trans h.ready, k.streamSeen.trans h.streamSeen⟩

/-- Only the completion of a RESET, in phase IDLE, sets its records. -/
theorem busyNext_recordsKept {s t : State} (hp : s.phase ≠ .idle) (hn : BusyNext s t) :
    RecordsKept s t := by
  cases hn with
  | dimsFault f w h hx | dims w h hx => exact absurd (expectsDims_iff.1 hx).2 hp
  | endOfRom | runFault | run | scan => constructor <;> simp
  | sample => exact { sampleEdges_borderFrame s with }
  | fillL => exact { fillLeft_borderFrame s with }
  | fullMask | zeroMask | mask | pad | color | fillR => exact { RecordsKept.refl s with }

theorem execDecodeNextFrame_geometryKept {s t : State} (e : execDecodeNextFrame s = .next t) :
    GeometryKept s t :=
  execDecodeNextFrame_keeps (fun _ _ hp h hn => h.trans (busyNext_geometryKept hp hn))
    { GeometryKept.refl s with } e

theorem execDecodeNextFrame_streamKept {s t : State} (e : execDecodeNextFrame s = .next t) :
    StreamKept s t :=
  execDecodeNextFrame_keeps (fun _ _ _ h hn => h.trans (busyNext_streamKept hn))
    { StreamKept.refl s with } e

theorem execDecodeNextFrame_recordsKept {s t : State} (e : execDecodeNextFrame s = .next t) :
    RecordsKept s t :=
  execDecodeNextFrame_keeps (fun _ _ hp h hn => h.trans (busyNext_recordsKept hp hn))
    { RecordsKept.refl s with } e

/-- `FIRST_FRAME` is cleared by the first frame's header step, and no later step sets it (R23, R157). -/
theorem execDecodeNextFrame_firstFrame {s t : State} (e : execDecodeNextFrame s = .next t) :
    t.firstFrame = false := by
  rcases Bool.eq_false_or_eq_true s.firstFrame with hf | hf
  · exact (execDecodeNextFrame_fullMaskInv hf e).firstFrame
  · exact execDecodeNextFrame_keeps (P := fun u => u.firstFrame = false)
      (fun _ _ => busyNext_firstFrame) hf e

/-- Settles O41: what each step of the operation keeps, the operation keeps; the cursor by O51's lemma. -/
theorem decodeFrame : Obligations.DecodeFrame := by
  intro s t e
  have hg : GeometryKept s t := execDecodeNextFrame_geometryKept e
  have hs : StreamKept s t := execDecodeNextFrame_streamKept e
  have hr : RecordsKept s t := execDecodeNextFrame_recordsKept e
  exact ⟨hg.w, hg.h, hg.cw, hg.ch, hs.dispW, hs.dispH, hs.addrW, hs.fbLayout, hs.rom, hs.romLen,
    hr.inputs, hr.ready, hr.streamSeen, execDecodeNextFrame_cursor_le e, execDecodeNextFrame_firstFrame e⟩

/-! ## The dimension registers of every step (R217) -/

/-- Settles O50: busy, only phase IDLE loads them; idle, every request but RESET keeps them. -/
theorem onlyResetLoadsDimensions : Obligations.OnlyResetLoadsDimensions := by
  intro s t e
  suffices hkept : GeometryKept s t ∨ (s.busy = true ∧ s.phase = .idle) ∨
      (s.busy = false ∧ ∃ b q, s.inputs = .control true b :: q) from
    hkept.imp_left fun h => ⟨h.w, h.h, h.cw, h.ch⟩
  cases hb : s.busy with
  | true =>
    by_cases hp : s.phase = .idle
    · exact .inr (.inl ⟨rfl, hp⟩)
    · exact .inl (busyNext_geometryKept hp (busyStep_busyNext (step_busy hb ▸ e)))
  | false =>
    obtain ⟨-, rfl⟩ | ⟨b, q, hi, -⟩ | ⟨q, -, e⟩ | ⟨q, -, rfl⟩ | ⟨x, y, c, q, -, e⟩ | ⟨bytes, q, -, e⟩ :=
      step_idle_next hb e
    · exact .inl { GeometryKept.refl s with }
    · exact .inr (.inr ⟨rfl, b, q, hi⟩)
    · exact .inl { execDecodeNextFrame_geometryKept e with }
    · exact .inl { GeometryKept.refl s with }
    · obtain ⟨-, -, rfl⟩ := hostWrite_next e
      exact .inl { GeometryKept.refl s with }
    · obtain ⟨-, rfl⟩ := hostLoad_next e
      exact .inl { GeometryKept.refl s with }

/-! ## The result of a DECODE_NEXT_FRAME (R220, R261) -/

/-- An operation past its header can end with `OK` = 0 only by a fault. -/
structure HeaderPassed (s : State) : Prop where
  header : s.phase ≠ .header
  busy : s.busy = true → s.phase ≠ .idle
  result : s.busy = false → s.faultRec = none → s.ok = true

/-- A mask that is read passes the header: the operation completes with `OK` = 1 or goes on (R160, R161). -/
theorem execMask_headerPassed {m : MaskWord} {s t : State} (e : execMask m s = .next t) :
    HeaderPassed t := by
  obtain ⟨hx, ⟨-, rfl⟩ | ⟨-, rfl⟩⟩ := execMask_next e
  · exact ⟨Phase.noConfusion, Bool.noConfusion, fun _ _ => rfl⟩
  · exact ⟨Phase.noConfusion, fun _ => Phase.noConfusion,
      fun h => absurd (expectsMask_iff.1 hx).1 (Bool.eq_false_iff.1 h)⟩

theorem busyNext_headerPassed {s t : State} (hb : s.busy = true) (h : HeaderPassed s)
    (hn : BusyNext s t) : HeaderPassed t := by
  have hi := h.busy hb
  refine ⟨(busyNext_mask hi h.header hn).2, fun hbt => ?_, fun hbt hft => ?_⟩
  · obtain ⟨hbusy, -⟩ | ⟨-, -, hp⟩ := busyNext_endsOrGoesOn hn
    · exact absurd hbt (Bool.eq_false_iff.1 hbusy)
    · exact hp
  · obtain hbusy | hok | hfault := busyNext_busy_or_ok hi h.header hn
    · exact absurd (hbusy.trans hb) (Bool.eq_false_iff.1 hbt)
    · exact hok
    · exact absurd hft hfault

/-- A later frame whose mask is left in the stream ends past its header (R158). -/
theorem execDecodeNextFrame_headerPassed {s t : State} (hf : s.firstFrame = false)
    (hleft : 64 ≤ remaining s) (e : execDecodeNextFrame s = .next t) : HeaderPassed t := by
  obtain ⟨-, -, -, -, e⟩ := execDecodeNextFrame_next e
  obtain ⟨u, hu, e⟩ := runOperation_succ_next rfl e
  have hx : expectsMask (beginFrame s) = true := expectsMask_iff.2 ⟨rfl, rfl, hf⟩
  rw [busyStep_mask_inside hx hleft] at hu
  exact runOperation_keeps (fun _ _ => busyNext_headerPassed) _ (execMask_headerPassed hu) e

/-- Where a frame is left, a DECODE_NEXT_FRAME without a fault reports it (R220). -/
theorem execDecodeNextFrame_ok {s t : State} (h : s.firstFrame = false → 64 ≤ remaining s)
    (e : execDecodeNextFrame s = .next t) (hfault : t.faultRec = none) : t.ok = true := by
  have hended := execDecodeNextFrame_ends e
  rcases Bool.eq_false_or_eq_true s.firstFrame with hf | hf
  · exact (execDecodeNextFrame_fullMaskInv hf e).result hended hfault
  · exact (execDecodeNextFrame_headerPassed hf (h hf) e).result hended hfault

/-- Where none is left, it reports that (R159, R270). -/
theorem execDecodeNextFrame_ok_endOfStream {s t : State} (hf : s.firstFrame = false)
    (hend : remaining s < 64) (e : execDecodeNextFrame s = .next t) : t.ok = false := by
  obtain ⟨hb, hready, hnone, hseen, -⟩ := execDecodeNextFrame_next e
  obtain rfl : finish false (beginFrame s) = t := Host.Outcome.next.inj
    ((exec_decodeNextFrame_endOfStream ⟨hb, hready, hnone, hseen⟩ hf hend).symm.trans e)
  rfl

/-- Settles O39: only the header step of a later frame can complete with `OK` = 0, and does where fewer than
64 bits are left. -/
theorem resultTellsEndOfStream : Obligations.ResultTellsEndOfStream := by
  intro s t _ e hfault
  refine ⟨fun hok => ?_, fun ⟨hf, hend⟩ => execDecodeNextFrame_ok_endOfStream hf hend e⟩
  by_contra hleft
  have h : s.firstFrame = false → 64 ≤ remaining s := fun hf => not_lt.1 fun hlt => hleft ⟨hf, hlt⟩
  exact absurd (execDecodeNextFrame_ok h e hfault) (Bool.eq_false_iff.1 hok)

end Sys2Proof.Machine

/-! SUPPORT. The stream's producer (46_stream_producer): what the change detector computes, that its masks name no
chunk without pixels, and the decoder that follows it. -/

namespace Sys2Proof.Machine

/-! ## The pixels of a frame by number (R13, R246) -/

theorem scanOrder_succ (w h : Nat) :
    scanOrder (w + 1) h = scanOrder w h ++ (List.range h).map (fun y => (w, y)) := by
  simp [scanOrder, List.range_succ]

theorem length_scanOrder (w h : Nat) : (scanOrder w h).length = w * h := by
  simp [scanOrder]

/-- Column-major order: pixel `(x, y)` has the number `x * h + y`. -/
theorem scanOrder_getElem? {w h x y : Nat} (hx : x < w) (hy : y < h) :
    (scanOrder w h)[x * h + y]? = some (x, y) := by
  induction w with
  | zero => exact absurd hx (Nat.not_lt_zero x)
  | succ w ih =>
    rw [scanOrder_succ]
    obtain rfl | hlt := Nat.eq_or_lt_of_le (Nat.le_of_lt_succ hx)
    · rw [List.getElem?_append_right (by rw [length_scanOrder]; omega), length_scanOrder]
      simp [hy]
    · have hsome := ih hlt
      rw [List.getElem?_append_left (List.getElem?_eq_some_iff.1 hsome).1, hsome]

/-! ## What the detector computes (R247 to R249) -/

theorem newTotal_eq (d : Detector) (w h : Nat) (f : Frame) (k : Nat) :
    newTotal d w h f k = chunkTotal d k + chunkError d w h f k +
      (if chunkUniform w h f k = true ∧ 0 < chunkTotal d k + chunkError d w h f k
        then d.tuning.penalty else 0) := by
  rw [newTotal, add_ite, Nat.add_zero]
  exact if_congr (by rw [Bool.and_eq_true, decide_eq_true_iff]) rfl rfl

/-- The integer quotient of R249 gives the test of the exact one. -/
theorem triggered_iff {d : Detector} {w h : Nat} {f : Frame} {k : Nat} : triggered d w h f k = true ↔
    d.tuning.percent * (chunkPixels w h k).length < 100 * newTotal d w h f k := by
  rw [triggered, decide_eq_true_iff, Nat.div_lt_iff_lt_mul (by decide), Nat.mul_comm,
    Nat.mul_comm 100]

theorem detectMask_getLsbD (d : Detector) (w h : Nat) (f : Frame) {k : Nat} (hk : k < 64) :
    (detectMask d w h f).getLsbD k = triggered d w h f k := by
  rw [detectMask, BitVec.getLsbD_ofNat, decide_eq_true hk, Bool.true_and,
    testBit_bitsToNat_map_range _ (show k < Config.maskBits from hk)]
  congr 1
  unfold Config.maskBits
  omega

theorem chunkTotal_detect (d : Detector) (w h : Nat) (f : Frame) {k : Nat} (hk : k < 64) :
    chunkTotal (detect d w h f) k = if triggered d w h f k then 0 else newTotal d w h f k := by
  simp [chunkTotal, detect, Config.maskBits, hk]

/-- There are 64 counters (R246). -/
theorem chunkTotal_detect_outside (d : Detector) (w h : Nat) (f : Frame) {k : Nat} (hk : 64 ≤ k) :
    chunkTotal (detect d w h f) k = 0 := by
  simp [chunkTotal, detect, Config.maskBits, hk]

theorem committedAt_detect (d : Detector) (f : Frame) {w h x y : Nat} (hx : x < w) (hy : y < h) :
    committedAt (detect d w h f) h (x, y) =
      if (detectMask d w h f).getLsbD (gridChunk w h (x, y)) then f x y else committedAt d h (x, y) := by
  rw [detectMask_getLsbD d w h f (gridChunk_lt hx hy), committedAt, detect, List.getD_eq_getElem?_getD,
    List.getElem?_map, scanOrder_getElem? hx hy]
  rfl

/-- Settles O44: mask bit, counter and committed pixel are each the one trigger's decision. -/
theorem detectorCommitsTriggeredChunks : Obligations.DetectorCommitsTriggeredChunks := by
  refine ⟨rfl, fun d w h f => ⟨rfl, fun k hk => ?_, fun x y hx hy => committedAt_detect d f hx hy⟩⟩
  rw [detectMask_getLsbD d w h f hk]
  exact ⟨newTotal_eq d w h f k, triggered_iff, chunkTotal_detect d w h f hk⟩

/-! ## Chunks without pixels are never marked (R249, R253) -/

theorem mem_chunkPixels {w h k : Nat} {p : Nat × Nat} :
    p ∈ chunkPixels w h k ↔ (p.1 < w ∧ p.2 < h) ∧ gridChunk w h p = k := by
  simp [chunkPixels, mem_scanOrder]

/-- A chunk without pixels has gathered no error. -/
def EmptyChunksClear (d : Detector) (w h : Nat) : Prop :=
  ∀ k, chunkPixels w h k = [] → chunkTotal d k = 0

theorem startDetector_emptyChunksClear (c : Tuning) (w h : Nat) (f : Frame) :
    EmptyChunksClear (startDetector c w h f) w h := by
  intro k _
  rw [chunkTotal, startDetector, List.getD_eq_getElem?_getD, List.getElem?_replicate]
  split <;> rfl

/-- No pixel can differ, and without an error there is no penalty. -/
theorem EmptyChunksClear.newTotal_eq_zero {d : Detector} {w h k : Nat} (hd : EmptyChunksClear d w h)
    (hk : chunkPixels w h k = []) (f : Frame) : newTotal d w h f k = 0 := by
  have herror : chunkError d w h f k = 0 := by rw [chunkError, hk, List.countP_nil]
  rw [newTotal_eq, hd k hk, herror, if_neg (by simp)]

theorem detect_emptyChunksClear {d : Detector} {w h : Nat} (hd : EmptyChunksClear d w h) (f : Frame) :
    EmptyChunksClear (detect d w h f) w h := by
  intro k hk
  obtain hlt | hge := Nat.lt_or_ge k 64
  · rw [chunkTotal_detect d w h f hlt, hd.newTotal_eq_zero hk, ite_self]
  · exact chunkTotal_detect_outside d w h f hge

/-- A marked chunk has a pixel. -/
theorem EmptyChunksClear.exists_mem_chunkPixels {d : Detector} {w h k : Nat} (hd : EmptyChunksClear d w h)
    {f : Frame} (hk : (detectMask d w h f).getLsbD k = true) : ∃ p, p ∈ chunkPixels w h k := by
  rw [detectMask_getLsbD d w h f (BitVec.lt_of_getLsbD hk)] at hk
  refine List.exists_mem_of_ne_nil _ fun hempty => ?_
  rw [triggered_iff, hd.newTotal_eq_zero hempty, Nat.mul_zero] at hk
  exact Nat.not_lt_zero _ hk

/-- Where a chunk has a pixel, it begins inside the frame. -/
theorem chunk_begins_inside {w h k : Nat} {p : Nat × Nat} (hp : p ∈ chunkPixels w h k) :
    k / Config.grid * ceilDiv8 w < w ∧ k % Config.grid * ceilDiv8 h < h := by
  obtain ⟨⟨hx, hy⟩, rfl⟩ := mem_chunkPixels.1 hp
  have hrow : p.2 / ceilDiv8 h < Config.grid := div_ceilDiv8_lt hy
  have hdiv : gridChunk w h p / Config.grid = p.1 / ceilDiv8 w := by
    rw [gridChunk, Nat.mul_comm, Nat.mul_add_div (by decide), Nat.div_eq_of_lt hrow, Nat.add_zero]
  have hmod : gridChunk w h p % Config.grid = p.2 / ceilDiv8 h := by
    rw [gridChunk, Nat.mul_add_mod', Nat.mod_eq_of_lt hrow]
  rw [hdiv, hmod]
  exact ⟨(Nat.div_mul_le_self _ _).trans_lt hx, (Nat.div_mul_le_self _ _).trans_lt hy⟩

theorem EmptyChunksClear.maskOccupied {d : Detector} {w h : Nat} (hd : EmptyChunksClear d w h) (f : Frame) :
    MaskOccupied (detectMask d w h f) w h := by
  intro k hk
  obtain ⟨p, hp⟩ := hd.exists_mem_chunkPixels hk
  exact chunk_begins_inside hp

theorem EmptyChunksClear.maskOccupied_of_mem_detectAll {d : Detector} {w h : Nat} {fs : List Frame}
    (hd : EmptyChunksClear d w h) {p : MaskWord × Frame} (hp : p ∈ detectAll d w h fs) :
    MaskOccupied p.1 w h := by
  induction fs generalizing d with
  | nil => cases hp
  | cons f fs ih =>
    obtain rfl | hlater := List.mem_cons.1 hp
    · exact hd.maskOccupied f
    · exact ih (detect_emptyChunksClear hd f) hlater

/-- Settles O45: the stream's frames and masks are the video's frames and the detector's masks. -/
theorem producedStreamIsWellFormed : Obligations.ProducedStreamIsWellFormed := by
  intro c dispW dispH w h frames bytes hdims hw hh hbytes
  cases frames with
  | nil => cases hbytes
  | cons f fs =>
    have hclear := startDetector_emptyChunksClear c w.toNat h.toNat f
    exact ⟨w, h, f, _, hdims, hw, hh, fun _ => hclear.maskOccupied_of_mem_detectAll,
      (Option.some.inj hbytes).symm⟩

/-! ## The decoder follows the detector (R255) -/

/-- A mask the detector sends is 0 or selects a pixel (R183, R184). -/
theorem EmptyChunksClear.detectMask_eq_zero_or {d : Detector} {w h : Nat} (hd : EmptyChunksClear d w h)
    (f : Frame) : detectMask d w h f = 0 ∨ maskedPixels (detectMask d w h f) w h ≠ [] := by
  refine or_iff_not_imp_right.2 fun hnone => BitVec.eq_of_getLsbD_eq fun k _ => ?_
  refine (Bool.eq_false_iff.2 fun hk => ?_).trans BitVec.getLsbD_zero.symm
  obtain ⟨p, hp⟩ := hd.exists_mem_chunkPixels hk
  obtain ⟨hinside, rfl⟩ := mem_chunkPixels.1 hp
  exact hnone (List.ne_nil_of_mem (mem_maskedPixels.2 ⟨hinside, hk⟩))

/-- Settles O46: by the round trip of O43 the window takes the new frame's pixels in the chunks the mask marks,
and so does the detector's snapshot. -/
theorem decoderFollowsProducer : Obligations.DecoderFollowsProducer := by
  intro s d f hready hg hwidth hf hclear hwindow bits hbits hstream
  obtain ⟨t, e, -, hfault, hcursor, hpixel⟩ := frameRoundTrip s (detectMask d s.w s.h f) f hready hg hwidth
    (fun h => absurd h (Bool.eq_false_iff.1 hf)) (EmptyChunksClear.detectMask_eq_zero_or hclear f) bits
    (by rw [hbits, hf]; rfl) hstream
  refine ⟨t, e, hfault, hcursor, fun x y hx hy => ?_⟩
  have hchunk : x / s.cw * 8 + y / s.ch = gridChunk s.w s.h (x, y) := chunkOf_eq_gridChunk hg x y
  rw [hpixel x y hx hy, hchunk, hwindow x y hx hy, committedAt_detect d f hx hy]

end Sys2Proof.Machine

/-! SUPPORT. The exceptions (60_exceptions): the faults RESET and DIMS raise, in their order, the end of the ROM
inside a RUN token, and the refusals of the host operations. -/

namespace Sys2Proof.Machine

/-! ## DIMS with bytes it must not hold (R265, R266) -/

/-- A zero byte is `BadDimensions`, whatever the other one is (R265). -/
theorem execDims_zero {s : State} {w h : Byte} (hx : expectsDims s = true) (h0 : w = 0 ∨ h = 0) :
    execDims w h s =
      .next (takeFault (.badDimensions w.toNat h.toNat) { s with w := w.toNat, h := h.toNat }) := by
  have hzero : w.toNat = 0 ∨ h.toNat = 0 := h0.imp (congrArg BitVec.toNat) (congrArg BitVec.toNat)
  rw [execDims, if_pos hx]
  exact if_pos hzero

/-- Only bytes that are not zero are compared with the display (R266, R268). -/
theorem execDims_tooLarge {s : State} {w h : Byte} (hx : expectsDims s = true) (hw : w ≠ 0) (hh : h ≠ 0)
    (hlarge : s.dispW < w.toNat ∨ s.dispH < h.toNat) :
    execDims w h s =
      .next (takeFault (.frameExceedsDisplay w.toNat h.toNat) { s with w := w.toNat, h := h.toNat }) := by
  have hzero : ¬ (w.toNat = 0 ∨ h.toNat = 0) :=
    not_or.2 ⟨mt (BitVec.eq_of_toNat_eq (y := 0)) hw, mt (BitVec.eq_of_toNat_eq (y := 0)) hh⟩
  rw [execDims, if_pos hx]
  exact (if_neg hzero).trans (if_pos hlarge)

/-- Settles O20: the first fault recorded is this one, and taking it ends the RESET. -/
theorem dimsTokenFaults : Obligations.DimsTokenFaults := by
  intro s w h hb hp hf
  have hx : expectsDims s = true := expectsDims_iff.2 ⟨hb, hp⟩
  refine ⟨fun h0 => (execDims_zero hx h0).trans ?_, fun hw hh hl => (execDims_tooLarge hx hw hh hl).trans ?_⟩
  all_goals simp [takeFault, losesFramebuffer, hf, hp]

/-! ## The end of the ROM inside a token (R263, R264) -/

theorem busyStep_overrun {s : State} {c : Context} {consumed ones : Nat} (hc : tokenContext s = some c)
    (hd : decode c (tokenWindow c s) = .error (.overrun consumed ones)) :
    busyStep s = .next (overrunIn c consumed ones s) := by
  simp only [busyStep, fetchToken, hc, hd]

/-- Fewer than two ROM bytes leave no room for DIMS (R263). -/
theorem busyStep_romTooShort {s : State} (hp : s.phase = .idle) (hlen : s.romLen < 2) :
    busyStep s = .next (takeFault (.romTooShort s.romLen) s) := by
  have hctx : tokenContext s = some .dims := by simp [tokenContext, hp]
  have hshort : (tokenWindow .dims s).length < 16 := (tokenWindow_dims_length_le s).trans_lt (by omega)
  exact busyStep_overrun hctx (if_pos hshort)

/-- A window that ends inside a RUN token ends with the ROM: no RUN token is longer than the window
(R93, R264). -/
theorem length_of_decodeRun_overrun {s : State} {p consumed ones : Nat}
    (hd : decodeRun (streamBits s p 24) = .error (.overrun consumed ones)) :
    consumed = 8 * s.romLen - p := by
  obtain ⟨rfl, hones⟩ := decodeRun_overrun hd
  have hshort : (streamBits s p 24).length < 24 := by
    obtain hbits | ⟨field, hbits, hfield⟩ := eq_of_decodeRun_overrun hd
    · rw [hbits, List.length_replicate]
      omega
    · rw [hbits, List.length_append, List.length_replicate, List.length_cons]
      omega
  rw [streamBits_length] at hshort ⊢
  omega

/-- Settles O27: the bits read are all that are left, so that the cursor of the fault is the end of the ROM. -/
theorem overrunInRunStopsAtRomEnd : Obligations.OverrunInRunStopsAtRomEnd := by
  intro s consumed ones hb hf hcursor hdue hd
  have hend : s.cursor + consumed = 8 * s.romLen := by
    rw [length_of_decodeRun_overrun hd, Nat.add_sub_cancel' hcursor]
  refine ⟨_, (step_busy hb).trans (busyStep_overrun (tokenContext_of_runDue hdue) hd), ?_⟩
  simp [overrunIn, hend, hf]

/-! ## RESET (R216, R263 to R266, R268) -/

theorem execReset_of_idle {s : State} (b : Bool) (hb : s.busy = false) :
    execReset b s = busyStep (beginReset s) :=
  if_neg (Bool.eq_false_iff.1 hb)

/-- Settles O18: the length is checked before the bytes are read, and the bytes for zero before their size. -/
theorem resetFaultsInOrder : Obligations.ResetFaultsInOrder := by
  intro s b hb
  refine ⟨(beginReset s).ok, (beginReset s).draws, fun hlen => ?_, fun w h hw hh => ?_⟩
  · refine ((execReset_of_idle b hb).trans (busyStep_romTooShort rfl hlen)).trans ?_
    simp [takeFault, losesFramebuffer, beginReset, hb]
  · have hdims : execReset b s = execDims w h (beginReset s) :=
      (execReset_of_idle b hb).trans (busyStep_dims (s := beginReset s) rfl hw hh)
    refine ⟨fun h0 => (hdims.trans (execDims_zero rfl h0)).trans ?_,
      fun hw0 hh0 hl => (hdims.trans (execDims_tooLarge rfl hw0 hh0 hl)).trans ?_⟩
    all_goals simp [takeFault, losesFramebuffer, beginReset, hb]

/-! ## The refusals (R271, R272) -/

/-- Settles O36: either guard of DECODE_NEXT_FRAME stands before its first step, and RESET has only the first. -/
theorem operationsRefusedByName : Obligations.OperationsRefusedByName := by
  refine ⟨fun s b hb => if_pos hb, fun s hb => if_pos hb, fun s hb hnot => ?_⟩
  have hguard : (!s.ready || s.faultRec.isSome) = true := by
    rw [Bool.or_eq_true, Bool.not_eq_true', ← Option.ne_none_iff_isSome]
    exact hnot
  exact (if_neg (Bool.eq_false_iff.1 hb)).trans (if_pos hguard)

end Sys2Proof.Machine

/-! SUPPORT. Every DECODE_NEXT_FRAME is answered (R219, R304): a busy block under RESET's geometry always has a next
step, whatever the stream holds, and the step that ends the operation completes it or records a fault. -/

namespace Sys2Proof.Machine

/-! ## A token that is due has a next state (R92) -/

theorem expectsDims_iff_tokenContext {s : State} :
    expectsDims s = true ↔ s.busy = true ∧ tokenContext s = some .dims := by
  unfold expectsDims tokenContext
  cases s.phase <;> cases s.gotColor <;> simp

theorem expectsMask_iff_tokenContext {s : State} :
    expectsMask s = true ↔ s.busy = true ∧ tokenContext s = some .mask := by
  unfold expectsMask tokenContext
  cases s.phase <;> cases s.gotColor <;> simp

theorem expectsColor_iff_tokenContext {s : State} :
    expectsColor s = true ↔ s.busy = true ∧ tokenContext s = some .color := by
  unfold expectsColor tokenContext
  cases s.phase <;> simp

/-- DIMS completes the RESET or takes one of its two faults (R216). -/
theorem exists_execDims_next {s : State} (w h : Byte) (hx : expectsDims s = true) :
    ∃ t, execDims w h s = .next t := by
  by_cases h0 : w = 0 ∨ h = 0
  · exact ⟨_, execDims_zero hx h0⟩
  · obtain ⟨hw, hh⟩ := not_or.1 h0
    by_cases hlarge : s.dispW < w.toNat ∨ s.dispH < h.toNat
    · exact ⟨_, execDims_tooLarge hx hw hh hlarge⟩
    · obtain ⟨hfitw, hfith⟩ := not_or.1 hlarge
      exact ⟨_, execDims_legal hx hw hh (not_lt.1 hfitw) (not_lt.1 hfith)⟩

/-- A mask completes the operation or goes on to the colour (R160, R161). -/
theorem exists_execMask_next {s : State} (m : MaskWord) (hx : expectsMask s = true) :
    ∃ t, execMask m s = .next t := by
  obtain rfl | hm := eq_or_ne m 0
  · exact ⟨_, execMask_zero hx⟩
  · exact ⟨_, execMask_nonzero hx hm⟩

theorem exists_exec_next {s : State} {i : Instr} (hb : s.busy = true) (hg : geometryOk s = true)
    (hc : tokenContext s = some i.context) : ∃ t, exec i s = .next t := by
  cases i with
  | dims w h => exact exists_execDims_next w h (expectsDims_iff_tokenContext.2 ⟨hb, hc⟩)
  | mask m => exact exists_execMask_next m (expectsMask_iff_tokenContext.2 ⟨hb, hc⟩)
  | pad n => exact ⟨_, execPad_eq n (expectsMask_iff_tokenContext.2 ⟨hb, hc⟩)⟩
  | color c => exact ⟨_, exec_color (expectsColor_iff_tokenContext.2 ⟨hb, hc⟩) c⟩
  | runG1 | runG2 | runG3 | runG4 | runG5 | runG6 =>
    exact ⟨_, execRunGroup_of_expectsRun _ _ (expectsRun_iff.2 ⟨hb, hc⟩) hg⟩
  | runRsv => exact ⟨_, if_pos (expectsRun_iff.2 ⟨hb, hc⟩)⟩
  | reset | decodeNextFrame => exact absurd hc tokenContext_ne_ctrl

/-! ## Every busy step has a next state (R221) -/

theorem exists_internalStep_next {s : State} (hg : geometryOk s = true) (hc : tokenContext s = none) :
    ∃ t, internalStep s = .next t := by
  cases hp : s.phase with
  | idle => simp [tokenContext, hp] at hc
  | color =>
    simp only [tokenContext, hp] at hc
    split at hc <;> cases hc
  | header => exact ⟨_, if_pos hp⟩
  | scan | sample | fillL | fillR => simp [internalStep, hp, hg]

/-- The token that is due, the end of the ROM inside it, or a step without one: each is answered. -/
theorem exists_busyStep_next {s : State} (hb : s.busy = true) (hg : geometryOk s = true) :
    ∃ t, busyStep s = .next t := by
  cases hc : tokenContext s with
  | none =>
    rw [busyStep_internal hc]
    exact exists_internalStep_next hg hc
  | some c =>
    cases hd : decode c (tokenWindow c s) with
    | ok i rest =>
      rw [← step_busy hb, step_token hb hc hd]
      exact exists_exec_next hb hg (by rw [hc, decode_context hd])
    | error e =>
      cases e with
      | overrun consumed ones => exact ⟨_, busyStep_overrun hc hd⟩
      | noOperation =>
        obtain rfl := decode_noOperation hd
        exact absurd hc tokenContext_ne_ctrl

/-- No step of a DECODE_NEXT_FRAME leaves RESET's geometry, so that each has a next one until it ends. -/
theorem exists_runOperation_next {s : State} (n : Nat) (hg : geometryOk s = true)
    (hi : s.busy = true → s.phase ≠ .idle) : ∃ t, runOperation n s = .next t := by
  induction n generalizing s with
  | zero => exact ⟨s, rfl⟩
  | succ n ih =>
    rcases Bool.eq_false_or_eq_true s.busy with hb | hb
    · obtain ⟨u, hu⟩ := exists_busyStep_next hb hg
      have hkept := busyNext_geometryKept (hi hb) (busyStep_busyNext hu)
      rw [runOperation_succ n hb hu]
      refine ih ?_ (busyStep_phase_ne_idle hu)
      rw [geometryOk_congr hkept.w hkept.h hkept.cw hkept.ch hkept.dispW hkept.dispH, hg]
    · exact ⟨s, runOperation_ended (n + 1) hb⟩

theorem exists_execDecodeNextFrame_next {s : State} (h : ReadyToDecode s) (hg : geometryOk s = true) :
    ∃ t, execDecodeNextFrame s = .next t := by
  rw [execDecodeNextFrame_of_ready h]
  exact exists_runOperation_next _ hg fun _ => Phase.noConfusion

/-! ## How an operation ends (R33, R219) -/

theorem afterLeft_busy_or_done (s : State) :
    (afterLeft s).busy = s.busy ∨ (afterLeft s).done = true := by
  unfold afterLeft
  split
  · exact .inl rfl
  · exact .inr rfl

theorem sampleEdges_busy_or_done (s : State) :
    (sampleEdges s).busy = s.busy ∨ (sampleEdges s).done = true := by
  unfold sampleEdges
  dsimp only
  split
  · exact .inl rfl
  · exact afterLeft_busy_or_done _

/-- A step of a DECODE_NEXT_FRAME that ends it pulses `DONE` or records a fault. -/
theorem busyNext_busy_or_done {s t : State} (hi : s.phase ≠ .idle) (hn : BusyNext s t) :
    t.busy = s.busy ∨ t.done = true ∨ t.faultRec ≠ none := by
  cases hn with
  | dimsFault f w h hx | dims w h hx => exact absurd (expectsDims_iff.1 hx).2 hi
  | endOfRom | runFault => exact .inr (.inr (by simp))
  | fullMask | mask | color => exact .inl rfl
  | run | scan => exact .inl (by simp)
  | sample => exact (sampleEdges_busy_or_done s).imp_right .inl
  | fillL => exact (afterLeft_busy_or_done _).imp_right .inl
  | zeroMask | pad | fillR => exact .inr (.inl rfl)

/-- An operation that has ended left the controller in IDLE, with `DONE` unless a fault is recorded. -/
structure EndedIdle (s : State) : Prop where
  phase : s.busy = false → s.phase = .idle
  done : s.busy = false → s.faultRec = none → s.done = true

theorem busyNext_endedIdle {s t : State} (hb : s.busy = true) (hi : s.phase ≠ .idle) (hn : BusyNext s t) :
    EndedIdle t := by
  have goesOn : t.busy = s.busy → ¬ t.busy = false := fun h => by simp [h, hb]
  refine ⟨fun hbt => ?_, fun hbt hft => ?_⟩
  · obtain ⟨-, hp⟩ | ⟨hbusy, -⟩ := busyNext_endsOrGoesOn hn
    · exact hp
    · exact absurd hbt (goesOn hbusy)
  · obtain hbusy | hdone | hfault := busyNext_busy_or_done hi hn
    · exact absurd hbt (goesOn hbusy)
    · exact hdone
    · exact absurd hft hfault

theorem execDecodeNextFrame_endedIdle {s t : State} (e : execDecodeNextFrame s = .next t) : EndedIdle t := by
  obtain ⟨-, -, -, -, e⟩ := execDecodeNextFrame_next e
  refine (runOperation_induction (P := fun u => EndedIdle u ∧ (u.busy = true → u.phase ≠ .idle)) ?_ _
    ⟨⟨Bool.noConfusion, Bool.noConfusion⟩, fun _ => Phase.noConfusion⟩ e).1
  rintro u v hb ⟨-, hi⟩ hv
  exact ⟨busyNext_endedIdle hb (hi hb) (busyStep_busyNext hv), busyStep_phase_ne_idle hv⟩

/-- Settles O38: each step is answered, the steps suffice, and the last one ends the operation in IDLE. -/
theorem decodeTerminatesIdle : Obligations.DecodeTerminatesIdle := by
  intro s hready hg
  obtain ⟨t, e⟩ := exists_execDecodeNextFrame_next hready hg
  have hended := execDecodeNextFrame_ends e
  have hidle := execDecodeNextFrame_endedIdle e
  exact ⟨t, e, hended, hidle.phase hended, hidle.done hended⟩

end Sys2Proof.Machine
